-- ==== Sys2Proof/Word.lean ====
section
/-! DEFINITION. The widths of KFE's values (spec/00_scope.md R11): a byte is 8 bits, a word and an address 32 bits, a CRC 16 bits. -/

namespace Sys2Proof

/-- A byte (R11). -/
abbrev Byte := BitVec 8

/-- The 16-bit value of a CRC (R150). -/
abbrev Half := BitVec 16

/-- A 32-bit payload word or flash address (R11). -/
abbrev Word := BitVec 32

end Sys2Proof
end

