-- ==== Sys2Proof/Config.lean ====
section
/-! DEFINITION. The parameters of KFE (spec/00_scope.md R8, R9, R10): the build constants of Table P1, the protocol
profile of Table P2, their constraints, the two parameter sets that `State.reset` uses, and the free values. The records
are fields of State that no step changes, so the model covers every build and every profile (assumption log 1, 2). -/

namespace Sys2Proof

/-- The value of an erased flash byte, fixed (Table P1, `ERASED`). -/
def erasedByte : Byte := 0xFF#8

/-- The build constants of Table P1 (R8). `deviceId` and `transportId` are the identity words given as bytes (R117). -/
structure Cfg where
  /-- `BLOCK_SIZE`: bytes of image data per WRITE_BLOCK and READ_BLOCK. -/
  blockSize : Nat
  /-- `PAGE_SIZE`: bytes of one flash page. -/
  pageSize : Nat
  /-- `APP_START`: lowest address a command may name. -/
  appStart : Nat
  /-- `FLASH_BASE`: lowest address of the flash array. -/
  flashBase : Nat
  /-- `FLASH_END`: one past the highest flash address. -/
  flashEnd : Nat
  /-- `RX_CAP`: capacity of the receive buffer. -/
  rxCap : Nat
  /-- `TX_CAP`: capacity of the outbound queue. -/
  txCap : Nat
  /-- `GRACE_TICKS`: the grace delay in ticks. -/
  graceTicks : Nat
  /-- `PROTO_VERSION`, reported by CONNECT. -/
  protoVersion : Word
  /-- `DEVICE_ID`, reported by CONNECT, sent as it is. -/
  deviceId : List Byte
  /-- `HAS_TRANSPORT_ID`: whether GET_TRANSPORT_ID is implemented. -/
  hasTransportId : Bool
  /-- `TRANSPORT_ID`, reported by GET_TRANSPORT_ID. -/
  transportId : List Byte
  deriving DecidableEq, Repr

/-- `BW`, data words per block (R10). -/
def Cfg.blockWords (c : Cfg) : Nat := c.blockSize / 4

/-- `PAGES`, the number of flash pages (R10); no step reads it. -/
def Cfg.pages (c : Cfg) : Nat := (c.flashEnd - c.flashBase) / c.pageSize

/-- The constraints of Table P1 (R8): "a configuration that breaks a constraint is not a KFE". -/
abbrev Cfg.Ok (c : Cfg) : Prop :=
  (c.blockSize % 4 = 0 ∧ c.blockSize / 4 + 2 ≤ 255) ∧
  (0 < c.pageSize ∧ c.pageSize % c.blockSize = 0) ∧
  (c.appStart % c.pageSize = 0 ∧ c.flashBase ≤ c.appStart ∧ c.appStart < c.flashEnd) ∧
  c.flashBase % c.pageSize = 0 ∧
  (c.flashEnd ≤ 2 ^ 32 ∧ c.flashEnd % c.pageSize = 0) ∧
  12 + c.blockSize ≤ c.rxCap ∧
  (16 + c.blockSize ≤ c.txCap ∧ 24 + c.deviceId.length ≤ c.txCap ∧
    (c.hasTransportId = true → 12 + c.transportId.length ≤ c.txCap)) ∧
  (c.deviceId.length % 4 = 0 ∧ c.deviceId.length ≤ 4 * 251) ∧
  (c.transportId.length % 4 = 0 ∧ c.transportId.length ≤ 4 * 254)

/-- Byte order of payload words, `WORD_ENDIAN` (Table P2, R12). -/
inductive Endian where
  | le
  | be
  deriving DecidableEq, Repr

/-- Where the CRC span starts, `CRC_FROM_RX` and `CRC_FROM_TX`: frame offset 0 or 2 (Table P2, R105). -/
inductive CrcFrom where
  | signature
  | command
  deriving DecidableEq, Repr

/-- `TAIL_POS = (ph, pl, p0, p1)`: the offsets in the tail of the CRC's high byte and low byte, `TRL0` and `TRL1` (R104). -/
structure TailPos where
  crcHi : Fin 4
  crcLo : Fin 4
  trl0 : Fin 4
  trl1 : Fin 4
  deriving DecidableEq, Repr

/-- The protocol profile of Table P2 (R9). -/
structure Prof where
  sig0 : Byte
  sig1 : Byte
  trl0 : Byte
  trl1 : Byte
  wordEndian : Endian
  tailPos : TailPos
  crcFromRx : CrcFrom
  crcFromTx : CrcFrom
  crcInit : Half
  crcRefIn : Bool
  crcRefOut : Bool
  crcXorOut : Half
  cmdConnect : Byte
  cmdWriteBlock : Byte
  cmdEof : Byte
  cmdReadBlock : Byte
  cmdComplete : Byte
  cmdGetTransportId : Byte
  rspAck : Byte
  rspNackLen : Byte
  rspNackCrc : Byte
  rspNackTrailer : Byte
  rspNackCmd : Byte
  rspCmdError : Byte
  deriving DecidableEq, Repr

/-- The profile's constraints (R9): `TAIL_POS` is a permutation, the six command bytes are pairwise distinct, and the
response types are pairwise distinct but for the NACK codes among themselves. -/
abbrev Prof.Ok (p : Prof) : Prop :=
  [p.tailPos.crcHi, p.tailPos.crcLo, p.tailPos.trl0, p.tailPos.trl1].Nodup ∧
  [p.cmdConnect, p.cmdWriteBlock, p.cmdEof, p.cmdReadBlock, p.cmdComplete, p.cmdGetTransportId].Nodup ∧
  p.rspAck ≠ p.rspCmdError ∧
  (∀ n ∈ [p.rspNackLen, p.rspNackCrc, p.rspNackTrailer, p.rspNackCmd], n ≠ p.rspAck ∧ n ≠ p.rspCmdError)

/-- The default column of Table P2, the spec's values for its vectors (assumption log 2). -/
def Prof.default : Prof where
  sig0 := 0x01#8
  sig1 := 0x88#8
  trl0 := 0x99#8
  trl1 := 0x03#8
  wordEndian := .le
  tailPos := { crcHi := 1, crcLo := 0, trl0 := 2, trl1 := 3 }
  crcFromRx := .signature
  crcFromTx := .signature
  crcInit := 0xFFFF#16
  crcRefIn := true
  crcRefOut := true
  crcXorOut := 0x0000#16
  cmdConnect := 0x11#8
  cmdWriteBlock := 0x12#8
  cmdEof := 0x13#8
  cmdReadBlock := 0x14#8
  cmdComplete := 0x15#8
  cmdGetTransportId := 0x16#8
  rspAck := 0xA0#8
  rspNackLen := 0xF1#8
  rspNackCrc := 0xF1#8
  rspNackTrailer := 0xF1#8
  rspNackCmd := 0xF1#8
  rspCmdError := 0xF2#8

/-- Test configuration T of spec/95_test_vectors.md section 0, with the transport identifier of its vector V53, so that
every row of the opcode table can run from `State.reset`. DESIGN CHOICE (assumption log 1): Table P1 leaves these open. -/
def Cfg.reference : Cfg where
  blockSize := 8
  pageSize := 16
  appStart := 0x2000
  flashBase := 0
  flashEnd := 0x4000
  rxCap := 64
  txCap := 128
  graceTicks := 3
  protoVersion := 0x00010000#32
  deviceId := [0x6B#8, 0x66#8, 0x65#8, 0x30#8]
  hasTransportId := true
  transportId := [0xAA#8, 0xBB#8, 0xCC#8, 0xDD#8]

/-- The status an erase or a program reports (R67, R68). -/
inductive FlashStatus where
  | ok
  | fail
  deriving DecidableEq, Repr, Inhabited

/-- The oracle's answer to one erase or program (R67, R68): it succeeds, or the page then holds any bytes and the
operation reports `reported`. -/
inductive FlashDraw where
  | ok
  | fail (reported : FlashStatus) (bytes : List Byte)
  deriving DecidableEq, Repr, Inhabited

/-- FREE VALUE (assumption log 9): the oracle's answer to an erase or a program for which `env.draws` lists none. -/
opaque Config.freeDraw : Nat → FlashDraw

/-- FREE VALUE (assumption log 8): with no event listed and both CORE steps enabled, whether Jump comes first (R293). -/
opaque Config.freeJumpFirst : Nat → Bool

end Sys2Proof
end

