-- ==== Sys2Proof/Machine/State.lean ====
section
/-! DEFINITION. The state of KFE (spec/10_state.md R20 to R37, Table S1) as plain data, the reasons a step can stop, and
the state right after reset. -/

namespace Sys2Proof.Machine

/-- The top-level mode `M` (R20). -/
inductive Mode where
  | run
  | jumped
  deriving DecidableEq, Repr

/-- The session state `XS` (R30). -/
inductive TransferState where
  | idle
  | receiving
  | transmitting
  | eofPending
  | complete
  deriving DecidableEq, Repr

/-- The state `FS` of the flash program state machine (R31). -/
inductive FlashState where
  | idle
  | accumulating
  | flushing
  | verifying
  | done
  deriving DecidableEq, Repr

/-- The receive buffer: `buf` holds the bytes `RB.buf[0 .. RB.fill)`, `rp` is the scan position (R21, R23; assumption
log 5). -/
structure RxBuffer where
  buf : List Byte
  rp : Nat
  deriving DecidableEq, Repr

/-- `RB.fill` (R22). -/
def RxBuffer.fill (rb : RxBuffer) : Nat := rb.buf.length

/-- `Pending`, the unconsumed bytes (R24). -/
def RxBuffer.pending (rb : RxBuffer) : List Byte := rb.buf.drop rb.rp

/-- The staging page (R25 to R28). -/
structure StagingPage where
  buf : List Byte
  pending : Bool
  addr : Word
  lastValid : Bool
  lastPage : Word
  deriving DecidableEq, Repr

/-- A flash port event of `FLASHLOG` (R37). -/
inductive FlashEvent where
  | isErased (pa : Word)
  | read (pa : Word)
  | erase (pa : Word)
  | program (pa : Word) (data : List Byte)
  deriving DecidableEq, Repr

/-- The observation traces (R37): not hardware. -/
structure Trace where
  txLog : List Byte
  dropLog : List (List Byte)
  flashLog : List FlashEvent
  rxDrop : Nat
  deriving DecidableEq, Repr

/-- One step of an agent (R14), with what its surroundings choose. -/
inductive Event where
  /-- RX delivers a chunk (R50, R171). -/
  | rx (chunk : List Byte)
  /-- TX takes `count` bytes (R51, R266). -/
  | tx (count : Nat)
  /-- TIMER ticks (R55, R292). -/
  | tick
  /-- CORE runs one reframer iteration (R183). -/
  | iterate
  /-- CORE takes the Jump step (R293). -/
  | jump
  /-- ENV resets between two steps, with the sampled `enter_update_mode` (R350, R351). -/
  | reset (enterUpdateMode : Bool)
  /-- Power is lost inside a CORE iteration, before its response, and comes back (R353): the iteration had issued its
  first `issued` flash port events, its erases and programs with the answers `answers`; a last one that was in flight
  has a failing answer with the bytes it leaves (assumption log 11). -/
  | powerLoss (answers : List FlashDraw) (issued : Nat) (enterUpdateMode : Bool)
  deriving DecidableEq, Repr

/-- The MODEL's own fields, not the spec's: the inputs of the surroundings as plain data (assumption log 7, 8, 9). -/
structure Env where
  /-- The agents' steps to come, next first. -/
  events : List Event
  /-- The oracle's answers to come for erase and program, next first. -/
  draws : List FlashDraw
  /-- How many free values have been taken from the opaque constants of Config. -/
  drawn : Nat
  deriving DecidableEq, Repr

/-- The flash array as a list of address and byte pairs (R35), in the canonical form that `Memory.wf` states. -/
abbrev Memory := List Host.Cell

/-- The whole machine: its parameters (constant), the elements of Table S1, the output `jump_app` (R54), the traces and
the inputs to come. -/
structure State where
  cfg : Cfg
  prof : Prof
  mode : Mode
  jumpApp : Bool
  rb : RxBuffer
  sp : StagingPage
  xs : TransferState
  fs : FlashState
  wc : Word
  gt : Nat
  txq : List Byte
  flash : Memory
  trace : Trace
  env : Env
  deriving DecidableEq, Repr

/-- Why a step stops with a fault. -/
inductive Fault where
  /-- A flash operation outside the range in which it exists: a flush whose page is not page-aligned in
  `[APP_START, FLASH_END)`, or a read outside `[FLASH_BASE, FLASH_END)` (R35, R66 to R68). Raised by WRITE_BLOCK,
  END_OF_FILE and READ_BLOCK only in states that no run of a valid configuration reaches. Safe. -/
  | flashRange
  deriving DecidableEq, Repr

/-- Why a step is refused. -/
inductive Refusal where
  /-- An instruction without a meaning: raised by no arm of `exec`. Safe. -/
  | notModelled (mnemonic : String)
  /-- The build constants or the profile break a constraint of Table P1 or P2: "not a KFE" (R8, R9, I8). Raised by
  `step`. Safe. -/
  | notAKfe
  deriving DecidableEq, Repr

/-- `SP` after reset: all-erased, nothing pending, no last page (Table S1; the two addresses have no defined value and
are 0: DESIGN CHOICE, assumption log 4). -/
def resetStaging (c : Cfg) : StagingPage where
  buf := List.replicate c.pageSize erasedByte
  pending := false
  addr := 0#32
  lastValid := false
  lastPage := 0#32

/-- The machine right after its first power-up with `enter_update_mode` = 1: Table S1 (R40, R350, R351), the parameters
of assumption log 1 and 2, flash with nothing listed (log 3), and no inputs listed (log 7, 9). -/
def State.reset : State where
  cfg := Cfg.reference
  prof := Prof.default
  mode := .run
  jumpApp := false
  rb := { buf := [], rp := 0 }
  sp := resetStaging Cfg.reference
  xs := .idle
  fs := .idle
  wc := 0#32
  gt := 0
  txq := []
  flash := []
  trace := { txLog := [], dropLog := [], flashLog := [], rxDrop := 0 }
  env := { events := [], draws := [], drawn := 0 }

end Sys2Proof.Machine
end

