-- ==== Sys2Proof/Machine/Flags.lean ====
section
/-! DEFINITION. The status fields and outputs (spec/10_state.md R30, R57; spec/45_transfer_controller.md R281). KFE has no
arithmetic flags; its flags are `SP.pending`, `SP.last_valid`, `XS`, `FS` and the outputs below. -/

namespace Sys2Proof.Machine

/-- `SetXS(v)`: `COMPLETE` is sticky (R281). -/
def setXs (v : TransferState) (s : State) : State :=
  if s.xs = .complete then s else { s with xs := v }

/-- `FS <- v` (R220). -/
def setFs (v : FlashState) (s : State) : State := { s with fs := v }

/-- The status output `st_transfer` (R57). -/
def stTransfer (s : State) : Bool := s.xs == .receiving

/-- The status output `st_flash` (R57). -/
def stFlash (s : State) : Bool := s.fs == .flushing || s.fs == .verifying

end Sys2Proof.Machine
end

