-- ==== Sys2Proof/Machine/Memory.lean ====
section
/-! DEFINITION. Bytes of the flash array (spec/10_state.md R35): reading, writing, and the one canonical form. What an
unlisted address reads as is `Memory.blank`. -/

namespace Sys2Proof.Machine

/-- What an address that the list does not name reads as: the erased byte. DESIGN CHOICE (assumption log 3): the spec
gives the first contents of flash no value. -/
def Memory.blank : Byte := erasedByte

/-- The byte at address `a`. -/
def Memory.read (m : Memory) (a : Nat) : Byte :=
  match m with
  | [] => Memory.blank
  | (k, v) :: rest => if a = k then v else Memory.read rest a

/-- Store byte `b` at address `a`, keeping the canonical form. -/
def Memory.write (m : Memory) (a : Nat) (b : Byte) : Memory :=
  match m with
  | [] => if b = Memory.blank then [] else [(a, b)]
  | (k, v) :: rest =>
    if a < k then (if b = Memory.blank then (k, v) :: rest else (a, b) :: (k, v) :: rest)
    else if a = k then (if b = Memory.blank then rest else (a, b) :: rest)
    else (k, v) :: Memory.write rest a b

/-- The canonical form from address `lo` up: addresses strictly rising, no entry equal to `Memory.blank`. -/
def Memory.wfFrom (lo : Nat) (m : Memory) : Bool :=
  match m with
  | [] => true
  | (k, v) :: rest => decide (lo ≤ k) && !(v == Memory.blank) && Memory.wfFrom (k + 1) rest

/-- The canonical form. -/
def Memory.wf (m : Memory) : Bool := Memory.wfFrom 0 m

/-- The `n` bytes from address `a`, lowest address first (R66). -/
def Memory.readBytes (m : Memory) (a n : Nat) : List Byte :=
  match n with
  | 0 => []
  | n + 1 => Memory.read m a :: Memory.readBytes m (a + 1) n

/-- Store the bytes `bs` at increasing addresses from `a`. -/
def Memory.writeBytes (m : Memory) (a : Nat) (bs : List Byte) : Memory :=
  match bs with
  | [] => m
  | b :: rest => Memory.writeBytes (Memory.write m a b) (a + 1) rest

end Sys2Proof.Machine
end

