-- ==== Sys2Proof/Machine/Crc.lean ====
section
/-! DEFINITION. The CRC-16 function (spec/40_crc16.md R150) with its four profile parameters, and the two other forms
that R151 gives for the default parameters. -/

namespace Sys2Proof

/-- One of the eight rounds of R150: shift left by one, and XOR with the polynomial if bit 15 was 1. -/
def crcRound (c : Half) : Half :=
  if c.getLsbD 15 then (c <<< 1) ^^^ 0x1021#16 else c <<< 1

/-- Eight rounds. -/
def crcRounds (c : Half) : Half :=
  crcRound (crcRound (crcRound (crcRound (crcRound (crcRound (crcRound (crcRound c)))))))

/-- One byte of R150: the byte, reversed if `CRC_REFIN`, into bits 15:8, then eight rounds. -/
def crcByte (refIn : Bool) (c : Half) (b : Byte) : Half :=
  crcRounds (c ^^^ ((if refIn then b.reverse else b) ++ 0#8))

/-- The register after the bytes of `s`, from the value `c`. -/
def crcLoop (refIn : Bool) (c : Half) (s : List Byte) : Half :=
  match s with
  | [] => c
  | b :: rest => crcLoop refIn (crcByte refIn c b) rest

/-- `Crc16(s)` (R150). -/
def crc16 (p : Prof) (s : List Byte) : Half :=
  let c := crcLoop p.crcRefIn p.crcInit s
  (if p.crcRefOut then c.reverse else c) ^^^ p.crcXorOut

/-- One round of the least-significant-bit-first form (R151). -/
def crcRoundLsb (c : Half) : Half :=
  if c.getLsbD 0 then (c >>> 1) ^^^ 0x8408#16 else c >>> 1

/-- One byte of the least-significant-bit-first form (R151). -/
def crcByteLsb (c : Half) (b : Byte) : Half :=
  let d := c ^^^ (0#8 ++ b)
  crcRoundLsb (crcRoundLsb (crcRoundLsb (crcRoundLsb (crcRoundLsb (crcRoundLsb (crcRoundLsb (crcRoundLsb d)))))))

/-- The least-significant-bit-first form of R151, from the value `c`. -/
def crcLsb (c : Half) (s : List Byte) : Half :=
  match s with
  | [] => c
  | b :: rest => crcLsb (crcByteLsb c b) rest

/-- One byte of the byte-at-a-time form of R151, with an 8-bit `d` and a 16-bit `c`. -/
def crcByteFast (c : Half) (b : Byte) : Half :=
  let d0 := b ^^^ c.extractLsb' 0 8
  let d := d0 ^^^ (d0 <<< 4)
  let d16 : Half := 0#8 ++ d
  ((d16 <<< 8) ||| (c >>> 8)) ^^^ (d16 >>> 4) ^^^ (d16 <<< 3)

/-- The byte-at-a-time form of R151, from the value `c`. -/
def crcFast (c : Half) (s : List Byte) : Half :=
  match s with
  | [] => c
  | b :: rest => crcFast (crcByteFast c b) rest

end Sys2Proof
end

