-- ==== Sys2Proof/Syntax.lean ====
section
/-! DEFINITION. The instructions of KFE (spec/00_scope.md R15; spec/30_encoding.md R108, R115, R131): one constructor
per row of spec/opcode_table.json. A request carries its whole payload, because the command byte alone selects it and a
wrong word count is still that command (R131, R202). -/

namespace Sys2Proof

/-- The request frames the dispatcher takes and the response frames the encoder builds. -/
inductive Instr where
  /-- CONNECT (R109, R283). -/
  | connect (payload : List Byte)
  /-- WRITE_BLOCK: address word, then the block's data bytes (R110, R221). -/
  | writeBlock (payload : List Byte)
  /-- END_OF_FILE (R111, R240). -/
  | endOfFile (payload : List Byte)
  /-- READ_BLOCK: address word (R112, R285). -/
  | readBlock (payload : List Byte)
  /-- COMPLETE (R113, R287). -/
  | complete (payload : List Byte)
  /-- GET_TRANSPORT_ID, only if `HAS_TRANSPORT_ID` (R114, R289). -/
  | getTransportId (payload : List Byte)
  /-- Any other command byte (R125, R203). -/
  | unknown (cmd : Byte) (payload : List Byte)
  /-- ACK: the echoed command as a word, then the data words (R116). -/
  | ack (payload : List Byte)
  /-- NACK for a frame too large (R123, R176). -/
  | nackLen
  /-- NACK for a bad trailer (R123, R178). -/
  | nackTrailer
  /-- NACK for a bad CRC (R123, R179). -/
  | nackCrc
  /-- NACK "bad command", a code of the encoder that no rule emits (R115, conflict C4). -/
  | nackCmd
  /-- COMMAND_ERROR (R124, R203). -/
  | commandError
  deriving DecidableEq, Repr

/-- Whether the row's format is REQ: a frame the host sends to KFE (R131). -/
def Instr.isRequest (i : Instr) : Bool :=
  match i with
  | .connect _ => true
  | .writeBlock _ => true
  | .endOfFile _ => true
  | .readBlock _ => true
  | .complete _ => true
  | .getTransportId _ => true
  | .unknown _ _ => true
  | .ack _ => false
  | .nackLen => false
  | .nackTrailer => false
  | .nackCrc => false
  | .nackCmd => false
  | .commandError => false

/-- The payload bytes of the frame (R100); NACK and COMMAND_ERROR have none (R123, R124). -/
def Instr.payload (i : Instr) : List Byte :=
  match i with
  | .connect p => p
  | .writeBlock p => p
  | .endOfFile p => p
  | .readBlock p => p
  | .complete p => p
  | .getTransportId p => p
  | .unknown _ p => p
  | .ack p => p
  | .nackLen => []
  | .nackTrailer => []
  | .nackCrc => []
  | .nackCmd => []
  | .commandError => []

end Sys2Proof
end

