-- ==== Sys2Proof/WellFormed.lean ====
section
/-! DEFINITION. Which instructions are frames of a given build and profile (spec/30_encoding.md R100, R102, R114, R125):
the payload is a whole number of words and its count fits the word-count byte; GET_TRANSPORT_ID exists only where it is
implemented; UNKNOWN carries no implemented command byte. -/

namespace Sys2Proof

/-- The payload is `4n` bytes with `n` in 0..255 (R100, R102). -/
abbrev PayloadOk (payload : List Byte) : Prop :=
  payload.length % 4 = 0 ∧ payload.length ≤ 1020

/-- The implemented command bytes of Table E2: five, and GET_TRANSPORT_ID if `HAS_TRANSPORT_ID` (R125). -/
def commandBytes (c : Cfg) (p : Prof) : List Byte :=
  [p.cmdConnect, p.cmdWriteBlock, p.cmdEof, p.cmdReadBlock, p.cmdComplete] ++
    (if c.hasTransportId then [p.cmdGetTransportId] else [])

/-- The code of the frame belongs to the constructor: GET_TRANSPORT_ID is implemented (R114), an UNKNOWN command byte is
not (R125). -/
def codeOk (c : Cfg) (p : Prof) (i : Instr) : Bool :=
  match i with
  | .connect _ => true
  | .writeBlock _ => true
  | .endOfFile _ => true
  | .readBlock _ => true
  | .complete _ => true
  | .getTransportId _ => c.hasTransportId
  | .unknown cmd _ => !(commandBytes c p).contains cmd
  | .ack _ => true
  | .nackLen => true
  | .nackTrailer => true
  | .nackCrc => true
  | .nackCmd => true
  | .commandError => true

/-- The instruction is a frame of build `c` and profile `p`. -/
abbrev WellFormed (c : Cfg) (p : Prof) (i : Instr) : Prop :=
  PayloadOk i.payload ∧ codeOk c p i = true

end Sys2Proof
end

