-- ==== Sys2Proof/Decode.lean ====
section
/-! DEFINITION. Frames as bytes: word packing (spec/00_scope.md R12), the tail (spec/30_encoding.md R104), the decoder of
received bytes with the reframer's order of tests (spec/41_reframer.md R183), a host's decoder of responses (R262), and
the encoder (R130, R261). -/

namespace Sys2Proof

/-! ## Word packing -/

/-- `word(v)` (R12). -/
def wordBytes (e : Endian) (v : Word) : List Byte :=
  match e with
  | .le => [v.extractLsb' 0 8, v.extractLsb' 8 8, v.extractLsb' 16 8, v.extractLsb' 24 8]
  | .be => [v.extractLsb' 24 8, v.extractLsb' 16 8, v.extractLsb' 8 8, v.extractLsb' 0 8]

/-- `unword(b)` (R12), on the first four bytes of `b`. -/
def unword (e : Endian) (b : List Byte) : Word :=
  match e with
  | .le => b.getD 3 0#8 ++ b.getD 2 0#8 ++ b.getD 1 0#8 ++ b.getD 0 0#8
  | .be => b.getD 0 0#8 ++ b.getD 1 0#8 ++ b.getD 2 0#8 ++ b.getD 3 0#8

/-- `words(v0, ..., vk)` (R12). -/
def wordsBytes (e : Endian) (vs : List Word) : List Byte :=
  match vs with
  | [] => []
  | v :: rest => wordBytes e v ++ wordsBytes e rest

/-- `pad4(s)` (R12): the fewest zero bytes after `s` that make its length a multiple of 4; an identity given as text is
padded so (R117). -/
def pad4 (s : List Byte) : List Byte := s ++ List.replicate ((4 - s.length % 4) % 4) 0#8

/-! ## The frame -/

/-- `FrameLen(n) = 8 + 4n` (R10, R102). -/
def frameLen (n : Nat) : Nat := 8 + 4 * n

/-- The frame offset where the CRC span starts (R105). -/
def crcOffset (f : CrcFrom) : Nat :=
  match f with
  | .signature => 0
  | .command => 2

/-- Byte `k` of the tail of a frame whose CRC is `c` (R104). -/
def tailByte (p : Prof) (c : Half) (k : Fin 4) : Byte :=
  if k = p.tailPos.crcHi then c.extractLsb' 8 8
  else if k = p.tailPos.crcLo then c.extractLsb' 0 8
  else if k = p.tailPos.trl0 then p.trl0
  else p.trl1

/-- `MkTail(c)` (R104). -/
def mkTail (p : Prof) (c : Half) : List Byte :=
  [tailByte p c 0, tailByte p c 1, tailByte p c 2, tailByte p c 3]

/-- `TailCrc(t)` (R104). -/
def tailCrc (p : Prof) (t : List Byte) : Half :=
  t.getD p.tailPos.crcHi.val 0#8 ++ t.getD p.tailPos.crcLo.val 0#8

/-- `TailTrlOK(t)` (R104). -/
def tailTrlOk (p : Prof) (t : List Byte) : Bool :=
  t.getD p.tailPos.trl0.val 0#8 == p.trl0 && t.getD p.tailPos.trl1.val 0#8 == p.trl1

/-- The frame's first four bytes and its payload (R100): the body that `BuildFrame` completes (R261). -/
def frameBody (p : Prof) (code : Byte) (payload : List Byte) : List Byte :=
  [p.sig0, p.sig1, code, BitVec.ofNat 8 (payload.length / 4)] ++ payload

/-- `BuildFrame` (R261) with the CRC span starting at `span` (R105). -/
def buildFrame (p : Prof) (span : CrcFrom) (code : Byte) (payload : List Byte) : List Byte :=
  frameBody p code payload ++ mkTail p (crc16 p ((frameBody p code payload).drop (crcOffset span)))

/-! ## Decoding -/

/-- Why no instruction is read at the front of a byte string. -/
inductive DecodeError where
  /-- No byte is there (R182). -/
  | empty
  /-- The first `count` bytes are not `SIG0` (R173). -/
  | noise (count : Nat)
  /-- `SIG0` with fewer than `HEAD_SIZE` bytes (R174): wait. -/
  | shortHead
  /-- `SIG0` not followed by `SIG1` (R175). -/
  | badSignature
  /-- The declared length exceeds the receive buffer (R176). -/
  | tooLarge
  /-- Fewer bytes than the declared length (R177): wait. -/
  | shortBody
  /-- The trailer bytes differ (R178). -/
  | badTrailer
  /-- The CRC differs (R179). -/
  | badCrc
  deriving DecidableEq, Repr

/-- Why a host reads no response at the front of the bytes it received. -/
inductive ResponseError where
  /-- The bytes fail a test of `checkFrame`. -/
  | frame (e : DecodeError)
  /-- The type byte is none of Table E3 (R115). -/
  | unknownType
  deriving DecidableEq, Repr

/-- The number of bytes before the first `SIG0`, or all of them (R173). -/
def noiseRun (p : Prof) (bs : List Byte) : Nat :=
  match bs with
  | [] => 0
  | b :: rest => if b = p.sig0 then 0 else noiseRun p rest + 1

/-- The tests of R183 in their order, on the bytes from the scan position: code byte, payload and length of a valid
frame at the front, or the first test that fails. `cap` is the longest frame accepted, if there is a limit. -/
def checkFrame (p : Prof) (span : CrcFrom) (cap : Option Nat) (bs : List Byte) :
    Except DecodeError (Byte × List Byte × Nat) :=
  if bs = [] then .error .empty
  else if bs.getD 0 0#8 ≠ p.sig0 then .error (.noise (noiseRun p bs))
  else if bs.length < 4 then .error .shortHead
  else if bs.getD 1 0#8 ≠ p.sig1 then .error .badSignature
  else
    let len := frameLen (bs.getD 3 0#8).toNat
    if cap.any (fun c => decide (c < len)) then .error .tooLarge
    else if bs.length < len then .error .shortBody
    else
      let body := bs.take (len - 4)
      let tail := (bs.drop (len - 4)).take 4
      if tailTrlOk p tail = false then .error .badTrailer
      else if tailCrc p tail ≠ crc16 p (body.drop (crcOffset span)) then .error .badCrc
      else .ok (bs.getD 2 0#8, body.drop 4, len)

/-- The handler selection of R200: by the command byte alone, in the order of Table E2. -/
def requestOf (c : Cfg) (p : Prof) (cmd : Byte) (payload : List Byte) : Instr :=
  if cmd = p.cmdConnect then .connect payload
  else if cmd = p.cmdWriteBlock then .writeBlock payload
  else if cmd = p.cmdEof then .endOfFile payload
  else if cmd = p.cmdReadBlock then .readBlock payload
  else if cmd = p.cmdComplete then .complete payload
  else if cmd = p.cmdGetTransportId ∧ c.hasTransportId = true then .getTransportId payload
  else .unknown cmd payload

/-- KFE's decoder: the request frame at the front of the received bytes and its length in bytes. -/
def decode (c : Cfg) (p : Prof) (bs : List Byte) : Except DecodeError (Instr × Nat) :=
  match checkFrame p p.crcFromRx (some c.rxCap) bs with
  | .error e => .error e
  | .ok (cmd, payload, len) => .ok (requestOf c p cmd payload, len)

/-- The response with type byte `code` (Table E3): the word count has no part in a frame's kind (R131). NACK causes with
one code cannot be told apart (R123, I16): the first of NACK_LEN, NACK_TRAILER, NACK_CRC, NACK_CMD is read. KFE sends
NACK and COMMAND_ERROR with no payload (R123, R124); words after one are passed over (assumption log 20). -/
def responseOf (p : Prof) (code : Byte) (payload : List Byte) : Except ResponseError Instr :=
  if code = p.rspAck then .ok (.ack payload)
  else if code = p.rspNackLen then .ok .nackLen
  else if code = p.rspNackTrailer then .ok .nackTrailer
  else if code = p.rspNackCrc then .ok .nackCrc
  else if code = p.rspNackCmd then .ok .nackCmd
  else if code = p.rspCmdError then .ok .commandError
  else .error .unknownType

/-- A host's decoder of a response frame at the front of the bytes it received: the same predicate with `CRC_FROM_TX`
(R262) and no capacity limit (assumption log 20). -/
def decodeResponse (p : Prof) (bs : List Byte) : Except ResponseError (Instr × Nat) :=
  match checkFrame p p.crcFromTx none bs with
  | .error e => .error (.frame e)
  | .ok (code, payload, len) =>
    match responseOf p code payload with
    | .error e => .error e
    | .ok i => .ok (i, len)

/-! ## Encoding -/

/-- The command or response-type byte of an instruction (Tables E2, E3). -/
def codeByte (p : Prof) (i : Instr) : Byte :=
  match i with
  | .connect _ => p.cmdConnect
  | .writeBlock _ => p.cmdWriteBlock
  | .endOfFile _ => p.cmdEof
  | .readBlock _ => p.cmdReadBlock
  | .complete _ => p.cmdComplete
  | .getTransportId _ => p.cmdGetTransportId
  | .unknown cmd _ => cmd
  | .ack _ => p.rspAck
  | .nackLen => p.rspNackLen
  | .nackTrailer => p.rspNackTrailer
  | .nackCrc => p.rspNackCrc
  | .nackCmd => p.rspNackCmd
  | .commandError => p.rspCmdError

/-- `enc(x)` (R130): the frame of an instruction; the CRC span is the received one for a request and the transmitted one
for a response (R105). -/
def encode (p : Prof) (i : Instr) : List Byte :=
  buildFrame p (if i.isRequest then p.crcFromRx else p.crcFromTx) (codeByte p i) i.payload

/-! ## The opcode table's words -/

/-- The frame whose head is the table's 32-bit number `w`, `s[0]` its most significant byte (R131): the payload words
its word count asks for are zero, and the tail is the one that makes it a valid frame, as R131 requires of a row's byte
string (assumption log 13). -/
def tableFrame (p : Prof) (span : CrcFrom) (w : Nat) : List Byte :=
  let head : List Byte :=
    [BitVec.ofNat 8 (w / 2 ^ 24), BitVec.ofNat 8 (w / 2 ^ 16), BitVec.ofNat 8 (w / 2 ^ 8), BitVec.ofNat 8 w]
  let body := head ++ List.replicate (4 * (w % 256)) 0#8
  body ++ mkTail p (crc16 p (body.drop (crcOffset span)))

/-- The build that the table's words are read for: `Cfg.reference` with an `RX_CAP` that holds every frame, because
`ValidFrame` (R106), and so a row of the table (R131), knows no capacity (assumption log 13). -/
def Cfg.table : Cfg := { Cfg.reference with rxCap := frameLen 255 }

/-- The response row of the table's word `w`, read as a host reads it. -/
def tableResponse (w : Nat) : Option Instr :=
  match decodeResponse Prof.default (tableFrame Prof.default Prof.default.crcFromTx w) with
  | .error _ => none
  | .ok (i, _) => some i

/-- The instruction read from the table's word `w` under the default profile. Its kind is that of the rows' masks, the
signature and the command or type byte, whatever the word count (R131). UNKNOWN has the lowest priority: a word that is
no implemented request but is a response type's is that response's row (assumption log 13, 14). -/
def decodeTableWord (_nbits w : Nat) : Option Instr :=
  match decode Cfg.table Prof.default (tableFrame Prof.default Prof.default.crcFromRx w) with
  | .error _ => none
  | .ok (.unknown cmd payload, _) =>
    match tableResponse w with
    | some i => some i
    | none => some (.unknown cmd payload)
  | .ok (i, _) => some i

end Sys2Proof
end

