-- ==== Sys2Proof/Machine/Operands.lean ====
section
/-! DEFINITION. The operands of a request (spec/30_encoding.md R107 to R114) and the geometry of addresses
(spec/20_memory.md R62, R63). -/

namespace Sys2Proof.Machine

/-- The word count `n` of a payload (R107). -/
def wordCount (payload : List Byte) : Nat := payload.length / 4

/-- Payload word `P.w(i)` (R107). -/
def payloadWord (p : Prof) (payload : List Byte) (i : Nat) : Word :=
  unword p.wordEndian (payload.drop (4 * i))

/-- The block's data bytes, `P[4 .. 4+BLOCK_SIZE)`, in frame order (R71, R110). -/
def blockData (c : Cfg) (payload : List Byte) : List Byte := (payload.drop 4).take c.blockSize

/-- `PageOff(a)` (R62). -/
def pageOff (c : Cfg) (a : Word) : Nat := a.toNat % c.pageSize

/-- `PageBase(a)` (R62). -/
def pageBase (c : Cfg) (a : Word) : Word := BitVec.ofNat 32 (a.toNat - pageOff c a)

/-- `AddrOK(a)`, the sum taken in the naturals (R63, R83). -/
abbrev AddrOk (c : Cfg) (a : Word) : Prop :=
  c.appStart ≤ a.toNat ∧ a.toNat % c.blockSize = 0 ∧ a.toNat + c.blockSize ≤ c.flashEnd

/-- The block ends at the page boundary (R223). -/
abbrev AtPageEnd (c : Cfg) (a : Word) : Prop := pageOff c a + c.blockSize = c.pageSize

/-- A command byte as a payload word, `zext_32(cmd)` (R116). -/
def echoWord (cmd : Byte) : Word := 0#24 ++ cmd

/-- An address or size of the configuration as a payload word (R117). -/
def natWord (n : Nat) : Word := BitVec.ofNat 32 n

/-- The payload of CONNECT's acknowledgement (R117). -/
def connectAck (c : Cfg) (p : Prof) : List Byte :=
  wordsBytes p.wordEndian [echoWord p.cmdConnect, c.protoVersion, natWord c.appStart, natWord c.blockSize] ++ c.deviceId

/-- The payload of WRITE_BLOCK's acknowledgement (R118). -/
def writeBlockAck (p : Prof) (addr : Word) : List Byte :=
  wordsBytes p.wordEndian [echoWord p.cmdWriteBlock, addr]

/-- The payload of END_OF_FILE's acknowledgement (R119). -/
def eofAck (p : Prof) (wc : Word) : List Byte :=
  wordsBytes p.wordEndian [echoWord p.cmdEof, wc]

/-- The payload of READ_BLOCK's acknowledgement (R120). -/
def readBlockAck (p : Prof) (addr : Word) (data : List Byte) : List Byte :=
  wordsBytes p.wordEndian [echoWord p.cmdReadBlock, addr] ++ data

/-- The payload of COMPLETE's acknowledgement (R121). -/
def completeAck (p : Prof) : List Byte := wordsBytes p.wordEndian [echoWord p.cmdComplete]

/-- The payload of GET_TRANSPORT_ID's acknowledgement (R122). -/
def transportIdAck (c : Cfg) (p : Prof) : List Byte :=
  wordsBytes p.wordEndian [echoWord p.cmdGetTransportId] ++ c.transportId

end Sys2Proof.Machine
end

