-- ==== Sys2Proof/Machine/Ops.lean ====
section
/-! DEFINITION. The shared operations: the response encoder (spec/44_response_encoder.md), the error events
(spec/60_exceptions.md Table X2), the flash port (spec/20_memory.md R65 to R68), the staging page and the flush
(spec/43_flash_fsm.md R222, R230, R236), the receive buffer (spec/41_reframer.md R171, R172, R182), and the steps of the
other agents (R266, R292, R293, R350). -/

namespace Sys2Proof.Machine

open Host (Outcome)

/-! ## Responses -/

/-- `tx.send(f)` (R265): the whole frame is queued, or it is dropped and recorded in `DROPLOG`. -/
def txSend (f : List Byte) (s : State) : State :=
  if s.txq.length + f.length ≤ s.cfg.txCap then { s with txq := s.txq ++ f }
  else { s with trace := { s.trace with dropLog := s.trace.dropLog ++ [f] } }

/-- `Emit(type, payload)` (R260). -/
def emit (code : Byte) (payload : List Byte) (s : State) : State :=
  txSend (buildFrame s.prof s.prof.crcFromTx code payload) s

/-! ## Error events: entry and return -/

/-- The error events of Table X2 (R310). -/
inductive ErrorEvent where
  | noise
  | sig
  | len
  | trailer
  | crc
  | unknownCmd
  | argCount
  | addr
  | flash
  | txFull
  | rxFull
  deriving DecidableEq, Repr

/-- The response type an event answers with, if any (Table X2). -/
def errorResponse (p : Prof) (e : ErrorEvent) : Option Byte :=
  match e with
  | .noise => none
  | .sig => none
  | .len => some p.rspNackLen
  | .trailer => some p.rspNackTrailer
  | .crc => some p.rspNackCrc
  | .unknownCmd => some p.rspCmdError
  | .argCount => some p.rspCmdError
  | .addr => some p.rspCmdError
  | .flash => some p.rspCmdError
  | .txFull => none
  | .rxFull => none

/-- `raise E_x` (R315): the entry of an error event is the emission of its response, with no payload. Nothing is saved
and nothing is recorded (R312). -/
def raiseEvent (e : ErrorEvent) (s : State) : State :=
  match errorResponse s.prof e with
  | none => s
  | some code => emit code [] s

/-- The return from an event, and the end of every advancing iteration (R23, R315): the scan position moves on by `k`. -/
def advance (k : Nat) (s : State) : State := { s with rb := { s.rb with rp := s.rb.rp + k } }

/-! ## Flash port -/

/-- The next oracle answer: the next one listed, else a free value (R69; assumption log 9). -/
def nextDraw (s : State) : FlashDraw × State :=
  match s.env.draws with
  | d :: ds => (d, { s with env := { s.env with draws := ds } })
  | [] => (Config.freeDraw s.env.drawn, { s with env := { s.env with drawn := s.env.drawn + 1 } })

/-- Append an event to `FLASHLOG` (R37). -/
def logFlash (e : FlashEvent) (s : State) : State :=
  { s with trace := { s.trace with flashLog := s.trace.flashLog ++ [e] } }

/-- `n` bytes taken from a free byte string, short ones filled up with erased bytes, so that every content of a page is
some string's (assumption log 10). -/
def pageBytes (n : Nat) (bs : List Byte) : List Byte := (bs ++ List.replicate n erasedByte).take n

/-- `FlashIsErased(pa, n)` (R65). -/
def flashIsErased (pa : Word) (n : Nat) (s : State) : Bool × State :=
  ((Memory.readBytes s.flash pa.toNat n).all (fun b => b == erasedByte), logFlash (.isErased pa) s)

/-- `FlashRead(a, n)` with its event (R66). -/
def flashRead (a : Word) (n : Nat) (s : State) : List Byte × State :=
  (Memory.readBytes s.flash a.toNat n, logFlash (.read a) s)

/-- `FlashErase(pa)` (R67). -/
def flashErase (pa : Word) (s : State) : FlashStatus × State :=
  let (d, t) := nextDraw (logFlash (.erase pa) s)
  match d with
  | .ok =>
    (.ok, { t with flash := Memory.writeBytes t.flash pa.toNat (List.replicate t.cfg.pageSize erasedByte) })
  | .fail reported bytes =>
    (reported, { t with flash := Memory.writeBytes t.flash pa.toNat (pageBytes t.cfg.pageSize bytes) })

/-- `FlashProgram(pa, data)`: a successful program can only clear bits (R68). -/
def flashProgram (pa : Word) (data : List Byte) (s : State) : FlashStatus × State :=
  let (d, t) := nextDraw (logFlash (.program pa data) s)
  match d with
  | .ok =>
    let old := Memory.readBytes t.flash pa.toNat data.length
    (.ok, { t with flash := Memory.writeBytes t.flash pa.toNat (List.zipWith (fun a b => a &&& b) old data) })
  | .fail reported bytes =>
    (reported, { t with flash := Memory.writeBytes t.flash pa.toNat (pageBytes t.cfg.pageSize bytes) })

/-- The flash port operations of `es` once more, in their order: what a CORE step that was cut after them has done to
flash and to `FLASHLOG` (R353; assumption log 11). -/
def replayFlash (es : List FlashEvent) (s : State) : State :=
  match es with
  | [] => s
  | .isErased pa :: rest => replayFlash rest (flashIsErased pa s.cfg.pageSize s).2
  | .read pa :: rest => replayFlash rest (flashRead pa s.cfg.pageSize s).2
  | .erase pa :: rest => replayFlash rest (flashErase pa s).2
  | .program pa data :: rest => replayFlash rest (flashProgram pa data s).2

/-- Where a read exists (R66). -/
abbrev Readable (c : Cfg) (a : Word) (n : Nat) : Prop := c.flashBase ≤ a.toNat ∧ a.toNat + n ≤ c.flashEnd

/-- The precondition of a flush, where erase and program exist (R67, R68, R230). -/
abbrev Flushable (c : Cfg) (pa : Word) : Prop :=
  pa.toNat % c.pageSize = 0 ∧ c.appStart ≤ pa.toNat ∧ pa.toNat + c.pageSize ≤ c.flashEnd

/-! ## Staging page and flush -/

/-- Put `data` over `buf` at offset `off`, leaving every other byte (R222). -/
def overlay (buf : List Byte) (off : Nat) (data : List Byte) : List Byte :=
  buf.take off ++ data ++ buf.drop (off + data.length)

/-- The effect of an accepted WRITE_BLOCK before any flush (R221, R222). -/
def stageBlock (addr : Word) (data : List Byte) (s : State) : State :=
  setXs .receiving
    (setFs .accumulating
      { s with sp := { s.sp with buf := overlay s.sp.buf (pageOff s.cfg addr) data, pending := true,
                                 addr := pageBase s.cfg addr } })

/-- `SP.buf <- ERASED^PAGE_SIZE; SP.pending <- 0` (R237, R283, R287). -/
def clearStaging (s : State) : State :=
  { s with sp := { s.sp with buf := List.replicate s.cfg.pageSize erasedByte, pending := false } }

/-- What a flush returns (R230). -/
inductive FlushResult where
  | ok
  | skip
  | fail
  deriving DecidableEq, Repr

/-- The end of every flush: the staging page is cleared, and a flush that did not fail records its page (R28, R237). -/
def flushDone (r : FlushResult) (pa : Word) (s : State) : FlushResult × State :=
  let t := clearStaging s
  match r with
  | .fail => (.fail, t)
  | .ok => (.ok, { t with sp := { t.sp with lastValid := true, lastPage := pa } })
  | .skip => (.skip, { t with sp := { t.sp with lastValid := true, lastPage := pa } })

/-- Program, read back, compare and count (R230 from `FlashProgram` on, R234, R235). -/
def programAndVerify (pa : Word) (s : State) : FlushResult × State :=
  match flashProgram pa s.sp.buf s with
  | (.fail, t) => flushDone .fail pa t
  | (.ok, t) =>
    let (found, u) := flashRead pa s.cfg.pageSize (setFs .verifying t)
    if found = u.sp.buf then flushDone .ok pa { u with wc := u.wc + 1#32 }
    else flushDone .fail pa u

/-- The flush of a page that exists (R230, R231 to R234). -/
def flushPage (pa : Word) (s : State) : FlushResult × State :=
  match flashIsErased pa s.cfg.pageSize (setFs .flushing s) with
  | (true, t) => programAndVerify pa t
  | (false, t) =>
    let (found, u) := flashRead pa s.cfg.pageSize t
    if found = u.sp.buf then flushDone .skip pa u
    else
      match flashErase pa u with
      | (.fail, v) => flushDone .fail pa v
      | (.ok, v) => programAndVerify pa v

/-- `Flush(pa)` with its precondition (R230); none where the page does not exist (assumption log 18). -/
def flush (pa : Word) (s : State) : Option (FlushResult × State) :=
  if Flushable s.cfg pa then some (flushPage pa s) else none

/-- The caller's part of a failed flush (R236, `E_FLASH`). -/
def flushFailed (s : State) : State := raiseEvent .flash (setXs .idle (setFs .idle s))

/-- Flush the staging page to `SP.addr`; go on with `k` unless the flush failed (R221, R240). -/
def flushThen (k : State → State) (s : State) : Outcome State Fault Refusal :=
  match flush s.sp.addr s with
  | none => .fault .flashRange
  | some (.fail, t) => .next (flushFailed t)
  | some (.ok, t) => .next (k t)
  | some (.skip, t) => .next (k t)

/-! ## Receive buffer -/

/-- RX append (R171): bytes beyond the capacity are lost and counted in `RXDROP`. -/
def rxAppend (chunk : List Byte) (s : State) : State :=
  let free := s.cfg.rxCap - s.rb.fill
  { s with rb := { s.rb with buf := s.rb.buf ++ chunk.take free }
           trace := { s.trace with rxDrop := s.trace.rxDrop + (chunk.length - free) } }

/-- Compaction (R182); nothing changes when `RB.rp` is 0. -/
def compact (s : State) : State := { s with rb := { buf := s.rb.pending, rp := 0 } }

/-- `Waiting(RB)` (R172), on the unconsumed bytes. -/
abbrev Waiting (c : Cfg) (p : Prof) (pending : List Byte) : Prop :=
  pending = [] ∨
  (pending.getD 0 0#8 = p.sig0 ∧ pending.length < 4) ∨
  (pending.getD 0 0#8 = p.sig0 ∧ 4 ≤ pending.length ∧ pending.getD 1 0#8 = p.sig1 ∧
    frameLen (pending.getD 3 0#8).toNat ≤ c.rxCap ∧ pending.length < frameLen (pending.getD 3 0#8).toNat)

/-- A reframer iteration is enabled (R170, R172). -/
abbrev IterateEnabled (s : State) : Prop :=
  s.mode = .run ∧ ¬ (s.rb.rp = 0 ∧ Waiting s.cfg s.prof s.rb.pending)

/-! ## The other agents and the Jump step -/

/-- TX drain (R266). -/
def txDrain (k : Nat) (s : State) : State :=
  { s with txq := s.txq.drop k, trace := { s.trace with txLog := s.trace.txLog ++ s.txq.take k } }

/-- TX drain is enabled (R266). -/
abbrev DrainEnabled (k : Nat) (s : State) : Prop := s.mode = .run ∧ 1 ≤ k ∧ k ≤ s.txq.length

/-- TIMER tick (R292). -/
def timerTick (s : State) : State := { s with gt := s.gt - 1 }

/-- The tick is enabled (R292). -/
abbrev TickEnabled (s : State) : Prop := s.mode = .run ∧ s.xs = .complete ∧ 0 < s.gt

/-- Jump (R293). -/
def jumpStep (s : State) : State := { s with mode := .jumped, jumpApp := true }

/-- The Jump step is enabled (R293). -/
abbrev JumpEnabled (s : State) : Prop := s.mode = .run ∧ s.xs = .complete ∧ s.gt = 0

/-- Reset (R350, R351): every element of Table S1 but FLASH, by the sampled `enter_update_mode`. The parameters, the
traces (assumption log 17) and the inputs to come stay. -/
def resetMachine (enterUpdateMode : Bool) (s : State) : State :=
  { s with
    mode := if enterUpdateMode then .run else .jumped
    jumpApp := !enterUpdateMode
    rb := { buf := [], rp := 0 }
    sp := resetStaging s.cfg
    xs := .idle
    fs := .idle
    wc := 0#32
    gt := 0
    txq := [] }

end Sys2Proof.Machine
end

