-- ==== Sys2Proof/Machine/FlashFsm.lean ====
section
/-! DEFINITION. The commands of the flash program state machine (spec/43_flash_fsm.md): WRITE_BLOCK and END_OF_FILE. -/

namespace Sys2Proof.Machine

open Host (Outcome)

/-- The acknowledgement of an accepted WRITE_BLOCK (R224). -/
def ackWriteBlock (addr : Word) (s : State) : State :=
  emit s.prof.rspAck (writeBlockAck s.prof addr) (setFs .accumulating s)

/-- WRITE_BLOCK (R221 to R224). -/
def execWriteBlock (payload : List Byte) (s : State) : Outcome State Fault Refusal :=
  if wordCount payload ≠ 1 + s.cfg.blockWords then .next (raiseEvent .argCount s)
  else
    let addr := payloadWord s.prof payload 0
    if ¬ AddrOk s.cfg addr then .next (raiseEvent .addr s)
    else
      let t := stageBlock addr (blockData s.cfg payload) s
      if AtPageEnd s.cfg addr then flushThen (ackWriteBlock addr) t
      else .next (ackWriteBlock addr t)

/-- The end of an END_OF_FILE whose flush, if any, did not fail (R240): the count is read after the flush. -/
def ackEof (s : State) : State :=
  let t := setXs .eofPending (setFs .done s)
  emit t.prof.rspAck (eofAck t.prof t.wc) t

/-- END_OF_FILE (R240). -/
def execEndOfFile (payload : List Byte) (s : State) : Outcome State Fault Refusal :=
  if wordCount payload ≠ 0 then .next (raiseEvent .argCount s)
  else if s.sp.pending = true then flushThen ackEof s
  else .next (ackEof s)

end Sys2Proof.Machine
end

