-- ==== Sys2Proof/Machine/Responses.lean ====
section
/-! DEFINITION. The dispatcher's answer to an unknown command (spec/42_dispatcher.md R203) and the response frames as
operations of the encoder (spec/44_response_encoder.md R260 to R265; assumption log 14). The reframer runs NACK_LEN,
NACK_TRAILER and NACK_CRC for a rejected candidate (spec/41_reframer.md R176, R178, R179). -/

namespace Sys2Proof.Machine

open Host (Outcome)

/-- UNKNOWN (R203): word count and payload are not looked at. -/
def execUnknown (s : State) : Outcome State Fault Refusal := .next (raiseEvent .unknownCmd s)

/-- ACK (R116, R260). -/
def execAck (payload : List Byte) (s : State) : Outcome State Fault Refusal := .next (emit s.prof.rspAck payload s)

/-- NACK_LEN (R123, R176). -/
def execNackLen (s : State) : Outcome State Fault Refusal := .next (raiseEvent .len s)

/-- NACK_TRAILER (R123, R178). -/
def execNackTrailer (s : State) : Outcome State Fault Refusal := .next (raiseEvent .trailer s)

/-- NACK_CRC (R123, R179). -/
def execNackCrc (s : State) : Outcome State Fault Refusal := .next (raiseEvent .crc s)

/-- NACK_CMD: the encoder can build it, and no rule calls for it (R115, conflict C4; assumption log 15). -/
def execNackCmd (s : State) : Outcome State Fault Refusal := .next (emit s.prof.rspNackCmd [] s)

/-- COMMAND_ERROR (R124, R260). -/
def execCommandError (s : State) : Outcome State Fault Refusal := .next (emit s.prof.rspCmdError [] s)

end Sys2Proof.Machine
end

