-- ==== Sys2Proof/Machine/Transfer.lean ====
section
/-! DEFINITION. The transfer and completion controller's commands (spec/45_transfer_controller.md): CONNECT, READ_BLOCK,
COMPLETE, GET_TRANSPORT_ID. -/

namespace Sys2Proof.Machine

open Host (Outcome)

/-- CONNECT (R283, R284). -/
def execConnect (payload : List Byte) (s : State) : Outcome State Fault Refusal :=
  if wordCount payload ≠ 0 then .next (raiseEvent .argCount s)
  else
    let t := clearStaging s
    let u := setXs .receiving (setFs .idle { t with sp := { t.sp with lastValid := false }, wc := 0#32 })
    .next (emit u.prof.rspAck (connectAck u.cfg u.prof) u)

/-- READ_BLOCK (R285): `XS` is TRANSMITTING while the response is built, and then what it was. -/
def execReadBlock (payload : List Byte) (s : State) : Outcome State Fault Refusal :=
  if wordCount payload ≠ 1 then .next (raiseEvent .argCount s)
  else
    let addr := payloadWord s.prof payload 0
    if ¬ AddrOk s.cfg addr then .next (raiseEvent .addr s)
    else if ¬ Readable s.cfg addr s.cfg.blockSize then .fault .flashRange
    else
      let saved := s.xs
      let t := setXs .transmitting s
      let data := Memory.readBytes t.flash addr.toNat t.cfg.blockSize
      .next (setXs saved (emit t.prof.rspAck (readBlockAck t.prof addr data) t))

/-- COMPLETE (R287, R291). -/
def execComplete (payload : List Byte) (s : State) : Outcome State Fault Refusal :=
  if wordCount payload ≠ 0 then .next (raiseEvent .argCount s)
  else
    let t := { setFs .idle (clearStaging s) with xs := .complete, gt := s.cfg.graceTicks }
    .next (emit t.prof.rspAck (completeAck t.prof) t)

/-- GET_TRANSPORT_ID (R289); the decoder reads it only if `HAS_TRANSPORT_ID` (R114). -/
def execGetTransportId (payload : List Byte) (s : State) : Outcome State Fault Refusal :=
  if wordCount payload ≠ 0 then .next (raiseEvent .argCount s)
  else .next (emit s.prof.rspAck (transportIdAck s.cfg s.prof) s)

end Sys2Proof.Machine
end

