-- ==== Sys2Proof/Machine/Dispatch.lean ====
section
/-! DEFINITION. The meaning of each instruction, one arm per constructor (spec/42_dispatcher.md R200; the response rows
are operations of the encoder, assumption log 14). -/

namespace Sys2Proof.Machine

open Host (Outcome)

/-- One instruction's effect on the state. -/
def exec (i : Instr) (s : State) : Host.Outcome State Fault Refusal :=
  match i with
  | .connect payload => Sys2Proof.Machine.execConnect payload s
  | .writeBlock payload => Sys2Proof.Machine.execWriteBlock payload s
  | .endOfFile payload => Sys2Proof.Machine.execEndOfFile payload s
  | .readBlock payload => Sys2Proof.Machine.execReadBlock payload s
  | .complete payload => Sys2Proof.Machine.execComplete payload s
  | .getTransportId payload => Sys2Proof.Machine.execGetTransportId payload s
  | .unknown _ _ => Sys2Proof.Machine.execUnknown s
  | .ack payload => Sys2Proof.Machine.execAck payload s
  | .nackLen => Sys2Proof.Machine.execNackLen s
  | .nackTrailer => Sys2Proof.Machine.execNackTrailer s
  | .nackCrc => Sys2Proof.Machine.execNackCrc s
  | .nackCmd => Sys2Proof.Machine.execNackCmd s
  | .commandError => Sys2Proof.Machine.execCommandError s

end Sys2Proof.Machine
end

