-- ==== Sys2Proof/Machine/RunLoop.lean ====
section
/-! DEFINITION. The steps of the agents (spec/00_scope.md R14): the reframer iteration with its dispatch
(spec/41_reframer.md R183), the choice of the next step, and one step of the agent chosen. -/

namespace Sys2Proof.Machine

open Host (Outcome)

/-- Go on with `k` after a next state. -/
def thenNext (k : State → State) (o : Outcome State Fault Refusal) : Outcome State Fault Refusal :=
  match o with
  | .next s => .next (k s)
  | .fault r => .fault r
  | .refused r => .refused r

/-- One reframer iteration (R183). Where the bytes must wait (R174, R177) or are used up, it compacts (R182); a rejected
candidate is answered by its NACK and left by 2 bytes (R176, R178, R179); a valid frame is executed and left whole
(R180). -/
def iterate (s : State) : Outcome State Fault Refusal :=
  match decode s.cfg s.prof s.rb.pending with
  | .ok (i, len) => thenNext (advance len) (exec i s)
  | .error .empty => .next (compact s)
  | .error (.noise k) => .next (advance k (raiseEvent .noise s))
  | .error .shortHead => .next (compact s)
  | .error .badSignature => .next (advance 1 (raiseEvent .sig s))
  | .error .tooLarge => thenNext (advance 2) (exec .nackLen s)
  | .error .shortBody => .next (compact s)
  | .error .badTrailer => thenNext (advance 2) (exec .nackTrailer s)
  | .error .badCrc => thenNext (advance 2) (exec .nackCrc s)

/-- Which step comes next, and the state with that input taken. With no event listed it is the run loop's turn: an
iteration if one is enabled, else the Jump step; where both are, a free value decides (R293; assumption log 7, 8). -/
def nextEvent (s : State) : Event × State :=
  match s.env.events with
  | e :: es => (e, { s with env := { s.env with events := es } })
  | [] =>
    if JumpEnabled s then
      if IterateEnabled s then
        (if Config.freeJumpFirst s.env.drawn then .jump else .iterate,
          { s with env := { s.env with drawn := s.env.drawn + 1 } })
      else (.jump, s)
    else (.iterate, s)

/-- `s` with the oracle answers of a step that will be cut. -/
def withAnswers (answers : List FlashDraw) (s : State) : State :=
  { s with env := { s.env with draws := answers } }

/-- The flash port events that the step from `s` to `t` issued (R37). -/
def eventsIssued (s t : State) : List FlashEvent := t.trace.flashLog.drop s.trace.flashLog.length

/-- The CORE iteration that a power loss cuts (R353): of the iteration with the given answers, only the first `issued`
flash port events have happened, and the response has not. The answers listed for later steps stay (assumption log 11). -/
def cutIteration (answers : List FlashDraw) (issued : Nat) (s : State) : Outcome State Fault Refusal :=
  if IterateEnabled s then
    thenNext
      (fun t =>
        let cut := replayFlash ((eventsIssued s t).take issued) (withAnswers answers s)
        { cut with env := { cut.env with draws := s.env.draws } })
      (iterate (withAnswers answers s))
  else .next s

/-- One step of the agent that the event names. A step that is not enabled changes nothing (R20, R172, R266, R292,
R293; assumption log 19). -/
def agentStep (e : Event) (s : State) : Outcome State Fault Refusal :=
  match e with
  | .rx chunk => .next (if s.mode = .run then rxAppend chunk s else s)
  | .tx k => .next (if DrainEnabled k s then txDrain k s else s)
  | .tick => .next (if TickEnabled s then timerTick s else s)
  | .iterate => if IterateEnabled s then iterate s else .next s
  | .jump => .next (if JumpEnabled s then jumpStep s else s)
  | .reset enter => .next (resetMachine enter s)
  | .powerLoss answers issued enter => thenNext (resetMachine enter) (cutIteration answers issued s)

/-- Put a frame where the next iteration looks for it: alone at the front of the receive buffer, with the mode and the
next event that let CORE run it, and with an `RX_CAP` that the frame fits in (assumption log 12). -/
def placeFrame (frame : List Byte) (s : State) : State :=
  { s with
    cfg := { s.cfg with rxCap := max s.cfg.rxCap frame.length }
    mode := .run
    jumpApp := false
    rb := { buf := frame, rp := 0 }
    env := { s.env with events := .iterate :: s.env.events } }

end Sys2Proof.Machine
end

