-- ==== Sys2Proof/Machine/Step.lean ====
section
/-! DEFINITION. One step of the machine, and the placing of an opcode-table word where the next step runs it. -/

namespace Sys2Proof.Machine

open Host (Outcome)

/-- One step of one agent (spec/00_scope.md R14). A configuration or profile that breaks a constraint is not a KFE
(R8, R9, I8). -/
def step (s : State) : Host.Outcome State Fault Refusal :=
  if s.cfg.Ok ∧ s.prof.Ok then agentStep (nextEvent s).1 (nextEvent s).2
  else .refused .notAKfe

/-- `s` with the frame of the table's word `w` as the next one the reframer examines, and CORE's iteration as the next
step (assumption log 12, 13). -/
def State.withFetchWord (s : State) (_nbits w : Nat) : State :=
  placeFrame (tableFrame s.prof s.prof.crcFromRx w) s

end Sys2Proof.Machine
end

