-- ==== Sys2Proof/Safety.lean ====
section
/-! DEFINITION. The terms that claims about KFE use: the invariant at step boundaries (spec/10_state.md R39), what it is to
answer with one response frame (spec/44_response_encoder.md R265), the page a command flushes, runs of CORE alone, and the
scan of a byte stream apart from any state (spec/41_reframer.md R185, R186). -/

namespace Sys2Proof.Machine

open Host (Outcome)

/-- The invariant of R39, with the constraints on the parameters (R8, R9), the ranges of R28 and R33, the output
`jump_app` (R54) and the canonical form of memory. -/
abbrev State.Inv (s : State) : Prop :=
  (s.cfg.Ok ∧ s.prof.Ok) ∧
  (s.rb.rp ≤ s.rb.fill ∧ s.rb.fill ≤ s.cfg.rxCap) ∧
  s.txq.length ≤ s.cfg.txCap ∧
  (s.fs = .idle ∨ s.fs = .accumulating ∨ s.fs = .done) ∧
  s.xs ≠ .transmitting ∧
  (s.sp.pending = true → s.fs = .accumulating ∧ Flushable s.cfg s.sp.addr) ∧
  (s.sp.pending = false → s.sp.buf = List.replicate s.cfg.pageSize erasedByte) ∧
  s.sp.buf.length = s.cfg.pageSize ∧
  (s.sp.lastValid = true → Flushable s.cfg s.sp.lastPage) ∧
  (s.gt ≤ s.cfg.graceTicks ∧ (0 < s.gt → s.xs = .complete)) ∧
  (s.mode = .jumped ↔ s.jumpApp = true) ∧
  Memory.wf s.flash = true

/-- `t` is `s` after one response frame was offered to the transport: queued whole, or dropped whole and recorded, and
nothing else (R265). -/
def Answered (frame : List Byte) (s t : State) : Prop :=
  if s.txq.length + frame.length ≤ s.cfg.txCap then t = { s with txq := s.txq ++ frame }
  else t = { s with trace := { s.trace with dropLog := s.trace.dropLog ++ [frame] } }

/-- The ACK frame with this payload (R116). -/
def ackFrame (p : Prof) (payload : List Byte) : List Byte := buildFrame p p.crcFromTx p.rspAck payload

/-- The COMMAND_ERROR frame (R124). -/
def errorFrame (p : Prof) : List Byte := buildFrame p p.crcFromTx p.rspCmdError []

/-- `XS` after `SetXS(v)` (R281). -/
def xsAfter (s : State) (v : TransferState) : TransferState := if s.xs = .complete then .complete else v

/-- The page that a command flushes, if any (R223, R240): WRITE_BLOCK of a block that ends its page, END_OF_FILE with a
page pending. -/
def flushTarget (i : Instr) (s : State) : Option Word :=
  match i with
  | .connect _ => none
  | .writeBlock payload =>
    let addr := payloadWord s.prof payload 0
    if wordCount payload = 1 + s.cfg.blockWords ∧ AddrOk s.cfg addr ∧ AtPageEnd s.cfg addr then
      some (pageBase s.cfg addr)
    else none
  | .endOfFile payload => if wordCount payload = 0 ∧ s.sp.pending = true then some s.sp.addr else none
  | .readBlock _ => none
  | .complete _ => none
  | .getTransportId _ => none
  | .unknown _ _ => none
  | .ack _ => none
  | .nackLen => none
  | .nackTrailer => none
  | .nackCrc => none
  | .nackCmd => none
  | .commandError => none

/-- The staging page that a command flushes: after a WRITE_BLOCK's copy (R222), as it is at END_OF_FILE (R240). -/
def stagedPage (i : Instr) (s : State) : List Byte :=
  match i with
  | .connect _ => s.sp.buf
  | .writeBlock payload =>
    overlay s.sp.buf (pageOff s.cfg (payloadWord s.prof payload 0)) (blockData s.cfg payload)
  | .endOfFile _ => s.sp.buf
  | .readBlock _ => s.sp.buf
  | .complete _ => s.sp.buf
  | .getTransportId _ => s.sp.buf
  | .unknown _ _ => s.sp.buf
  | .ack _ => s.sp.buf
  | .nackLen => s.sp.buf
  | .nackTrailer => s.sp.buf
  | .nackCrc => s.sp.buf
  | .nackCmd => s.sp.buf
  | .commandError => s.sp.buf

/-- The bytes of the page at `pa`. -/
def pageAt (s : State) (pa : Word) : List Byte := Memory.readBytes s.flash pa.toNat s.cfg.pageSize

/-- A page of erased bytes. -/
def erasedPage (c : Cfg) : List Byte := List.replicate c.pageSize erasedByte

/-- The flash events of a flush of `staged` to `pa` in which no operation fails (R230). -/
def flushEvents (s : State) (pa : Word) (staged : List Byte) : List FlashEvent :=
  if pageAt s pa = erasedPage s.cfg then [.isErased pa, .program pa staged, .read pa]
  else if pageAt s pa = staged then [.isErased pa, .read pa]
  else [.isErased pa, .read pa, .erase pa, .program pa staged, .read pa]

/-- The write counter after that flush: a page found correct is not counted (R232, R235). -/
def flushCount (s : State) (pa : Word) (staged : List Byte) : Word :=
  if pageAt s pa = erasedPage s.cfg then s.wc + 1#32
  else if pageAt s pa = staged then s.wc
  else s.wc + 1#32

/-- The staging page after a flush to `pa` that did not fail (R28, R237). -/
def flushedStaging (s : State) (pa : Word) : StagingPage :=
  { buf := erasedPage s.cfg, pending := false, addr := pa, lastValid := true, lastPage := pa }

/-- A program of `staged` into the page at `pa` goes wrong: it reports FAIL (R233), or the page read back differs from
the staged page (R234). -/
abbrev ProgramFails (pa : Word) (staged : List Byte) (s : State) : Prop :=
  (flashProgram pa staged s).1 = .fail ∨ pageAt (flashProgram pa staged s).2 pa ≠ staged

/-- A flush of `staged` to `pa` goes wrong: the page was erased and its program fails; or it held other data, and the
erase reports FAIL or the program after it fails. A page that holds the data is left alone (R230 to R234). -/
abbrev FlushFails (pa : Word) (staged : List Byte) (s : State) : Prop :=
  if pageAt s pa = erasedPage s.cfg then ProgramFails pa staged s
  else pageAt s pa ≠ staged ∧ ((flashErase pa s).1 = .fail ∨ ProgramFails pa staged (flashErase pa s).2)

/-- The payload of the acknowledgement of a command that flushed, with the count `wc` after the flush (R224, R240); the
other instructions flush nothing. -/
def flushAck (i : Instr) (s : State) (wc : Word) : List Byte :=
  match i with
  | .connect _ => []
  | .writeBlock payload => writeBlockAck s.prof (payloadWord s.prof payload 0)
  | .endOfFile _ => eofAck s.prof wc
  | .readBlock _ => []
  | .complete _ => []
  | .getTransportId _ => []
  | .unknown _ _ => []
  | .ack _ => []
  | .nackLen => []
  | .nackTrailer => []
  | .nackCrc => []
  | .nackCmd => []
  | .commandError => []

/-- Address `a` lies outside the page at `pa`. -/
abbrev OutsidePage (c : Cfg) (pa : Word) (a : Nat) : Prop := a < pa.toNat ∨ pa.toNat + c.pageSize ≤ a

/-- Whether the next step is a reset or a power loss. -/
def resetsNext (s : State) : Bool :=
  match (nextEvent s).1 with
  | .rx _ => false
  | .tx _ => false
  | .tick => false
  | .iterate => false
  | .jump => false
  | .reset _ => true
  | .powerLoss _ _ _ => true

/-- At most `n` reframer iterations of CORE, one after the other, stopping where none is enabled. -/
def runCore (n : Nat) (s : State) : Outcome State Fault Refusal :=
  match n with
  | 0 => .next s
  | n + 1 =>
    if IterateEnabled s then
      match iterate s with
      | .next t => runCore n t
      | .fault r => .fault r
      | .refused r => .refused r
    else .next s

/-- The instructions one after the other, stopping at the first that stops. -/
def runExec (is : List Instr) (s : State) : Outcome State Fault Refusal :=
  match is with
  | [] => .next s
  | i :: rest =>
    match exec i s with
    | .next t => runExec rest t
    | .fault r => .fault r
    | .refused r => .refused r

/-- The scan of a byte stream by the rules of R183, apart from any state: the instructions that CORE runs, in order (a
rejected candidate counts as the NACK that answers it), and the bytes that wait for more. Each round uses at least one
byte, so `fuel` beyond the length of the stream changes nothing. -/
def scanFuel (c : Cfg) (p : Prof) (fuel : Nat) (bs : List Byte) : List Instr × List Byte :=
  match fuel with
  | 0 => ([], bs)
  | fuel + 1 =>
    match decode c p bs with
    | .ok (i, len) => (i :: (scanFuel c p fuel (bs.drop len)).1, (scanFuel c p fuel (bs.drop len)).2)
    | .error (.noise k) => scanFuel c p fuel (bs.drop k)
    | .error .badSignature => scanFuel c p fuel (bs.drop 1)
    | .error .tooLarge => (.nackLen :: (scanFuel c p fuel (bs.drop 2)).1, (scanFuel c p fuel (bs.drop 2)).2)
    | .error .badTrailer => (.nackTrailer :: (scanFuel c p fuel (bs.drop 2)).1, (scanFuel c p fuel (bs.drop 2)).2)
    | .error .badCrc => (.nackCrc :: (scanFuel c p fuel (bs.drop 2)).1, (scanFuel c p fuel (bs.drop 2)).2)
    | .error .empty => ([], bs)
    | .error .shortHead => ([], bs)
    | .error .shortBody => ([], bs)

/-- The scan of a whole stream. -/
def scanStream (c : Cfg) (p : Prof) (bs : List Byte) : List Instr × List Byte := scanFuel c p (bs.length + 1) bs

/-- `ValidFrame(s)` (R106), with the CRC span of the receiving side (R262). -/
abbrev ValidFrame (p : Prof) (span : CrcFrom) (s : List Byte) : Prop :=
  8 ≤ s.length ∧ s.getD 0 0#8 = p.sig0 ∧ s.getD 1 0#8 = p.sig1 ∧ s.length = frameLen (s.getD 3 0#8).toNat ∧
  tailTrlOk p (s.drop (s.length - 4)) = true ∧
  tailCrc p (s.drop (s.length - 4)) = crc16 p ((s.take (s.length - 4)).drop (crcOffset span))

/-- The WRITE_BLOCK request of block `k` of the page at `pa` whose bytes are `data` (R110). -/
def pageBlock (c : Cfg) (p : Prof) (pa : Word) (data : List Byte) (k : Nat) : Instr :=
  .writeBlock (wordBytes p.wordEndian (natWord (pa.toNat + k * c.blockSize)) ++
    (data.drop (k * c.blockSize)).take c.blockSize)

/-- The first `n` blocks of that page, in ascending address order (R241). -/
def pageBlocks (c : Cfg) (p : Prof) (pa : Word) (data : List Byte) (n : Nat) : List Instr :=
  (List.range n).map (pageBlock c p pa data)

/-- No signature starts at a position of `noise` in `noise ++ rest` (R186). -/
abbrev NoSignatureIn (p : Prof) (noise rest : List Byte) : Prop :=
  ∀ k, k < noise.length → (noise ++ rest)[k]? = some p.sig0 → (noise ++ rest)[k + 1]? ≠ some p.sig1

end Sys2Proof.Machine
end

