-- ==== Sys2Proof/Certificates/Slice0/Obligations.lean ====
section
/-! DEFINITION. The statements for the provers, from the numbered rules of spec/. Tier 1: a sanity property; tier 2: all
states or operands; tier 3: a headline result. -/

section KfeStatements

open Sys2Proof Sys2Proof.Machine
open Host (Outcome)

/-! ## Words, CRC and frames -/

/-- R12: `word`, its inverse `unword`, `words` and `pad4`. -/
def Obligations.WordPacking : Prop :=
  (∀ v : Word, wordBytes .le v = [v.extractLsb' 0 8, v.extractLsb' 8 8, v.extractLsb' 16 8, v.extractLsb' 24 8] ∧
    wordBytes .be v = (wordBytes .le v).reverse) ∧
  (∀ e v, unword e (wordBytes e v) = v) ∧
  (∀ e (b : List Byte), b.length = 4 → wordBytes e (unword e b) = b) ∧
  (∀ e v vs, wordsBytes e [] = [] ∧ wordsBytes e (v :: vs) = wordBytes e v ++ wordsBytes e vs) ∧
  (∀ s : List Byte, (pad4 s).take s.length = s ∧ (∀ b ∈ (pad4 s).drop s.length, b = 0#8) ∧
    (pad4 s).length % 4 = 0 ∧ (pad4 s).length < s.length + 4)

/-- R152: the check values of the five parameter sets, on the string "123456789". -/
def Obligations.CrcCheckValues : Prop :=
  let check : List Byte := [0x31#8, 0x32#8, 0x33#8, 0x34#8, 0x35#8, 0x36#8, 0x37#8, 0x38#8, 0x39#8]
  let set := fun (init : Half) (refIn refOut : Bool) (xorOut : Half) =>
    { Prof.default with crcInit := init, crcRefIn := refIn, crcRefOut := refOut, crcXorOut := xorOut }
  crc16 (set 0xFFFF#16 true true 0x0000#16) check = 0x6F91#16 ∧
  crc16 (set 0xFFFF#16 false false 0x0000#16) check = 0x29B1#16 ∧
  crc16 (set 0x0000#16 false false 0x0000#16) check = 0x31C3#16 ∧
  crc16 (set 0x0000#16 true true 0x0000#16) check = 0x2189#16 ∧
  crc16 (set 0xFFFF#16 true true 0xFFFF#16) check = 0x906E#16

/-- R151: with the default parameters `Crc16` equals its least-significant-bit-first form and its byte-at-a-time form. -/
def Obligations.CrcFormsAgree : Prop :=
  (Prof.default.crcInit = 0xFFFF#16 ∧ Prof.default.crcRefIn = true ∧ Prof.default.crcRefOut = true ∧
    Prof.default.crcXorOut = 0x0000#16) ∧
  (∀ (p : Prof) (s : List Byte), p.crcInit = 0xFFFF#16 → p.crcRefIn = true → p.crcRefOut = true →
    p.crcXorOut = 0x0000#16 → crc16 p s = crcLsb 0xFFFF#16 s ∧ crc16 p s = crcFast 0xFFFF#16 s) ∧
  crc16 Prof.default [0x01#8, 0x88#8, 0x11#8, 0x00#8] = 0x59FD#16 ∧
  mkTail Prof.default 0x59FD#16 = [0xFD#8, 0x59#8, 0x99#8, 0x03#8]

/-- R154: two strings that differ in one byte (so in one bit) have different CRCs, for every parameter set. -/
def Obligations.CrcDetectsOneByte : Prop :=
  ∀ (p : Prof) (before after : List Byte) (x y : Byte),
    x ≠ y → crc16 p (before ++ x :: after) ≠ crc16 p (before ++ y :: after)

/-- A valid request frame with one byte changed is rejected for what that byte breaks, whatever follows: for its CRC where
it is the command byte, a payload byte or a CRC byte (R154, R179), for its trailer (R178), for its signature (R173, R175).
The word count is left out: changing it moves the tail. -/
def Obligations.CorruptedByteRejected : Prop :=
  ∀ (c : Cfg) (p : Prof) (i : Instr) (k : Nat) (old new : Byte) (rest : List Byte),
    p.Ok → PayloadOk i.payload → i.isRequest = true → (encode p i).length ≤ c.rxCap →
    (encode p i)[k]? = some old → new ≠ old →
    let read := decode c p ((encode p i).set k new ++ rest)
    let tail := 4 + i.payload.length
    (k = 0 → ∃ n, 0 < n ∧ read = .error (.noise n)) ∧
    (k = 1 → read = .error .badSignature) ∧
    (k = tail + p.tailPos.trl0.val ∨ k = tail + p.tailPos.trl1.val → read = .error .badTrailer) ∧
    (k = 2 ∨ (4 ≤ k ∧ k < tail) ∨ k = tail + p.tailPos.crcHi.val ∨ k = tail + p.tailPos.crcLo.val →
      read = .error .badCrc)

/-- Decoding an encoded request gives it back, whatever follows it in the buffer (R100 to R114, R125, R130). -/
def Obligations.RequestRoundTrip : Prop :=
  ∀ (c : Cfg) (p : Prof) (i : Instr) (rest : List Byte),
    p.Ok → WellFormed c p i → i.isRequest = true → (encode p i).length ≤ c.rxCap →
    decode c p (encode p i ++ rest) = .ok (i, (encode p i).length)

/-- A host that decodes an encoded response gets a response with the same bytes, and the response itself where the NACK
codes differ (R115, R123, R262). -/
def Obligations.ResponseRoundTrip : Prop :=
  ∀ (p : Prof) (i : Instr) (rest : List Byte),
    p.Ok → PayloadOk i.payload → i.isRequest = false →
    (∃ j, decodeResponse p (encode p i ++ rest) = .ok (j, (encode p i).length) ∧ j.isRequest = false ∧
      encode p j = encode p i) ∧
    ([p.rspNackLen, p.rspNackTrailer, p.rspNackCrc, p.rspNackCmd].Nodup →
      decodeResponse p (encode p i ++ rest) = .ok (i, (encode p i).length))

/-- What the decoder accepts is a request of this build whose encoding is exactly the bytes it read (R100, R106, R129). -/
def Obligations.DecodedFrameIsItsEncoding : Prop :=
  ∀ (c : Cfg) (p : Prof) (bs : List Byte) (i : Instr) (len : Nat),
    p.Ok → decode c p bs = .ok (i, len) →
    WellFormed c p i ∧ i.isRequest = true ∧ bs.take len = encode p i ∧ len = frameLen (wordCount i.payload) ∧
    len ≤ c.rxCap ∧ len ≤ bs.length

/-- R100: the one frame format, its length and the offsets of its fields. -/
def Obligations.FrameLayout : Prop :=
  ∀ (p : Prof) (span : CrcFrom) (code : Byte) (payload : List Byte),
    PayloadOk payload →
    let s := buildFrame p span code payload
    let n := payload.length / 4
    s.length = frameLen n ∧ s.take 2 = [p.sig0, p.sig1] ∧ s[2]? = some code ∧
    (∃ wc, s[3]? = some wc ∧ wc.toNat = n) ∧ (s.drop 4).take (4 * n) = payload ∧
    s.drop (4 + 4 * n) = mkTail p (crc16 p ((s.take (4 + 4 * n)).drop (crcOffset span)))

/-- R104: the layout of the tail and the three functions on it. -/
def Obligations.TailLayout : Prop :=
  (∀ (p : Prof) (c : Half), p.Ok →
    let t := mkTail p c
    t.length = 4 ∧ t[p.tailPos.crcHi.val]? = some (c.extractLsb' 8 8) ∧
    t[p.tailPos.crcLo.val]? = some (c.extractLsb' 0 8) ∧ t[p.tailPos.trl0.val]? = some p.trl0 ∧
    t[p.tailPos.trl1.val]? = some p.trl1 ∧ tailCrc p t = c ∧ tailTrlOk p t = true) ∧
  (∀ (p : Prof) (t : List Byte),
    (tailCrc p t).toNat =
      (t.getD p.tailPos.crcHi.val 0#8).toNat * 256 + (t.getD p.tailPos.crcLo.val 0#8).toNat ∧
    (tailTrlOk p t = true ↔
      t.getD p.tailPos.trl0.val 0#8 = p.trl0 ∧ t.getD p.tailPos.trl1.val 0#8 = p.trl1)) ∧
  (∀ c : Half, mkTail Prof.default c = [c.extractLsb' 0 8, c.extractLsb' 8 8, 0x99#8, 0x03#8])

/-- Words written out from the spec's encodings decode to their instructions (R109 to R114, R125; vectors V15 to V25). -/
def Obligations.SpecWordsDecode : Prop :=
  decode Cfg.reference Prof.default [0x01#8, 0x88#8, 0x11#8, 0x00#8, 0xFD#8, 0x59#8, 0x99#8, 0x03#8] =
    .ok (.connect [], 8) ∧
  decode Cfg.reference Prof.default [0x01#8, 0x88#8, 0x13#8, 0x00#8, 0x4D#8, 0x6A#8, 0x99#8, 0x03#8] =
    .ok (.endOfFile [], 8) ∧
  decode Cfg.reference Prof.default
      [0x01#8, 0x88#8, 0x14#8, 0x01#8, 0x00#8, 0x20#8, 0x00#8, 0x00#8, 0xA1#8, 0xFF#8, 0x99#8, 0x03#8] =
    .ok (.readBlock [0x00#8, 0x20#8, 0x00#8, 0x00#8], 12) ∧
  decode Cfg.reference Prof.default [0x01#8, 0x88#8, 0x7F#8, 0x00#8, 0xB8#8, 0xA6#8, 0x99#8, 0x03#8] =
    .ok (.unknown 0x7F#8 [], 8)

/-- R106 and R107: the decoder accepts exactly the valid frames that fit the receive buffer, and reads the command byte,
the payload and its words from their places. -/
def Obligations.AcceptsExactlyValidFrames : Prop :=
  (∀ (c : Cfg) (p : Prof) (bs : List Byte) (i : Instr) (len : Nat),
    decode c p bs = .ok (i, len) ↔
      (len ≤ bs.length ∧ len ≤ c.rxCap ∧ ValidFrame p p.crcFromRx (bs.take len) ∧
        i = requestOf c p (bs.getD 2 0#8) ((bs.drop 4).take (4 * (bs.getD 3 0#8).toNat)))) ∧
  (∀ (c : Cfg) (p : Prof) (cmd : Byte) (payload : List Byte),
    (requestOf c p cmd payload).payload = payload ∧ codeByte p (requestOf c p cmd payload) = cmd) ∧
  (∀ (p : Prof) (payload : List Byte) (k : Nat),
    payloadWord p payload k = unword p.wordEndian ((payload.drop (4 * k)).take 4))

/-! ## Steps -/

/-- Where CORE's iteration is next and a frame decodes at the scan position, `step` runs that well-formed instruction and
then moves the scan position past the frame (R180). -/
def Obligations.StepRunsDecodedInstruction : Prop :=
  ∀ (s u : State) (i : Instr) (len : Nat),
    s.cfg.Ok → s.prof.Ok → s.mode = .run → nextEvent s = (.iterate, u) →
    decode s.cfg s.prof s.rb.pending = .ok (i, len) →
    WellFormed s.cfg s.prof i ∧ u = { s with env := u.env } ∧
    step s = thenNext (fun t => { t with rb := { t.rb with rp := t.rb.rp + len } }) (exec i u)

/-- Which agent moves: the event listed next; with none listed the run loop, an iteration or the Jump step, in either order
where both are enabled (R14, R293; the list is the model's choice, assumption log 7 and 8). A configuration that is not a
KFE is refused (R8; log 16). -/
def Obligations.StepTakesNextEvent : Prop :=
  (∀ s : State, ¬ (s.cfg.Ok ∧ s.prof.Ok) → step s = .refused .notAKfe) ∧
  (∀ (s : State) (e : Event) (es : List Event), s.cfg.Ok → s.prof.Ok → s.env.events = e :: es →
    step s = agentStep e { s with env := { s.env with events := es } }) ∧
  (∀ s : State, s.cfg.Ok → s.prof.Ok → s.env.events = [] →
    (¬ JumpEnabled s → step s = agentStep .iterate s) ∧
    (JumpEnabled s → ¬ IterateEnabled s → step s = agentStep .jump s) ∧
    (JumpEnabled s → IterateEnabled s → ∃ n,
      step s = agentStep .jump { s with env := { s.env with drawn := n } } ∨
      step s = agentStep .iterate { s with env := { s.env with drawn := n } }))

/-- R176: a frame declared longer than the receive buffer is answered NACK_LEN and left by 2 bytes. -/
def Obligations.OversizeFrameAnswered : Prop :=
  ∀ s : State, s.mode = .run →
    s.rb.pending.getD 0 0#8 = s.prof.sig0 → 4 ≤ s.rb.pending.length → s.rb.pending.getD 1 0#8 = s.prof.sig1 →
    s.cfg.rxCap < frameLen (s.rb.pending.getD 3 0#8).toNat →
    ∃ t, Answered (buildFrame s.prof s.prof.crcFromTx s.prof.rspNackLen []) s t ∧
      agentStep .iterate s = .next { t with rb := { s.rb with rp := s.rb.rp + 2 } }

/-- R178: a candidate with a wrong trailer is answered NACK_TRAILER and left by 2 bytes, whatever its CRC. -/
def Obligations.BadTrailerAnswered : Prop :=
  ∀ s : State, s.mode = .run →
    let b := s.rb.pending
    let len := frameLen (b.getD 3 0#8).toNat
    b.getD 0 0#8 = s.prof.sig0 → b.getD 1 0#8 = s.prof.sig1 → len ≤ s.cfg.rxCap → len ≤ b.length →
    tailTrlOk s.prof ((b.drop (len - 4)).take 4) = false →
    ∃ t, Answered (buildFrame s.prof s.prof.crcFromTx s.prof.rspNackTrailer []) s t ∧
      agentStep .iterate s = .next { t with rb := { s.rb with rp := s.rb.rp + 2 } }

/-- R179: a candidate with the right trailer and a wrong CRC is answered NACK_CRC and left by 2 bytes. -/
def Obligations.BadCrcAnswered : Prop :=
  ∀ s : State, s.mode = .run →
    let b := s.rb.pending
    let len := frameLen (b.getD 3 0#8).toNat
    b.getD 0 0#8 = s.prof.sig0 → b.getD 1 0#8 = s.prof.sig1 → len ≤ s.cfg.rxCap → len ≤ b.length →
    tailTrlOk s.prof ((b.drop (len - 4)).take 4) = true →
    tailCrc s.prof ((b.drop (len - 4)).take 4) ≠
      crc16 s.prof ((b.take (len - 4)).drop (crcOffset s.prof.crcFromRx)) →
    ∃ t, Answered (buildFrame s.prof s.prof.crcFromTx s.prof.rspNackCrc []) s t ∧
      agentStep .iterate s = .next { t with rb := { s.rb with rp := s.rb.rp + 2 } }

/-- R173 and R175: noise is passed over up to the next `SIG0` or the end, a candidate without `SIG1` by one byte; no
response, nothing else changes. -/
def Obligations.NoiseSkipped : Prop :=
  (∀ s : State, s.mode = .run → s.rb.pending ≠ [] → s.rb.pending.getD 0 0#8 ≠ s.prof.sig0 →
    ∃ k, (∀ j, j < k → s.rb.pending[j]? ≠ some s.prof.sig0) ∧ k ≤ s.rb.pending.length ∧
      (k = s.rb.pending.length ∨ s.rb.pending[k]? = some s.prof.sig0) ∧
      agentStep .iterate s = .next { s with rb := { s.rb with rp := s.rb.rp + k } }) ∧
  (∀ s : State, s.mode = .run → s.rb.pending.getD 0 0#8 = s.prof.sig0 → 4 ≤ s.rb.pending.length →
    s.rb.pending.getD 1 0#8 ≠ s.prof.sig1 →
    agentStep .iterate s = .next { s with rb := { s.rb with rp := s.rb.rp + 1 } })

/-- R182: where the reframer waits with a consumed prefix it compacts; the unconsumed bytes stay as they are. With no
prefix nothing happens (R172). -/
def Obligations.WaitingCompacts : Prop :=
  ∀ s : State, s.mode = .run → Waiting s.cfg s.prof s.rb.pending →
    (0 < s.rb.rp → ∃ t, agentStep .iterate s = .next t ∧ t = { s with rb := t.rb } ∧
      t.rb.buf = s.rb.pending ∧ t.rb.fill = s.rb.fill - s.rb.rp ∧ t.rb.rp = 0 ∧ t.rb.pending = s.rb.pending) ∧
    (s.rb.rp = 0 → agentStep .iterate s = .next s)

/-- R171: RX appends what fits, counts the rest, changes nothing else, and does nothing in mode JUMPED. -/
def Obligations.ReceiveAppends : Prop :=
  (∀ (s : State) (chunk : List Byte), s.mode = .run →
    let free := s.cfg.rxCap - s.rb.fill
    let k := min chunk.length free
    agentStep (.rx chunk) s = .next { s with
      rb := { buf := s.rb.buf ++ chunk.take k, rp := s.rb.rp }
      trace := { s.trace with rxDrop := s.trace.rxDrop + (chunk.length - k) } }) ∧
  (∀ (s : State) (chunk : List Byte), s.mode = .jumped → agentStep (.rx chunk) s = .next s) ∧
  (∀ s : State, agentStep (.rx []) s = .next s) ∧
  (∀ (s t : State) (first second : List Byte), agentStep (.rx first) s = .next t →
    agentStep (.rx second) t = agentStep (.rx (first ++ second)) s)

/-- R266: TX moves any number of bytes from the front of TXQ to TXLOG, when enabled. That nothing moves when it is not
enabled is, in mode JUMPED, the model's choice: the spec leaves the bytes left in TXQ open there (R20, N28, I3; assumption
log 19). -/
def Obligations.TransmitDrains : Prop :=
  ∀ (s : State) (k : Nat),
    (s.mode = .run → 0 < s.txq.length → 1 ≤ k → k ≤ s.txq.length →
      agentStep (.tx k) s = .next { s with
        txq := s.txq.drop k, trace := { s.trace with txLog := s.trace.txLog ++ s.txq.take k } }) ∧
    (¬ (s.mode = .run ∧ 1 ≤ k ∧ k ≤ s.txq.length) → agentStep (.tx k) s = .next s)

/-- R292: a tick counts the grace timer down, when enabled, and does nothing else. -/
def Obligations.GraceTimerTicks : Prop :=
  ∀ s : State,
    (s.mode = .run → s.xs = .complete → 0 < s.gt → agentStep .tick s = .next { s with gt := s.gt - 1 }) ∧
    (¬ (s.mode = .run ∧ s.xs = .complete ∧ 0 < s.gt) → agentStep .tick s = .next s)

/-- R293: the Jump step, when it is enabled, and that no step but reset or power loss changes anything after it (R20).
That TX takes no queued byte after the jump is the model's choice: the spec leaves those bytes open (R20, N28, I3; assumption
log 19), as is that a Jump event that is not enabled changes nothing (log 19). -/
def Obligations.JumpHandsOver : Prop :=
  ∀ s : State,
    (s.mode = .run → s.xs = .complete → s.gt = 0 →
      ∃ t, agentStep .jump s = .next t ∧ t = { s with mode := .jumped, jumpApp := true } ∧
        ∀ e, (∀ enter, e ≠ .reset enter) → (∀ answers issued enter, e ≠ .powerLoss answers issued enter) →
          agentStep e t = .next t) ∧
    (¬ (s.mode = .run ∧ s.xs = .complete ∧ s.gt = 0) → agentStep .jump s = .next s)

/-- R8, R9 and R20: no step changes the parameters, and only reset and the Jump step change the mode. -/
def Obligations.ModeChangesOnlyByResetOrJump : Prop :=
  ∀ (s t : State), step s = .next t →
    t.cfg = s.cfg ∧ t.prof = s.prof ∧
    (resetsNext s = false → t.mode = s.mode ∨
      ((nextEvent s).1 = .jump ∧ s.mode = .run ∧ s.xs = .complete ∧ s.gt = 0 ∧ t.mode = .jumped ∧ t.jumpApp = true))

/-- R350 and R351: the values reset leaves; flash stays. `SP.addr` and `SP.last_page` have no value and are not named. -/
def Obligations.ResetValues : Prop :=
  ∀ (s : State) (enter : Bool), ∃ t, agentStep (.reset enter) s = .next t ∧
    t.mode = (if enter then .run else .jumped) ∧ t.jumpApp = !enter ∧ t.rb.fill = 0 ∧ t.rb.rp = 0 ∧
    t.sp.buf = List.replicate s.cfg.pageSize 0xFF#8 ∧ t.sp.pending = false ∧ t.sp.lastValid = false ∧
    t.xs = .idle ∧ t.fs = .idle ∧ t.wc = 0#32 ∧ t.gt = 0 ∧ t.txq = [] ∧ t.flash = s.flash ∧
    t.cfg = s.cfg ∧ t.prof = s.prof

/-- R353: power lost inside a CORE iteration resets KFE; the flash events that the iteration had issued stay logged and no
others, nothing is dropped by the encoder, and flash differs at most in the page being flushed: an operation in flight
leaves any bytes there, and before the first erase or program flash is as it was. That the traces outlast the reset is the
model's choice: Table S1 and I7 leave it open (assumption log 17), and log 11 says how the power loss stands as one event. -/
def Obligations.PowerLossTearsOnePage : Prop :=
  ∀ (s : State) (answers : List FlashDraw) (issued : Nat) (enter : Bool), s.Inv →
    ∃ t, agentStep (.powerLoss answers issued enter) s = .next t ∧
      t = resetMachine enter { s with
        flash := t.flash
        trace := { s.trace with flashLog := t.trace.flashLog }
        env := { s.env with drawn := t.env.drawn } } ∧
      (∀ a, (∀ i len pa, IterateEnabled s → decode s.cfg s.prof s.rb.pending = .ok (i, len) →
          flushTarget i s = some pa → OutsidePage s.cfg pa a) →
        Memory.read t.flash a = Memory.read s.flash a) ∧
      (¬ IterateEnabled s → t.trace.flashLog = s.trace.flashLog) ∧
      (∀ u, IterateEnabled s → iterate (withAnswers answers s) = .next u →
        ∃ es, u.trace.flashLog = s.trace.flashLog ++ es ∧
          t.trace.flashLog = s.trace.flashLog ++ es.take issued ∧
          (es.length ≤ issued → t.flash = u.flash)) ∧
      (∀ i len pa, IterateEnabled s → decode s.cfg s.prof s.rb.pending = .ok (i, len) → flushTarget i s = some pa →
        let erased := pageAt s pa = erasedPage s.cfg
        let equal := pageAt s pa = stagedPage i s
        ((erased ∧ issued ≤ 1) ∨ (¬ erased ∧ issued ≤ 2) → t.flash = s.flash) ∧
        (∀ reported torn rest, torn.length = s.cfg.pageSize →
          (answers = .fail reported torn :: rest ∧ ((erased ∧ issued = 2) ∨ (¬ erased ∧ ¬ equal ∧ issued = 3))) ∨
            (answers = .ok :: .fail reported torn :: rest ∧ ¬ erased ∧ ¬ equal ∧ issued = 4) →
          pageAt t pa = torn))

/-- R184: every enabled iteration moves the scan position on or compacts and leaves none enabled, and CORE comes to rest in
at most one iteration per unconsumed byte and one more. -/
def Obligations.ForwardProgress : Prop :=
  (∀ s t : State, s.Inv → IterateEnabled s → iterate s = .next t →
    (s.rb.rp < t.rb.rp ∧ t.rb.buf = s.rb.buf) ∨
    (0 < s.rb.rp ∧ t.rb = { buf := s.rb.pending, rp := 0 } ∧ ¬ IterateEnabled t)) ∧
  (∀ s : State, s.Inv → ∃ t, runCore (s.rb.fill - s.rb.rp + 1) s = .next t ∧ ¬ IterateEnabled t)

/-- R77, R181 and R183: until it comes to rest, CORE does exactly what running the instructions found by the scan, in
stream order, does. -/
def Obligations.CoreRunsTheScan : Prop :=
  ∀ s : State, s.Inv → s.mode = .run →
    ∃ t, runExec (scanStream s.cfg s.prof s.rb.pending).1 s = .next t ∧
      runCore (s.rb.fill - s.rb.rp + 1) s =
        .next { t with rb := { buf := (scanStream s.cfg s.prof s.rb.pending).2, rp := 0 } }

/-- R185, for streams of any length: scanning two chunks one after the other finds what scanning them at once finds, and
leaves the same bytes. -/
def Obligations.ScanIsChunkInvariant : Prop :=
  ∀ (c : Cfg) (p : Prof) (first second : List Byte),
    let one := scanStream c p first
    let two := scanStream c p (one.2 ++ second)
    scanStream c p (first ++ second) = (one.1 ++ two.1, two.2)

/-- R185, for the machine: two chunks that fit, with CORE coming to rest between them or not, lead to the same state. -/
def Obligations.ChunkSizeInvariance : Prop :=
  ∀ (s : State) (first second : List Byte), s.Inv → s.mode = .run →
    s.rb.fill + first.length + second.length ≤ s.cfg.rxCap →
    ∃ t u, runCore (s.rb.pending.length + first.length + 1) (rxAppend first s) = .next t ∧
      runCore (t.rb.pending.length + second.length + 1) (rxAppend second t) = .next u ∧
      runCore (s.rb.pending.length + first.length + second.length + 1) (rxAppend (first ++ second) s) = .next u

/-- R186: between noise in which no signature starts, exactly the one frame is found; of the noise after it only an
incomplete candidate may stay. -/
def Obligations.NoiseRobustness : Prop :=
  ∀ (c : Cfg) (p : Prof) (i : Instr) (noise after : List Byte),
    p.Ok → WellFormed c p i → i.isRequest = true → (encode p i).length ≤ c.rxCap →
    NoSignatureIn p noise (encode p i) → NoSignatureIn p after [] →
    ∃ rest, scanStream c p (noise ++ encode p i ++ after) = ([i], rest) ∧ rest <:+ after ∧
      (rest = [] ∨ (rest.head? = some p.sig0 ∧ rest.length < 4))

/-! ## Responses and the flash port -/

/-- R265: the frame is queued whole if it fits, else dropped whole and recorded, and nothing else changes. -/
def Obligations.ResponseQueuedWholeOrDropped : Prop :=
  ∀ (s : State) (code : Byte) (payload : List Byte),
    let f := buildFrame s.prof s.prof.crcFromTx code payload
    (s.txq.length + f.length ≤ s.cfg.txCap → emit code payload s = { s with txq := s.txq ++ f }) ∧
    (s.cfg.txCap < s.txq.length + f.length →
      emit code payload s = { s with trace := { s.trace with dropLog := s.trace.dropLog ++ [f] } })

/-- R67: an erase that succeeds leaves the page erased, one that fails leaves any bytes and reports any status; nothing
outside the page changes. -/
def Obligations.FlashEraseEffect : Prop :=
  ∀ (s : State) (pa : Word) (d : FlashDraw) (ds : List FlashDraw),
    Memory.wf s.flash = true → Flushable s.cfg pa → s.env.draws = d :: ds →
    ∃ st t, flashErase pa s = (st, t) ∧
      t = { s with flash := t.flash, env := { s.env with draws := ds }
                   trace := { s.trace with flashLog := s.trace.flashLog ++ [.erase pa] } } ∧
      (∀ a, OutsidePage s.cfg pa a → Memory.read t.flash a = Memory.read s.flash a) ∧
      (d = .ok → st = .ok ∧ ∀ a, pa.toNat ≤ a → a < pa.toNat + s.cfg.pageSize → Memory.read t.flash a = 0xFF#8) ∧
      (∀ reported bytes, d = .fail reported bytes → bytes.length = s.cfg.pageSize →
        st = reported ∧ pageAt t pa = bytes)

/-- R68: a program that succeeds ANDs the data into the page, one that fails leaves any bytes and reports any status;
nothing outside the page changes. -/
def Obligations.FlashProgramEffect : Prop :=
  ∀ (s : State) (pa : Word) (data : List Byte) (d : FlashDraw) (ds : List FlashDraw),
    Memory.wf s.flash = true → Flushable s.cfg pa → data.length = s.cfg.pageSize → s.env.draws = d :: ds →
    ∃ st t, flashProgram pa data s = (st, t) ∧
      t = { s with flash := t.flash, env := { s.env with draws := ds }
                   trace := { s.trace with flashLog := s.trace.flashLog ++ [.program pa data] } } ∧
      (∀ a, OutsidePage s.cfg pa a → Memory.read t.flash a = Memory.read s.flash a) ∧
      (d = .ok → st = .ok ∧ ∀ k, k < s.cfg.pageSize →
        Memory.read t.flash (pa.toNat + k) = Memory.read s.flash (pa.toNat + k) &&& data.getD k 0#8) ∧
      (∀ reported bytes, d = .fail reported bytes → bytes.length = s.cfg.pageSize →
        st = reported ∧ pageAt t pa = bytes)

/-- R65 and R66: the erased check and the read see the bytes of flash and change nothing but the log. -/
def Obligations.FlashQueries : Prop :=
  ∀ (s : State) (a : Word) (n : Nat), s.cfg.flashBase ≤ a.toNat → a.toNat + n ≤ s.cfg.flashEnd →
    ((flashIsErased a n s).1 = true ↔ ∀ k, k < n → Memory.read s.flash (a.toNat + k) = 0xFF#8) ∧
    (flashIsErased a n s).2 =
      { s with trace := { s.trace with flashLog := s.trace.flashLog ++ [.isErased a] } } ∧
    (flashRead a n s).1.length = n ∧
    (∀ k, k < n → (flashRead a n s).1[k]? = some (Memory.read s.flash (a.toNat + k))) ∧
    (flashRead a n s).2 = { s with trace := { s.trace with flashLog := s.trace.flashLog ++ [.read a] } }

/-! ## The commands -/

/-- R283: CONNECT without payload completes in every state, clears the staging page and the count, and is acknowledged (R117). -/
def Obligations.ConnectStartsSession : Prop :=
  ∀ (s : State) (payload : List Byte), wordCount payload = 0 →
    ∃ t, exec (.connect payload) s = .next t ∧
      Answered
        (ackFrame s.prof
          (wordsBytes s.prof.wordEndian
            [echoWord s.prof.cmdConnect, s.cfg.protoVersion, natWord s.cfg.appStart, natWord s.cfg.blockSize] ++
            s.cfg.deviceId))
        { s with
          sp := { s.sp with buf := List.replicate s.cfg.pageSize 0xFF#8, pending := false, lastValid := false }
          wc := 0#32, fs := .idle, xs := xsAfter s .receiving } t

/-- R285: READ_BLOCK of a good address completes in every state of a valid build and answers with the bytes of flash (R120); it changes no
state. -/
def Obligations.ReadBlockReturnsFlash : Prop :=
  ∀ (s : State) (payload : List Byte), s.cfg.Ok → wordCount payload = 1 →
    let addr := payloadWord s.prof payload 0
    AddrOk s.cfg addr →
    ∃ data t, data.length = s.cfg.blockSize ∧
      (∀ k, k < s.cfg.blockSize → data[k]? = some (Memory.read s.flash (addr.toNat + k))) ∧
      exec (.readBlock payload) s = .next t ∧
      Answered
        (ackFrame s.prof (wordsBytes s.prof.wordEndian [echoWord s.prof.cmdReadBlock, addr] ++ data)) s t

/-- R287: COMPLETE without payload completes in every state: it discards the staging page, starts the grace timer and is acknowledged
(R121, R291). -/
def Obligations.CompleteStartsGraceDelay : Prop :=
  ∀ (s : State) (payload : List Byte), wordCount payload = 0 →
    ∃ t, exec (.complete payload) s = .next t ∧
      Answered (ackFrame s.prof (wordsBytes s.prof.wordEndian [echoWord s.prof.cmdComplete]))
        { s with
          sp := { s.sp with buf := List.replicate s.cfg.pageSize 0xFF#8, pending := false }
          fs := .idle, xs := .complete, gt := s.cfg.graceTicks } t

/-- R289: GET_TRANSPORT_ID without payload completes in every state, answers with the identifier (R122) and writes no state. -/
def Obligations.TransportIdReported : Prop :=
  ∀ (s : State) (payload : List Byte), wordCount payload = 0 →
    ∃ t, exec (.getTransportId payload) s = .next t ∧
      Answered
        (ackFrame s.prof (wordsBytes s.prof.wordEndian [echoWord s.prof.cmdGetTransportId] ++ s.cfg.transportId)) s t

/-- R203: an unknown command completes in every state: COMMAND_ERROR and nothing else, whatever its payload. -/
def Obligations.UnknownCommandRejected : Prop :=
  ∀ (s : State) (cmd : Byte) (payload : List Byte),
    ∃ t, exec (.unknown cmd payload) s = .next t ∧ Answered (errorFrame s.prof) s t

/-- ACK, NACK_LEN, NACK_TRAILER, NACK_CRC, NACK_CMD and COMMAND_ERROR complete in every state: the encoder offers their
frame and does nothing else (R115, R116, R123, R124, R260). That the meaning of a response row is this emission, and that
NACK_CMD, which no rule emits, has one, is the model's choice (assumption log 14 and 15). -/
def Obligations.ResponsesAreSent : Prop :=
  ∀ (i : Instr) (s : State), i.isRequest = false →
    ∃ t, exec i s = .next t ∧ Answered (encode s.prof i) s t

/-- R202: a wrong word count is answered COMMAND_ERROR with no other effect, for each of the six commands. -/
def Obligations.ArgumentCountChecked : Prop :=
  ∀ (s : State) (payload : List Byte),
    (wordCount payload ≠ 0 →
      (∃ t, exec (.connect payload) s = .next t ∧ Answered (errorFrame s.prof) s t) ∧
      (∃ t, exec (.endOfFile payload) s = .next t ∧ Answered (errorFrame s.prof) s t) ∧
      (∃ t, exec (.complete payload) s = .next t ∧ Answered (errorFrame s.prof) s t) ∧
      (∃ t, exec (.getTransportId payload) s = .next t ∧ Answered (errorFrame s.prof) s t)) ∧
    (wordCount payload ≠ 1 → ∃ t, exec (.readBlock payload) s = .next t ∧ Answered (errorFrame s.prof) s t) ∧
    (wordCount payload ≠ 1 + s.cfg.blockSize / 4 →
      ∃ t, exec (.writeBlock payload) s = .next t ∧ Answered (errorFrame s.prof) s t)

/-- R63: an address below `APP_START`, off a block boundary, or whose block ends beyond `FLASH_END`, is answered
COMMAND_ERROR with no other effect. -/
def Obligations.AddressChecked : Prop :=
  ∀ (s : State) (payload : List Byte),
    let a := (payloadWord s.prof payload 0).toNat
    ¬ (s.cfg.appStart ≤ a ∧ a % s.cfg.blockSize = 0 ∧ a + s.cfg.blockSize ≤ s.cfg.flashEnd) →
    (wordCount payload = 1 + s.cfg.blockSize / 4 →
      ∃ t, exec (.writeBlock payload) s = .next t ∧ Answered (errorFrame s.prof) s t) ∧
    (wordCount payload = 1 →
      ∃ t, exec (.readBlock payload) s = .next t ∧ Answered (errorFrame s.prof) s t)

/-- R222: a block that does not end its page completes: it is copied to its offset of the staging page, every other byte
of the staging page stays, nothing is flushed, and it is acknowledged (R118, R221). -/
def Obligations.BlockStaged : Prop :=
  ∀ (s : State) (payload : List Byte), s.Inv → PayloadOk payload → wordCount payload = 1 + s.cfg.blockWords →
    let addr := payloadWord s.prof payload 0
    let off := addr.toNat % s.cfg.pageSize
    AddrOk s.cfg addr → off + s.cfg.blockSize ≠ s.cfg.pageSize →
    ∃ buf t, buf.length = s.cfg.pageSize ∧
      (∀ k, k < s.cfg.pageSize →
        buf[k]? = if off ≤ k ∧ k < off + s.cfg.blockSize then payload[4 + (k - off)]? else s.sp.buf[k]?) ∧
      exec (.writeBlock payload) s = .next t ∧
      Answered (ackFrame s.prof (wordsBytes s.prof.wordEndian [echoWord s.prof.cmdWriteBlock, addr]))
        { s with
          sp := { s.sp with buf := buf, pending := true, addr := natWord (addr.toNat - off) }
          fs := .accumulating, xs := xsAfter s .receiving } t

/-- A block that ends its page, with no flash fault, completes: flash then holds the staged page there and is otherwise
as it was, the staging page is cleared, and the block is acknowledged after the flush (R221, R223, R224, R230). -/
def Obligations.LastBlockWritesPage : Prop :=
  ∀ (s : State) (payload : List Byte) (ds : List FlashDraw), s.Inv → PayloadOk payload →
    wordCount payload = 1 + s.cfg.blockWords → s.env.draws = .ok :: .ok :: ds →
    let i := Instr.writeBlock payload
    let addr := payloadWord s.prof payload 0
    let pa := pageBase s.cfg addr
    AddrOk s.cfg addr → AtPageEnd s.cfg addr →
    ∃ u t, exec i s = .next t ∧
      Answered (ackFrame s.prof (wordsBytes s.prof.wordEndian [echoWord s.prof.cmdWriteBlock, addr])) u t ∧
      u = { s with
        sp := flushedStaging s pa, fs := .accumulating, xs := xsAfter s .receiving
        wc := flushCount s pa (stagedPage i s), flash := u.flash, env := u.env
        trace := { s.trace with flashLog := s.trace.flashLog ++ flushEvents s pa (stagedPage i s) } } ∧
      u.env.events = s.env.events ∧
      pageAt u pa = stagedPage i s ∧
      (∀ a, OutsidePage s.cfg pa a → Memory.read u.flash a = Memory.read s.flash a)

/-- END_OF_FILE completes with nothing pending, and with a page pending and no flash fault: then that page, padded as it
is, is in flash, and the acknowledgement carries the count after the flush (R119, R240). -/
def Obligations.EndOfFileReportsCount : Prop :=
  (∀ (s : State) (payload : List Byte), wordCount payload = 0 → s.sp.pending = false →
    ∃ t, exec (.endOfFile payload) s = .next t ∧
      Answered (ackFrame s.prof (wordsBytes s.prof.wordEndian [echoWord s.prof.cmdEof, s.wc]))
        { s with fs := .done, xs := xsAfter s .eofPending } t) ∧
  (∀ (s : State) (payload : List Byte) (ds : List FlashDraw), s.Inv → wordCount payload = 0 → s.sp.pending = true →
    s.env.draws = .ok :: .ok :: ds →
    let pa := s.sp.addr
    ∃ u t, exec (.endOfFile payload) s = .next t ∧
      Answered (ackFrame s.prof
        (wordsBytes s.prof.wordEndian [echoWord s.prof.cmdEof, flushCount s pa s.sp.buf])) u t ∧
      u = { s with
        sp := flushedStaging s pa, fs := .done, xs := xsAfter s .eofPending
        wc := flushCount s pa s.sp.buf, flash := u.flash, env := u.env
        trace := { s.trace with flashLog := s.trace.flashLog ++ flushEvents s pa s.sp.buf } } ∧
      u.env.events = s.env.events ∧
      pageAt u pa = s.sp.buf ∧
      (∀ a, OutsidePage s.cfg pa a → Memory.read u.flash a = Memory.read s.flash a))

/-- R233, R234 and R236: when the flush of a WRITE_BLOCK or an END_OF_FILE fails, the answer is COMMAND_ERROR, the machine
goes on with `FS` and `XS` idle (`COMPLETE` kept, R281) and the staging page cleared; the count and the last page stay. A
flush fails exactly where an erase or a program reports FAIL or the page read back differs (`FlushFails`); else the command
is acknowledged, and then the page holds the staged page, whatever the answers of flash (R224, R234, R240). -/
def Obligations.FlushFailureReported : Prop :=
  (∀ (s u : State) (payload : List Byte), s.Inv → PayloadOk payload →
    wordCount payload = 1 + s.cfg.blockWords →
    let addr := payloadWord s.prof payload 0
    AddrOk s.cfg addr → AtPageEnd s.cfg addr →
    flush (pageBase s.cfg addr) (stageBlock addr (blockData s.cfg payload) s) = some (.fail, u) →
    (∃ t, exec (.writeBlock payload) s = .next t ∧
      Answered (errorFrame s.prof) { u with fs := .idle, xs := xsAfter s .idle } t) ∧
    u.sp = { s.sp with buf := erasedPage s.cfg, pending := false, addr := pageBase s.cfg addr } ∧ u.wc = s.wc ∧
    (∀ a, OutsidePage s.cfg (pageBase s.cfg addr) a → Memory.read u.flash a = Memory.read s.flash a)) ∧
  (∀ (s u : State) (payload : List Byte), s.Inv → wordCount payload = 0 → s.sp.pending = true →
    flush s.sp.addr s = some (.fail, u) →
    (∃ t, exec (.endOfFile payload) s = .next t ∧
      Answered (errorFrame s.prof) { u with fs := .idle, xs := xsAfter s .idle } t) ∧
    u.sp = { s.sp with buf := erasedPage s.cfg, pending := false } ∧ u.wc = s.wc ∧
    (∀ a, OutsidePage s.cfg s.sp.addr a → Memory.read u.flash a = Memory.read s.flash a)) ∧
  (∀ (i : Instr) (s : State) (pa : Word), s.Inv → flushTarget i s = some pa →
    ∃ u t, exec i s = .next t ∧
      (FlushFails pa (stagedPage i s) s →
        Answered (errorFrame s.prof) u t ∧ u.fs = .idle ∧ u.xs = xsAfter s .idle ∧ u.wc = s.wc ∧
        u.sp = { s.sp with buf := erasedPage s.cfg, pending := false, addr := pa }) ∧
      (¬ FlushFails pa (stagedPage i s) s →
        Answered (ackFrame s.prof (flushAck i s u.wc)) u t ∧ pageAt t pa = stagedPage i s ∧
        u.wc = flushCount s pa (stagedPage i s) ∧ u.sp = flushedStaging s pa))

/-- R241: the blocks of one page in ascending order, from a fresh staging page and with no flash fault: no flash event
before the last block, exactly one flush with it, and the page then holds the data. -/
def Obligations.AscendingBlocksWriteOnePage : Prop :=
  ∀ (s : State) (pa : Word) (data : List Byte) (ds : List FlashDraw), s.Inv → s.sp.pending = false →
    Flushable s.cfg pa → data.length = s.cfg.pageSize → s.env.draws = .ok :: .ok :: ds →
    (∀ n, n < s.cfg.pageSize / s.cfg.blockSize →
      ∃ t, runExec (pageBlocks s.cfg s.prof pa data n) s = .next t ∧ t.flash = s.flash ∧
        t.trace.flashLog = s.trace.flashLog ∧ t.wc = s.wc) ∧
    (∃ t, runExec (pageBlocks s.cfg s.prof pa data (s.cfg.pageSize / s.cfg.blockSize)) s = .next t ∧
      pageAt t pa = data ∧ t.trace.flashLog = s.trace.flashLog ++ flushEvents s pa data ∧
      t.wc = flushCount s pa data ∧ t.sp.pending = false ∧
      (∀ a, OutsidePage s.cfg pa a → Memory.read t.flash a = Memory.read s.flash a))

/-- The frame of every instruction: what none of them changes, which of them change the timer, the session state, the
staging page, the flash state, the count, and where flash may change (`flushTarget` names the page; R77, R207, R316). -/
def Obligations.InstructionFrame : Prop :=
  ∀ (i : Instr) (s t : State), s.cfg.Ok → s.sp.buf.length = s.cfg.pageSize → exec i s = .next t →
    t.cfg = s.cfg ∧ t.prof = s.prof ∧ t.mode = s.mode ∧ t.jumpApp = s.jumpApp ∧ t.rb = s.rb ∧
    t.env.events = s.env.events ∧ t.trace.txLog = s.trace.txLog ∧ t.trace.rxDrop = s.trace.rxDrop ∧
    ((∀ payload, i ≠ .complete payload) → t.gt = s.gt) ∧
    ((∀ payload, i ≠ .connect payload) → (∀ payload, i ≠ .writeBlock payload) →
      (∀ payload, i ≠ .endOfFile payload) → (∀ payload, i ≠ .complete payload) →
      t.sp = s.sp ∧ t.xs = s.xs ∧ t.fs = s.fs) ∧
    ((∀ payload, i ≠ .connect payload) → flushTarget i s = none → t.wc = s.wc) ∧
    (flushTarget i s = none →
      (∀ a, Memory.read t.flash a = Memory.read s.flash a) ∧ t.trace.flashLog = s.trace.flashLog ∧
      t.env.draws = s.env.draws ∧ t.env.drawn = s.env.drawn) ∧
    (∀ pa, flushTarget i s = some pa →
      ∀ a, OutsidePage s.cfg pa a → Memory.read t.flash a = Memory.read s.flash a)

/-- R201: every instruction offers exactly one response frame, queued or dropped whole; for a request it is an ACK or
COMMAND_ERROR. -/
def Obligations.OneResponsePerInstruction : Prop :=
  ∀ (i : Instr) (s t : State), exec i s = .next t →
    ∃ code payload,
      let f := buildFrame s.prof s.prof.crcFromTx code payload
      ((t.txq = s.txq ++ f ∧ t.trace.dropLog = s.trace.dropLog) ∨
        (t.txq = s.txq ∧ t.trace.dropLog = s.trace.dropLog ++ [f])) ∧
      (i.isRequest = true → code = s.prof.rspAck ∨ (code = s.prof.rspCmdError ∧ payload = []))

/-- R235: the count goes up by one exactly when a flush programs its page and the verify finds the staged bytes; otherwise
it stays (CONNECT apart). -/
def Obligations.WriteCounterCountsPrograms : Prop :=
  ∀ (i : Instr) (s t : State), s.Inv → (∀ payload, i ≠ .connect payload) → exec i s = .next t →
    (t.wc = s.wc ∨ t.wc = s.wc + 1#32) ∧
    (t.wc = s.wc + 1#32 ↔
      ∃ pa es, flushTarget i s = some pa ∧
        t.trace.flashLog = s.trace.flashLog ++ es ++ [.program pa (stagedPage i s), .read pa] ∧
        pageAt t pa = stagedPage i s)

/-- R281: once `XS` is COMPLETE no command changes it, and no step but reset. -/
def Obligations.CompleteIsSticky : Prop :=
  (∀ (i : Instr) (s t : State), s.xs = .complete → exec i s = .next t → t.xs = .complete) ∧
  (∀ s t : State, s.xs = .complete → resetsNext s = false → step s = .next t → t.xs = .complete)

/-- R71 and R79: after WRITE_BLOCK and END_OF_FILE with no flash fault, READ_BLOCK of the address answers with the block's
bytes, in order, in either byte order of words. -/
def Obligations.WrittenBlockReadsBack : Prop :=
  ∀ (s : State) (addr : Word) (data : List Byte) (ds : List FlashDraw), s.Inv → AddrOk s.cfg addr →
    data.length = s.cfg.blockSize → s.env.draws = .ok :: .ok :: ds →
    ∃ t u, runExec [.writeBlock (wordBytes s.prof.wordEndian addr ++ data), .endOfFile []] s = .next t ∧
      exec (.readBlock (wordBytes s.prof.wordEndian addr)) t = .next u ∧
      Answered
        (ackFrame s.prof (wordsBytes s.prof.wordEndian [echoWord s.prof.cmdReadBlock, addr] ++ data)) t u

/-- R238: resending the block that completed a page: harmless where a page is one block; where it is more, the page loses
its earlier blocks unless they were all erased; resending the whole page in order changes nothing. -/
def Obligations.ResentPageBlock : Prop :=
  ∀ (s : State) (pa : Word) (data : List Byte) (ds : List FlashDraw), s.Inv → s.sp.pending = false →
    Flushable s.cfg pa → data.length = s.cfg.pageSize → pageAt s pa = data → data ≠ erasedPage s.cfg →
    s.env.draws = .ok :: .ok :: ds →
    let blocks := s.cfg.pageSize / s.cfg.blockSize
    let last := pageBlock s.cfg s.prof pa data (blocks - 1)
    let kept := s.cfg.pageSize - s.cfg.blockSize
    (s.cfg.pageSize = s.cfg.blockSize →
      ∃ t, exec last s = .next t ∧ t.flash = s.flash ∧ t.wc = s.wc) ∧
    (data.take kept ≠ List.replicate kept 0xFF#8 →
      ∃ t, exec last s = .next t ∧ pageAt t pa = List.replicate kept 0xFF#8 ++ data.drop kept ∧
        t.wc = s.wc + 1#32) ∧
    (∃ t, runExec (pageBlocks s.cfg s.prof pa data blocks) s = .next t ∧ t.flash = s.flash ∧ t.wc = s.wc)

/-! ## The whole machine -/

/-- R57: the status outputs; `st_flash` is 0 at every step boundary. -/
def Obligations.StatusOutputs : Prop :=
  ∀ s : State,
    (stTransfer s = true ↔ s.xs = .receiving) ∧ (stFlash s = true ↔ s.fs = .flushing ∨ s.fs = .verifying) ∧
    (s.Inv → stFlash s = false)

/-- The invariant of R39 holds right after reset (with the model's choices of assumption log 1 to 4 and 6). -/
def Obligations.ResetSatisfiesInvariant : Prop :=
  State.reset.Inv

/-- R39: every step keeps the invariant. -/
def Obligations.StepKeepsInvariant : Prop :=
  ∀ s t : State, s.Inv → step s = .next t → t.Inv

/-- R317: from every state that meets the invariant the machine goes on; no input stops it. -/
def Obligations.MachineNeverStops : Prop :=
  ∀ s : State, s.Inv → ∃ t, step s = .next t

/-- R64: no step changes a flash byte below `APP_START` or at or above `FLASH_END`, whatever is received, whatever fails
and whenever power is lost. -/
def Obligations.BootloaderProtected : Prop :=
  ∀ (s t : State) (a : Nat), s.Inv → step s = .next t → (a < s.cfg.appStart ∨ s.cfg.flashEnd ≤ a) →
    Memory.read t.flash a = Memory.read s.flash a

/-- R82: but for reset, what has left and what is queued only grows at its end, by one whole response frame at most. In mode
JUMPED, that nothing queued vanishes is the model's choice: the spec leaves the bytes left in TXQ open there (R20, N28, I3;
assumption log 19). -/
def Obligations.ResponsesLeaveInOrder : Prop :=
  ∀ s t : State, step s = .next t → resetsNext s = false →
    ∃ f, t.trace.txLog ++ t.txq = s.trace.txLog ++ s.txq ++ f ∧
      (f = [] ∨ ∃ code payload, f = buildFrame s.prof s.prof.crcFromTx code payload)

end KfeStatements
end

