-- ==== Sys2Proof/Laws/Decode.lean ====
section
/-! SUPPORT. What the decoder's tests say: the length of a built frame, each outcome of `checkFrame` as conditions on the
bytes, decisions that more bytes do not change, the decoder beside `Waiting` (spec/41_reframer.md R172, R183), and the kind of
each word of the opcode table (spec/30_encoding.md R131). -/

namespace Sys2Proof

/-! ## Lengths -/

@[simp] theorem wordBytes_length (e : Endian) (v : Word) : (wordBytes e v).length = 4 := by
  cases e <;> rfl

@[simp] theorem mkTail_length (p : Prof) (c : Half) : (mkTail p c).length = 4 := rfl

@[simp] theorem frameBody_length (p : Prof) (code : Byte) (payload : List Byte) :
    (frameBody p code payload).length = 4 + payload.length := by
  simp [frameBody]; omega

@[simp] theorem buildFrame_length (p : Prof) (span : CrcFrom) (code : Byte) (payload : List Byte) :
    (buildFrame p span code payload).length = 8 + payload.length := by
  simp [buildFrame]; omega

/-! ## The outcomes of `checkFrame` -/

/-- The conditions of a valid frame at the front of `bs` (R106, R180). -/
structure FrameAt (p : Prof) (span : CrcFrom) (cap : Option Nat) (bs : List Byte) (len : Nat) : Prop where
  sig0 : bs.getD 0 0#8 = p.sig0
  head : 4 ≤ bs.length
  sig1 : bs.getD 1 0#8 = p.sig1
  declared : len = frameLen (bs.getD 3 0#8).toNat
  fits : ∀ c, cap = some c → len ≤ c
  body : len ≤ bs.length
  trailer : tailTrlOk p ((bs.drop (len - 4)).take 4) = true
  crc : tailCrc p ((bs.drop (len - 4)).take 4) = crc16 p ((bs.take (len - 4)).drop (crcOffset span))

theorem cap_any_iff (cap : Option Nat) (len : Nat) :
    cap.any (fun c => decide (c < len)) = false ↔ ∀ c, cap = some c → len ≤ c := by
  cases cap <;> simp

theorem checkFrame_ok_iff (p : Prof) (span : CrcFrom) (cap : Option Nat) (bs : List Byte) (code : Byte)
    (payload : List Byte) (len : Nat) :
    checkFrame p span cap bs = .ok (code, payload, len) ↔
      FrameAt p span cap bs len ∧ code = bs.getD 2 0#8 ∧ payload = (bs.take (len - 4)).drop 4 := by
  constructor
  · intro h
    unfold checkFrame at h
    split at h
    · cases h
    split at h
    · cases h
    split at h
    · cases h
    split at h
    · cases h
    dsimp only at h
    split at h
    · cases h
    split at h
    · cases h
    split at h
    · cases h
    split at h
    · cases h
    rename_i h1 h2 h3 h4 h5 h6 h7 h8
    cases h
    exact ⟨⟨not_not.mp h2, not_lt.mp h3, not_not.mp h4, rfl, (cap_any_iff cap _).mp (by simpa using h5),
      not_lt.mp h6, by simpa using h7, not_not.mp h8⟩, rfl, rfl⟩
  · rintro ⟨h, rfl, rfl⟩
    have hl := h.declared
    have hfit := (cap_any_iff cap len).mpr h.fits
    have hne : bs ≠ [] := by
      intro h0
      have := h.head
      simp [h0] at this
    unfold checkFrame
    rw [if_neg hne, if_neg (not_not.mpr h.sig0), if_neg (not_lt.mpr h.head), if_neg (not_not.mpr h.sig1)]
    dsimp only
    rw [← hl, if_neg (by simpa using hfit), if_neg (not_lt.mpr h.body), if_neg (by simp [h.trailer]),
      if_neg (not_not.mpr h.crc)]

/-- The waiting outcomes, as conditions on the bytes (R172). -/
theorem checkFrame_error_iff (p : Prof) (span : CrcFrom) (cap : Option Nat) (bs : List Byte) (e : DecodeError) :
    checkFrame p span cap bs = .error e ↔
      match e with
      | .empty => bs = []
      | .noise k => bs ≠ [] ∧ bs.getD 0 0#8 ≠ p.sig0 ∧ k = noiseRun p bs
      | .shortHead => bs ≠ [] ∧ bs.getD 0 0#8 = p.sig0 ∧ bs.length < 4
      | .badSignature => bs.getD 0 0#8 = p.sig0 ∧ 4 ≤ bs.length ∧ bs.getD 1 0#8 ≠ p.sig1
      | .tooLarge =>
        bs.getD 0 0#8 = p.sig0 ∧ 4 ≤ bs.length ∧ bs.getD 1 0#8 = p.sig1 ∧
          ∃ c, cap = some c ∧ c < frameLen (bs.getD 3 0#8).toNat
      | .shortBody =>
        bs.getD 0 0#8 = p.sig0 ∧ 4 ≤ bs.length ∧ bs.getD 1 0#8 = p.sig1 ∧
          (∀ c, cap = some c → frameLen (bs.getD 3 0#8).toNat ≤ c) ∧ bs.length < frameLen (bs.getD 3 0#8).toNat
      | .badTrailer =>
        bs.getD 0 0#8 = p.sig0 ∧ 4 ≤ bs.length ∧ bs.getD 1 0#8 = p.sig1 ∧
          (∀ c, cap = some c → frameLen (bs.getD 3 0#8).toNat ≤ c) ∧ frameLen (bs.getD 3 0#8).toNat ≤ bs.length ∧
          tailTrlOk p ((bs.drop (frameLen (bs.getD 3 0#8).toNat - 4)).take 4) = false
      | .badCrc =>
        bs.getD 0 0#8 = p.sig0 ∧ 4 ≤ bs.length ∧ bs.getD 1 0#8 = p.sig1 ∧
          (∀ c, cap = some c → frameLen (bs.getD 3 0#8).toNat ≤ c) ∧ frameLen (bs.getD 3 0#8).toNat ≤ bs.length ∧
          tailTrlOk p ((bs.drop (frameLen (bs.getD 3 0#8).toNat - 4)).take 4) = true ∧
          tailCrc p ((bs.drop (frameLen (bs.getD 3 0#8).toNat - 4)).take 4) ≠
            crc16 p ((bs.take (frameLen (bs.getD 3 0#8).toNat - 4)).drop (crcOffset span)) := by
  have hcap : ∀ n, cap.any (fun c => decide (c < n)) = true ↔ ∃ c, cap = some c ∧ c < n := by
    intro n; cases cap <;> simp
  have hcap' : ∀ n, (∀ c, cap = some c → n ≤ c) ↔ ¬ ∃ c, cap = some c ∧ c < n := by
    intro n; cases cap <;> simp
  simp only [hcap']
  unfold checkFrame
  dsimp only
  generalize bs.getD 0 0#8 = b0
  generalize bs.getD 1 0#8 = b1
  generalize frameLen (bs.getD 3 0#8).toNat = len
  generalize tailTrlOk p ((bs.drop (len - 4)).take 4) = trl
  generalize tailCrc p ((bs.drop (len - 4)).take 4) = sent
  generalize crc16 p ((bs.take (len - 4)).drop (crcOffset span)) = computed
  generalize noiseRun p bs = run
  simp only [ne_eq, ← not_lt]
  by_cases h1 : bs = []
  · rw [if_pos h1]
    cases e <;> simp [h1]
  rw [if_neg h1]
  by_cases h2 : b0 = p.sig0
  swap
  · rw [if_pos h2]
    cases e <;> simp [h1, h2, eq_comm]
  rw [if_neg (not_not.mpr h2)]
  by_cases h3 : bs.length < 4
  · rw [if_pos h3]
    cases e <;> simp [h1, h2, h3]
  rw [if_neg h3]
  by_cases h4 : b1 = p.sig1
  swap
  · rw [if_pos h4]
    cases e <;> simp [h1, h2, h3, h4]
  rw [if_neg (not_not.mpr h4)]
  by_cases h5 : ∃ c, cap = some c ∧ c < len
  · rw [if_pos ((hcap len).mpr h5)]
    cases e <;> simp [h1, h2, h3, h4, h5]
  rw [if_neg (fun h => h5 ((hcap len).mp h))]
  by_cases h6 : bs.length < len
  · rw [if_pos h6]
    cases e <;> simp [h1, h2, h3, h4, h5, h6]
  rw [if_neg h6]
  cases trl with
  | false =>
    rw [if_pos rfl]
    cases e <;> simp [h1, h2, h3, h4, h5, h6]
  | true =>
    rw [if_neg (by simp)]
    by_cases h8 : sent = computed
    · rw [if_neg (not_not.mpr h8)]
      cases e <;> simp [h1, h2, h3, h4, h5, h6, h8]
    · rw [if_pos h8]
      cases e <;> simp [h1, h2, h3, h4, h5, h6, h8]

/-! ## The noise run -/

theorem noiseRun_le (p : Prof) (bs : List Byte) : noiseRun p bs ≤ bs.length := by
  induction bs with
  | nil => exact le_refl 0
  | cons b rest ih =>
    simp only [noiseRun, List.length_cons]
    split <;> omega

/-- No byte of the run is `SIG0` (R173). -/
theorem noiseRun_before (p : Prof) (bs : List Byte) (k : Nat) (h : k < noiseRun p bs) : bs[k]? ≠ some p.sig0 := by
  induction bs generalizing k with
  | nil => simp [noiseRun] at h
  | cons b rest ih =>
    simp only [noiseRun] at h
    split at h
    · omega
    · cases k with
      | zero => simpa using ‹_›
      | succ k => simpa using ih k (by omega)

/-- The run ends at `SIG0` or at the end (R173). -/
theorem noiseRun_at (p : Prof) (bs : List Byte) (h : noiseRun p bs < bs.length) :
    bs[noiseRun p bs]? = some p.sig0 := by
  induction bs with
  | nil => simp at h
  | cons b rest ih =>
    simp only [noiseRun] at h ⊢
    split at h
    · rename_i hb
      simp [hb]
    · rename_i hb
      rw [if_neg hb]
      simpa using ih (by simpa using h)

theorem noiseRun_append (p : Prof) (a b : List Byte) :
    noiseRun p (a ++ b) = if noiseRun p a < a.length then noiseRun p a else a.length + noiseRun p b := by
  induction a with
  | nil => simp
  | cons x rest ih =>
    by_cases hx : x = p.sig0
    · simp [noiseRun, hx]
    · simp only [List.cons_append, noiseRun, if_neg hx, ih, List.length_cons]
      split <;> split <;> omega

theorem noiseRun_pos (p : Prof) (bs : List Byte) (hne : bs ≠ []) (h : bs.getD 0 0#8 ≠ p.sig0) : 0 < noiseRun p bs := by
  cases bs with
  | nil => exact absurd rfl hne
  | cons b rest =>
    have hb : b ≠ p.sig0 := by simpa using h
    simp [noiseRun, hb]

/-! ## Decisions that more bytes do not change (R185) -/

theorem getD_append_left {a b : List Byte} {k : Nat} (h : k < a.length) : (a ++ b).getD k 0#8 = a.getD k 0#8 :=
  List.getD_append _ _ _ _ h

theorem drop_take_append {a b : List Byte} {len : Nat} (h4 : 4 ≤ len) (h : len ≤ a.length) :
    ((a ++ b).drop (len - 4)).take 4 = (a.drop (len - 4)).take 4 := by
  rw [List.drop_append_of_le_length (by omega), List.take_append_of_le_length (by simp; omega)]

theorem frameLen_ge (n : Nat) : 8 ≤ frameLen n := by unfold frameLen; omega

/-- A frame that is there stays there. -/
theorem checkFrame_append_ok {p : Prof} {span : CrcFrom} {cap : Option Nat} {a : List Byte}
    {r : Byte × List Byte × Nat} (b : List Byte) (h : checkFrame p span cap a = .ok r) :
    checkFrame p span cap (a ++ b) = .ok r := by
  obtain ⟨code, payload, len⟩ := r
  rw [checkFrame_ok_iff] at h ⊢
  obtain ⟨hf, hc, hp⟩ := h
  have h8 : 8 ≤ len := by rw [hf.declared]; exact frameLen_ge _
  have hb := hf.body
  refine ⟨⟨?_, ?_, ?_, ?_, hf.fits, ?_, ?_, ?_⟩, ?_, ?_⟩
  · rw [getD_append_left (by omega)]; exact hf.sig0
  · have := hf.head; simp; omega
  · rw [getD_append_left (by omega)]; exact hf.sig1
  · rw [getD_append_left (by omega)]; exact hf.declared
  · simp; omega
  · rw [drop_take_append (by omega) hb]; exact hf.trailer
  · rw [drop_take_append (by omega) hb, List.take_append_of_le_length (by omega)]; exact hf.crc
  · rw [getD_append_left (by omega)]; exact hc
  · rw [List.take_append_of_le_length (by omega)]; exact hp

/-- An error that says why the front of the bytes is no frame, whatever follows. -/
def DecodeError.Final (e : DecodeError) : Prop :=
  match e with
  | .empty => False
  | .noise _ => False
  | .shortHead => False
  | .badSignature => True
  | .tooLarge => True
  | .shortBody => False
  | .badTrailer => True
  | .badCrc => True

/-- A rejected candidate stays rejected for the same cause. -/
theorem checkFrame_append_error {p : Prof} {span : CrcFrom} {cap : Option Nat} {a : List Byte} {e : DecodeError}
    (b : List Byte) (he : e.Final) (h : checkFrame p span cap a = .error e) :
    checkFrame p span cap (a ++ b) = .error e := by
  rw [checkFrame_error_iff] at h ⊢
  have hl : a.length ≤ (a ++ b).length := by simp
  have h8 := frameLen_ge (a.getD 3 0#8).toNat
  cases e <;> simp only [DecodeError.Final] at he <;> dsimp only at h ⊢
  · obtain ⟨h1, h2, h3⟩ := h
    rw [getD_append_left (by omega), getD_append_left (by omega)]
    exact ⟨h1, by omega, h3⟩
  · obtain ⟨h1, h2, h3⟩ := h
    rw [getD_append_left (by omega), getD_append_left (by omega), getD_append_left (by omega)]
    exact ⟨h1, by omega, h3⟩
  · obtain ⟨h1, h2, h3, h4, h5, h6⟩ := h
    rw [getD_append_left (by omega), getD_append_left (by omega), getD_append_left (by omega),
      drop_take_append (by omega) h5]
    exact ⟨h1, by omega, h3, h4, by omega, h6⟩
  · obtain ⟨h1, h2, h3, h4, h5, h6⟩ := h
    rw [getD_append_left (by omega), getD_append_left (by omega), getD_append_left (by omega),
      drop_take_append (by omega) h5, List.take_append_of_le_length (by omega)]
    exact ⟨h1, by omega, h3, h4, by omega, h6⟩

/-! ## The decoder -/

theorem decode_ok_iff (c : Cfg) (p : Prof) (bs : List Byte) (i : Instr) (len : Nat) :
    decode c p bs = .ok (i, len) ↔
      FrameAt p p.crcFromRx (some c.rxCap) bs len ∧
        i = requestOf c p (bs.getD 2 0#8) ((bs.take (len - 4)).drop 4) := by
  unfold decode
  constructor
  · intro h
    split at h
    · cases h
    · rename_i h'
      rw [checkFrame_ok_iff] at h'
      obtain ⟨hf, rfl, rfl⟩ := h'
      cases h
      exact ⟨hf, rfl⟩
  · rintro ⟨hf, rfl⟩
    rw [(checkFrame_ok_iff p p.crcFromRx (some c.rxCap) bs _ _ len).mpr ⟨hf, rfl, rfl⟩]

theorem decode_error_iff (c : Cfg) (p : Prof) (bs : List Byte) (e : DecodeError) :
    decode c p bs = .error e ↔ checkFrame p p.crcFromRx (some c.rxCap) bs = .error e := by
  unfold decode
  split <;> simp_all

/-- The length of a decoded frame lies between 8 and what was received (R102, R180). -/
theorem decode_ok_len {c : Cfg} {p : Prof} {bs : List Byte} {i : Instr} {len : Nat}
    (h : decode c p bs = .ok (i, len)) : 8 ≤ len ∧ len ≤ bs.length ∧ len ≤ c.rxCap := by
  have hf := ((decode_ok_iff c p bs i len).mp h).1
  exact ⟨by rw [hf.declared]; exact frameLen_ge _, hf.body, hf.fits _ rfl⟩

theorem decode_append_ok {c : Cfg} {p : Prof} {a : List Byte} {r : Instr × Nat} (b : List Byte)
    (h : decode c p a = .ok r) : decode c p (a ++ b) = .ok r := by
  unfold decode at h ⊢
  split at h
  · cases h
  · rename_i h'
    rw [checkFrame_append_ok b h']
    exact h

theorem decode_append_error {c : Cfg} {p : Prof} {a : List Byte} {e : DecodeError} (b : List Byte) (he : e.Final)
    (h : decode c p a = .error e) : decode c p (a ++ b) = .error e := by
  rw [decode_error_iff] at h ⊢
  exact checkFrame_append_error b he h

/-- A noise run is as long as `noiseRun` says, and some byte is there (R173). -/
theorem decode_noise {c : Cfg} {p : Prof} {bs : List Byte} {k : Nat} (h : decode c p bs = .error (.noise k)) :
    k = noiseRun p bs ∧ bs ≠ [] ∧ 0 < k ∧ k ≤ bs.length := by
  rw [decode_error_iff, checkFrame_error_iff] at h
  obtain ⟨h1, h2, rfl⟩ := h
  exact ⟨rfl, h1, noiseRun_pos p bs h1 h2, noiseRun_le p bs⟩

/-- A rejected candidate has its four head bytes (R174). -/
theorem decode_final_len {c : Cfg} {p : Prof} {bs : List Byte} {e : DecodeError} (he : e.Final)
    (h : decode c p bs = .error e) : 4 ≤ bs.length := by
  rw [decode_error_iff, checkFrame_error_iff] at h
  cases e <;> simp only [DecodeError.Final] at he <;> exact h.2.1

/-- The decoder waits exactly where R172 says that the reframer waits. -/
theorem waiting_iff (c : Cfg) (p : Prof) (bs : List Byte) :
    Machine.Waiting c p bs ↔
      decode c p bs = .error .empty ∨ decode c p bs = .error .shortHead ∨ decode c p bs = .error .shortBody := by
  have hne : bs = [] ∨ bs ≠ [] := em _
  have h0 : bs ≠ [] ↔ 0 < bs.length := by rw [List.length_pos_iff]
  simp only [decode_error_iff, checkFrame_error_iff, Machine.Waiting]
  constructor
  · rintro (h | ⟨h1, h2⟩ | ⟨h1, h2, h3, h4, h5⟩)
    · exact Or.inl h
    · rcases hne with h | h
      · exact Or.inl h
      · exact Or.inr (Or.inl ⟨h, h1, h2⟩)
    · exact Or.inr (Or.inr ⟨h1, h2, h3, fun x hx => by cases hx; exact h4, h5⟩)
  · rintro (h | ⟨_, h1, h2⟩ | ⟨h1, h2, h3, h4, h5⟩)
    · exact Or.inl h
    · exact Or.inr (Or.inl ⟨h1, h2⟩)
    · exact Or.inr (Or.inr ⟨h1, h2, h3, h4 _ rfl, h5⟩)

/-! ## The scan -/

namespace Machine

/-- Fuel beyond the length of the stream changes nothing. -/
theorem scanFuel_enough (c : Cfg) (p : Prof) (n m : Nat) (bs : List Byte) (hn : bs.length < n) (hm : bs.length < m) :
    scanFuel c p n bs = scanFuel c p m bs := by
  induction n generalizing m bs with
  | zero => omega
  | succ n ih =>
    obtain ⟨m, rfl⟩ : ∃ k, m = k + 1 := ⟨m - 1, by omega⟩
    simp only [scanFuel]
    cases h : decode c p bs with
    | ok r =>
      obtain ⟨i, len⟩ := r
      have hl := decode_ok_len h
      dsimp only
      rw [ih m (bs.drop len) (by simp; omega) (by simp; omega)]
    | error e =>
      have hf : e.Final → 4 ≤ bs.length := fun he => decode_final_len he h
      cases e <;> dsimp only
      · rename_i k
        have hk := decode_noise h
        exact ih m (bs.drop k) (by simp; omega) (by simp; omega)
      · have := hf trivial
        exact ih m (bs.drop 1) (by simp; omega) (by simp; omega)
      all_goals
        have := hf trivial
        rw [ih m (bs.drop 2) (by simp; omega) (by simp; omega)]

/-- One round of the scan (R183). -/
theorem scanStream_eq (c : Cfg) (p : Prof) (bs : List Byte) :
    scanStream c p bs =
      match decode c p bs with
      | .ok (i, len) => (i :: (scanStream c p (bs.drop len)).1, (scanStream c p (bs.drop len)).2)
      | .error (.noise k) => scanStream c p (bs.drop k)
      | .error .badSignature => scanStream c p (bs.drop 1)
      | .error .tooLarge => (.nackLen :: (scanStream c p (bs.drop 2)).1, (scanStream c p (bs.drop 2)).2)
      | .error .badTrailer => (.nackTrailer :: (scanStream c p (bs.drop 2)).1, (scanStream c p (bs.drop 2)).2)
      | .error .badCrc => (.nackCrc :: (scanStream c p (bs.drop 2)).1, (scanStream c p (bs.drop 2)).2)
      | .error .empty => ([], bs)
      | .error .shortHead => ([], bs)
      | .error .shortBody => ([], bs) := by
  have key : ∀ k, 0 < k → 0 < bs.length → scanFuel c p bs.length (bs.drop k) = scanStream c p (bs.drop k) := by
    intro k hk hb
    exact scanFuel_enough c p _ _ _ (by simp; omega) (by omega)
  conv_lhs => unfold scanStream
  simp only [scanFuel]
  cases h : decode c p bs with
  | ok r =>
    obtain ⟨i, len⟩ := r
    have hl := decode_ok_len h
    dsimp only
    rw [key len (by omega) (by omega)]
  | error e =>
    have hf : e.Final → 4 ≤ bs.length := fun he => decode_final_len he h
    cases e <;> dsimp only
    · rename_i k
      have hk := decode_noise h
      exact key k (by omega) (by omega)
    · have := hf trivial
      exact key 1 (by omega) (by omega)
    all_goals
      have := hf trivial
      rw [key 2 (by omega) (by omega)]

end Machine

/-! ## The opcode table's words -/

/-- The two bytes of a half word, put together again. -/
theorem half_split (c : Half) : c.extractLsb' 8 8 ++ c.extractLsb' 0 8 = c := by
  apply BitVec.eq_of_getLsbD_eq
  intro i hi
  simp only [BitVec.getLsbD_append, BitVec.getLsbD_extractLsb']
  by_cases h : i < 8
  · simp [h]
  · simp [h, show i - 8 < 8 by omega, show 8 + (i - 8) = i by omega]

/-- The tail that the default profile builds for a CRC holds that CRC and the trailer (R104). -/
theorem mkTail_default (c : Half) :
    tailCrc Prof.default (mkTail Prof.default c) = c ∧ tailTrlOk Prof.default (mkTail Prof.default c) = true :=
  ⟨half_split c, rfl⟩

/-- The frame of the head `01 88 code wc` passes every test of the reframer whatever `code` and `wc` are. -/
theorem checkFrame_tableFrame (span : CrcFrom) (cap : Option Nat) (code wc : Byte)
    (h : ∀ n, cap = some n → frameLen wc.toNat ≤ n) :
    checkFrame Prof.default span cap (tableFrame Prof.default span (0x01880000 + 256 * code.toNat + wc.toNat)) =
      .ok (code, List.replicate (4 * wc.toNat) 0#8, frameLen wc.toNat) := by
  have hc := code.isLt
  have hw := wc.isLt
  let body : List Byte := [0x01#8, 0x88#8, code, wc] ++ List.replicate (4 * wc.toNat) 0#8
  have hb : tableFrame Prof.default span (0x01880000 + 256 * code.toNat + wc.toNat) =
      body ++ mkTail Prof.default (crc16 Prof.default (body.drop (crcOffset span))) := by
    have h0 : BitVec.ofNat 8 ((0x01880000 + 256 * code.toNat + wc.toNat) / 2 ^ 24) = 0x01#8 := by
      apply BitVec.eq_of_toNat_eq; simp; omega
    have h1 : BitVec.ofNat 8 ((0x01880000 + 256 * code.toNat + wc.toNat) / 2 ^ 16) = 0x88#8 := by
      apply BitVec.eq_of_toNat_eq; simp; omega
    have h2 : BitVec.ofNat 8 ((0x01880000 + 256 * code.toNat + wc.toNat) / 2 ^ 8) = code := by
      apply BitVec.eq_of_toNat_eq; simp; omega
    have h3 : BitVec.ofNat 8 (0x01880000 + 256 * code.toNat + wc.toNat) = wc := by
      apply BitVec.eq_of_toNat_eq; simp; omega
    have h4 : (0x01880000 + 256 * code.toNat + wc.toNat) % 256 = wc.toNat := by omega
    unfold tableFrame
    rw [h0, h1, h2, h3, h4]
  have hl : body.length = frameLen wc.toNat - 4 := by simp [body, frameLen]; omega
  have htail := mkTail_default (crc16 Prof.default (body.drop (crcOffset span)))
  rw [hb, checkFrame_ok_iff]
  generalize hm : mkTail Prof.default (crc16 Prof.default (body.drop (crcOffset span))) = tail at htail ⊢
  have hlt : tail.length = 4 := by rw [← hm]; rfl
  have hpos : 8 ≤ frameLen wc.toNat := by simp [frameLen]
  have htake : (body ++ tail).take (frameLen wc.toNat - 4) = body := by rw [← hl]; simp
  have hdrop : ((body ++ tail).drop (frameLen wc.toNat - 4)).take 4 = tail := by
    rw [← hl]; simp [← hlt]
  exact ⟨⟨rfl, by simp [hl, hlt], rfl, rfl, h, by simp [hl, hlt]; omega, by rw [hdrop]; exact htail.2,
    by rw [hdrop, htake]; exact htail.1⟩, rfl, by rw [htake]; rfl⟩

/-- R131: the kind of a table word is decided by the signature and the code byte, whatever the word count: a request of
Table E2, else a response type of Table E3, else UNKNOWN. -/
theorem decodeTableWord_head (nbits : Nat) (code wc : Byte) :
    let zeros : List Byte := List.replicate (4 * wc.toNat) 0#8
    decodeTableWord nbits (0x01880000 + 256 * code.toNat + wc.toNat) =
      match requestOf Cfg.table Prof.default code zeros, responseOf Prof.default code zeros with
      | .unknown _ _, .ok i => some i
      | i, _ => some i := by
  have hw := wc.isLt
  unfold decodeTableWord tableResponse decode decodeResponse
  rw [checkFrame_tableFrame _ _ _ _ (by rintro n ⟨⟩; simp [Cfg.table, frameLen]; omega),
    checkFrame_tableFrame _ _ _ _ (by rintro n ⟨⟩)]
  dsimp only
  generalize requestOf Cfg.table Prof.default code _ = i
  generalize responseOf Prof.default code _ = j
  cases i <;> cases j <;> rfl

end Sys2Proof
end

