-- ==== Sys2Proof/Laws/Memory.lean ====
section
/-! SUPPORT. The laws of flash bytes: reading after a write, the bytes a write leaves alone, and the canonical form kept
by every memory operation. -/

namespace Sys2Proof.Machine

/-! ## The canonical form -/

theorem Memory.wfFrom_cons {lo k : Nat} {v : Byte} {rest : Memory} :
    Memory.wfFrom lo ((k, v) :: rest) = true ↔
      lo ≤ k ∧ v ≠ Memory.blank ∧ Memory.wfFrom (k + 1) rest = true := by
  simp [Memory.wfFrom, and_assoc]

theorem Memory.wfFrom_mono {lo lo' : Nat} {m : Memory} (h : lo' ≤ lo) (hm : Memory.wfFrom lo m = true) :
    Memory.wfFrom lo' m = true := by
  cases m with
  | nil => rfl
  | cons c rest =>
    obtain ⟨k, v⟩ := c
    rw [Memory.wfFrom_cons] at hm ⊢
    exact ⟨h.trans hm.1, hm.2⟩

/-- Below the first address of a canonical list every address is unlisted. -/
theorem Memory.read_below {lo a : Nat} {m : Memory} (hm : Memory.wfFrom lo m = true) (ha : a < lo) :
    Memory.read m a = Memory.blank := by
  induction m generalizing lo with
  | nil => rfl
  | cons c rest ih =>
    obtain ⟨k, v⟩ := c
    rw [Memory.wfFrom_cons] at hm
    have hne : a ≠ k := by omega
    simp only [Memory.read, hne, if_false]
    exact ih hm.2.2 (by omega)

theorem Memory.wfFrom_write {lo a : Nat} {m : Memory} (b : Byte) (hm : Memory.wfFrom lo m = true) (ha : lo ≤ a) :
    Memory.wfFrom lo (Memory.write m a b) = true := by
  induction m generalizing lo with
  | nil =>
    simp only [Memory.write]
    split
    · rfl
    · simp [Memory.wfFrom, *]
  | cons c rest ih =>
    obtain ⟨k, v⟩ := c
    have h := Memory.wfFrom_cons.mp hm
    simp only [Memory.write]
    split
    · split
      · exact hm
      · rw [Memory.wfFrom_cons]
        exact ⟨ha, ‹_›, Memory.wfFrom_cons.mpr ⟨by omega, h.2⟩⟩
    · split
      · split
        · exact Memory.wfFrom_mono (by omega) h.2.2
        · rw [Memory.wfFrom_cons]
          exact ⟨ha, ‹_›, by simpa [‹a = k›] using h.2.2⟩
      · rw [Memory.wfFrom_cons]
        exact ⟨h.1, h.2.1, ih h.2.2 (by omega)⟩

/-- A write keeps the canonical form. -/
theorem Memory.wf_write {m : Memory} (a : Nat) (b : Byte) (hm : Memory.wf m = true) :
    Memory.wf (Memory.write m a b) = true :=
  Memory.wfFrom_write b hm (Nat.zero_le a)

theorem Memory.wf_writeBytes {m : Memory} (a : Nat) (bs : List Byte) (hm : Memory.wf m = true) :
    Memory.wf (Memory.writeBytes m a bs) = true := by
  induction bs generalizing m a with
  | nil => exact hm
  | cons b rest ih => exact ih (a + 1) (Memory.wf_write a b hm)

/-! ## Reading after a write -/

theorem Memory.read_write_other {m : Memory} {a a' : Nat} (b : Byte) (h : a' ≠ a) :
    Memory.read (Memory.write m a b) a' = Memory.read m a' := by
  induction m with
  | nil =>
    simp only [Memory.write]
    split <;> simp [Memory.read, h]
  | cons c rest ih =>
    obtain ⟨k, v⟩ := c
    simp only [Memory.write]
    split
    · split <;> simp [Memory.read, h]
    · split
      · subst k
        split <;> simp [Memory.read, h]
      · simp [Memory.read, ih]

theorem Memory.read_writeFrom_same {lo : Nat} {m : Memory} (a : Nat) (b : Byte) (hm : Memory.wfFrom lo m = true) :
    Memory.read (Memory.write m a b) a = b := by
  induction m generalizing lo with
  | nil =>
    simp only [Memory.write]
    split
    · simp [Memory.read, *]
    · simp [Memory.read]
  | cons c rest ih =>
    obtain ⟨k, v⟩ := c
    have h := Memory.wfFrom_cons.mp hm
    simp only [Memory.write]
    split
    · split
      · rename_i hb
        rw [hb]
        exact Memory.read_below (Memory.wfFrom_cons.mpr ⟨le_refl k, h.2⟩) ‹a < k›
      · simp [Memory.read]
    · split
      · subst k
        split
        · rename_i hb
          rw [hb]
          exact Memory.read_below h.2.2 (Nat.lt_succ_self a)
        · simp [Memory.read]
      · rename_i hlt hne
        simp only [Memory.read, hne, if_false]
        exact ih h.2.2

/-- A read after a write to the same address gives the byte written. -/
theorem Memory.read_write_same {m : Memory} (a : Nat) (b : Byte) (hm : Memory.wf m = true) :
    Memory.read (Memory.write m a b) a = b :=
  Memory.read_writeFrom_same a b hm

/-- Bytes outside the range written are left alone. -/
theorem Memory.read_writeBytes_outside {m : Memory} {a a' : Nat} {bs : List Byte}
    (h : a' < a ∨ a + bs.length ≤ a') :
    Memory.read (Memory.writeBytes m a bs) a' = Memory.read m a' := by
  induction bs generalizing m a with
  | nil => rfl
  | cons b rest ih =>
    simp only [List.length_cons] at h
    simp only [Memory.writeBytes]
    rw [ih (by omega), Memory.read_write_other b (by omega)]

@[simp] theorem Memory.readBytes_length (m : Memory) (a n : Nat) : (Memory.readBytes m a n).length = n := by
  induction n generalizing a with
  | zero => rfl
  | succ n ih => simp [Memory.readBytes, ih]

theorem Memory.readBytes_getElem? (m : Memory) (a n k : Nat) :
    (Memory.readBytes m a n)[k]? = if k < n then some (Memory.read m (a + k)) else none := by
  induction n generalizing a k with
  | zero => simp [Memory.readBytes]
  | succ n ih =>
    cases k with
    | zero => simp [Memory.readBytes]
    | succ k =>
      have : a + 1 + k = a + (k + 1) := by omega
      simp [Memory.readBytes, ih, this]

/-- Equal bytes in the range give equal strings. -/
theorem Memory.readBytes_congr {m m' : Memory} {a n : Nat}
    (h : ∀ a', a ≤ a' → a' < a + n → Memory.read m a' = Memory.read m' a') :
    Memory.readBytes m a n = Memory.readBytes m' a n := by
  apply List.ext_getElem?
  intro k
  rw [Memory.readBytes_getElem?, Memory.readBytes_getElem?]
  split
  · rw [h (a + k) (by omega) (by omega)]
  · rfl

/-- Reading back the bytes just written gives them. -/
theorem Memory.readBytes_writeBytes_same {m : Memory} (a : Nat) (bs : List Byte) (hm : Memory.wf m = true) :
    Memory.readBytes (Memory.writeBytes m a bs) a bs.length = bs := by
  induction bs generalizing m a with
  | nil => rfl
  | cons b rest ih =>
    simp only [List.length_cons, Memory.readBytes, Memory.writeBytes]
    rw [ih (a + 1) (Memory.wf_write a b hm),
      Memory.read_writeBytes_outside (Or.inl (Nat.lt_succ_self a)), Memory.read_write_same a b hm]

/-- A range that a write does not touch reads as before. -/
theorem Memory.readBytes_writeBytes_outside {m : Memory} {a n a' : Nat} {bs : List Byte}
    (h : a + n ≤ a' ∨ a' + bs.length ≤ a) :
    Memory.readBytes (Memory.writeBytes m a' bs) a n = Memory.readBytes m a n :=
  Memory.readBytes_congr fun x h1 h2 => Memory.read_writeBytes_outside (by omega)

/-- A sub-range of the bytes read. -/
theorem Memory.readBytes_drop_take (m : Memory) (a n k j : Nat) (h : k + j ≤ n) :
    ((Memory.readBytes m a n).drop k).take j = Memory.readBytes m (a + k) j := by
  apply List.ext_getElem?
  intro i
  rw [Memory.readBytes_getElem?, List.getElem?_take]
  split
  · rw [List.getElem?_drop, Memory.readBytes_getElem?, if_pos (by omega)]
    congr 2
    omega
  · rfl

theorem Memory.ext_from (lo : Nat) (m m' : Memory) (h1 : Memory.wfFrom lo m = true) (h2 : Memory.wfFrom lo m' = true)
    (h : ∀ a, Memory.read m a = Memory.read m' a) : m = m' := by
  induction m generalizing lo m' with
  | nil =>
    cases m' with
    | nil => rfl
    | cons c r =>
      obtain ⟨k, v⟩ := c
      have := h k
      rw [Memory.wfFrom_cons] at h2
      simp [Memory.read] at this
      exact absurd this.symm h2.2.1
  | cons c r ih =>
    obtain ⟨k, v⟩ := c
    rw [Memory.wfFrom_cons] at h1
    cases m' with
    | nil => have := h k; simp [Memory.read] at this; exact absurd this h1.2.1
    | cons c' r' =>
      obtain ⟨k', v'⟩ := c'
      rw [Memory.wfFrom_cons] at h2
      have hkk : k = k' := by
        rcases Nat.lt_trichotomy k k' with hlt | heq | hlt
        · have := h k; simp only [Memory.read, if_true] at this
          rw [if_neg (by omega), Memory.read_below h2.2.2 (by omega)] at this
          exact absurd this h1.2.1
        · exact heq
        · have := h k'; simp only [Memory.read, if_true] at this
          rw [if_neg (by omega), Memory.read_below h1.2.2 (by omega)] at this
          exact absurd this.symm h2.2.1
      subst hkk
      have hv : v = v' := by have := h k; simpa [Memory.read] using this
      subst hv
      rw [ih (k+1) r' h1.2.2 h2.2.2]
      intro a
      by_cases hak : a = k
      · subst hak; rw [Memory.read_below h1.2.2 (by omega), Memory.read_below h2.2.2 (by omega)]
      · have := h a; simpa [Memory.read, hak] using this

/-- Equal memories are equal data: the canonical form is determined by what is read. -/
theorem Memory.ext_of_read {m m' : Memory} (h1 : Memory.wf m = true) (h2 : Memory.wf m' = true)
    (h : ∀ a, Memory.read m a = Memory.read m' a) : m = m' :=
  Memory.ext_from 0 m m' h1 h2 h

end Sys2Proof.Machine
end

