-- ==== Sys2Proof/Laws/State.lean ====
section
/-! SUPPORT. The fields of State after each named update: one lemma per field per update, for simp. -/

namespace Sys2Proof.Machine

/-! ### setFs -/

@[simp] theorem setFs_cfg (v : FlashState) (s : State) : (setFs v s).cfg = s.cfg := rfl

@[simp] theorem setFs_prof (v : FlashState) (s : State) : (setFs v s).prof = s.prof := rfl

@[simp] theorem setFs_mode (v : FlashState) (s : State) : (setFs v s).mode = s.mode := rfl

@[simp] theorem setFs_jumpApp (v : FlashState) (s : State) : (setFs v s).jumpApp = s.jumpApp := rfl

@[simp] theorem setFs_rb (v : FlashState) (s : State) : (setFs v s).rb = s.rb := rfl

@[simp] theorem setFs_sp (v : FlashState) (s : State) : (setFs v s).sp = s.sp := rfl

@[simp] theorem setFs_xs (v : FlashState) (s : State) : (setFs v s).xs = s.xs := rfl

@[simp] theorem setFs_fs (v : FlashState) (s : State) : (setFs v s).fs = v := rfl

@[simp] theorem setFs_wc (v : FlashState) (s : State) : (setFs v s).wc = s.wc := rfl

@[simp] theorem setFs_gt (v : FlashState) (s : State) : (setFs v s).gt = s.gt := rfl

@[simp] theorem setFs_txq (v : FlashState) (s : State) : (setFs v s).txq = s.txq := rfl

@[simp] theorem setFs_flash (v : FlashState) (s : State) : (setFs v s).flash = s.flash := rfl

@[simp] theorem setFs_trace (v : FlashState) (s : State) : (setFs v s).trace = s.trace := rfl

@[simp] theorem setFs_env (v : FlashState) (s : State) : (setFs v s).env = s.env := rfl

/-! ### advance -/

@[simp] theorem advance_cfg (k : Nat) (s : State) : (advance k s).cfg = s.cfg := rfl

@[simp] theorem advance_prof (k : Nat) (s : State) : (advance k s).prof = s.prof := rfl

@[simp] theorem advance_mode (k : Nat) (s : State) : (advance k s).mode = s.mode := rfl

@[simp] theorem advance_jumpApp (k : Nat) (s : State) : (advance k s).jumpApp = s.jumpApp := rfl

@[simp] theorem advance_rb (k : Nat) (s : State) : (advance k s).rb = { s.rb with rp := s.rb.rp + k } := rfl

@[simp] theorem advance_sp (k : Nat) (s : State) : (advance k s).sp = s.sp := rfl

@[simp] theorem advance_xs (k : Nat) (s : State) : (advance k s).xs = s.xs := rfl

@[simp] theorem advance_fs (k : Nat) (s : State) : (advance k s).fs = s.fs := rfl

@[simp] theorem advance_wc (k : Nat) (s : State) : (advance k s).wc = s.wc := rfl

@[simp] theorem advance_gt (k : Nat) (s : State) : (advance k s).gt = s.gt := rfl

@[simp] theorem advance_txq (k : Nat) (s : State) : (advance k s).txq = s.txq := rfl

@[simp] theorem advance_flash (k : Nat) (s : State) : (advance k s).flash = s.flash := rfl

@[simp] theorem advance_trace (k : Nat) (s : State) : (advance k s).trace = s.trace := rfl

@[simp] theorem advance_env (k : Nat) (s : State) : (advance k s).env = s.env := rfl

/-! ### logFlash -/

@[simp] theorem logFlash_cfg (e : FlashEvent) (s : State) : (logFlash e s).cfg = s.cfg := rfl

@[simp] theorem logFlash_prof (e : FlashEvent) (s : State) : (logFlash e s).prof = s.prof := rfl

@[simp] theorem logFlash_mode (e : FlashEvent) (s : State) : (logFlash e s).mode = s.mode := rfl

@[simp] theorem logFlash_jumpApp (e : FlashEvent) (s : State) : (logFlash e s).jumpApp = s.jumpApp := rfl

@[simp] theorem logFlash_rb (e : FlashEvent) (s : State) : (logFlash e s).rb = s.rb := rfl

@[simp] theorem logFlash_sp (e : FlashEvent) (s : State) : (logFlash e s).sp = s.sp := rfl

@[simp] theorem logFlash_xs (e : FlashEvent) (s : State) : (logFlash e s).xs = s.xs := rfl

@[simp] theorem logFlash_fs (e : FlashEvent) (s : State) : (logFlash e s).fs = s.fs := rfl

@[simp] theorem logFlash_wc (e : FlashEvent) (s : State) : (logFlash e s).wc = s.wc := rfl

@[simp] theorem logFlash_gt (e : FlashEvent) (s : State) : (logFlash e s).gt = s.gt := rfl

@[simp] theorem logFlash_txq (e : FlashEvent) (s : State) : (logFlash e s).txq = s.txq := rfl

@[simp] theorem logFlash_flash (e : FlashEvent) (s : State) : (logFlash e s).flash = s.flash := rfl

@[simp] theorem logFlash_trace (e : FlashEvent) (s : State) : (logFlash e s).trace = { s.trace with flashLog := s.trace.flashLog ++ [e] } := rfl

@[simp] theorem logFlash_env (e : FlashEvent) (s : State) : (logFlash e s).env = s.env := rfl

/-! ### clearStaging -/

@[simp] theorem clearStaging_cfg (s : State) : (clearStaging s).cfg = s.cfg := rfl

@[simp] theorem clearStaging_prof (s : State) : (clearStaging s).prof = s.prof := rfl

@[simp] theorem clearStaging_mode (s : State) : (clearStaging s).mode = s.mode := rfl

@[simp] theorem clearStaging_jumpApp (s : State) : (clearStaging s).jumpApp = s.jumpApp := rfl

@[simp] theorem clearStaging_rb (s : State) : (clearStaging s).rb = s.rb := rfl

@[simp] theorem clearStaging_sp (s : State) : (clearStaging s).sp = { s.sp with buf := List.replicate s.cfg.pageSize erasedByte, pending := false } := rfl

@[simp] theorem clearStaging_xs (s : State) : (clearStaging s).xs = s.xs := rfl

@[simp] theorem clearStaging_fs (s : State) : (clearStaging s).fs = s.fs := rfl

@[simp] theorem clearStaging_wc (s : State) : (clearStaging s).wc = s.wc := rfl

@[simp] theorem clearStaging_gt (s : State) : (clearStaging s).gt = s.gt := rfl

@[simp] theorem clearStaging_txq (s : State) : (clearStaging s).txq = s.txq := rfl

@[simp] theorem clearStaging_flash (s : State) : (clearStaging s).flash = s.flash := rfl

@[simp] theorem clearStaging_trace (s : State) : (clearStaging s).trace = s.trace := rfl

@[simp] theorem clearStaging_env (s : State) : (clearStaging s).env = s.env := rfl

/-! ### compact -/

@[simp] theorem compact_cfg (s : State) : (compact s).cfg = s.cfg := rfl

@[simp] theorem compact_prof (s : State) : (compact s).prof = s.prof := rfl

@[simp] theorem compact_mode (s : State) : (compact s).mode = s.mode := rfl

@[simp] theorem compact_jumpApp (s : State) : (compact s).jumpApp = s.jumpApp := rfl

@[simp] theorem compact_rb (s : State) : (compact s).rb = { buf := s.rb.pending, rp := 0 } := rfl

@[simp] theorem compact_sp (s : State) : (compact s).sp = s.sp := rfl

@[simp] theorem compact_xs (s : State) : (compact s).xs = s.xs := rfl

@[simp] theorem compact_fs (s : State) : (compact s).fs = s.fs := rfl

@[simp] theorem compact_wc (s : State) : (compact s).wc = s.wc := rfl

@[simp] theorem compact_gt (s : State) : (compact s).gt = s.gt := rfl

@[simp] theorem compact_txq (s : State) : (compact s).txq = s.txq := rfl

@[simp] theorem compact_flash (s : State) : (compact s).flash = s.flash := rfl

@[simp] theorem compact_trace (s : State) : (compact s).trace = s.trace := rfl

@[simp] theorem compact_env (s : State) : (compact s).env = s.env := rfl

/-! ### txDrain -/

@[simp] theorem txDrain_cfg (k : Nat) (s : State) : (txDrain k s).cfg = s.cfg := rfl

@[simp] theorem txDrain_prof (k : Nat) (s : State) : (txDrain k s).prof = s.prof := rfl

@[simp] theorem txDrain_mode (k : Nat) (s : State) : (txDrain k s).mode = s.mode := rfl

@[simp] theorem txDrain_jumpApp (k : Nat) (s : State) : (txDrain k s).jumpApp = s.jumpApp := rfl

@[simp] theorem txDrain_rb (k : Nat) (s : State) : (txDrain k s).rb = s.rb := rfl

@[simp] theorem txDrain_sp (k : Nat) (s : State) : (txDrain k s).sp = s.sp := rfl

@[simp] theorem txDrain_xs (k : Nat) (s : State) : (txDrain k s).xs = s.xs := rfl

@[simp] theorem txDrain_fs (k : Nat) (s : State) : (txDrain k s).fs = s.fs := rfl

@[simp] theorem txDrain_wc (k : Nat) (s : State) : (txDrain k s).wc = s.wc := rfl

@[simp] theorem txDrain_gt (k : Nat) (s : State) : (txDrain k s).gt = s.gt := rfl

@[simp] theorem txDrain_txq (k : Nat) (s : State) : (txDrain k s).txq = s.txq.drop k := rfl

@[simp] theorem txDrain_flash (k : Nat) (s : State) : (txDrain k s).flash = s.flash := rfl

@[simp] theorem txDrain_trace (k : Nat) (s : State) : (txDrain k s).trace = { s.trace with txLog := s.trace.txLog ++ s.txq.take k } := rfl

@[simp] theorem txDrain_env (k : Nat) (s : State) : (txDrain k s).env = s.env := rfl

/-! ### timerTick -/

@[simp] theorem timerTick_cfg (s : State) : (timerTick s).cfg = s.cfg := rfl

@[simp] theorem timerTick_prof (s : State) : (timerTick s).prof = s.prof := rfl

@[simp] theorem timerTick_mode (s : State) : (timerTick s).mode = s.mode := rfl

@[simp] theorem timerTick_jumpApp (s : State) : (timerTick s).jumpApp = s.jumpApp := rfl

@[simp] theorem timerTick_rb (s : State) : (timerTick s).rb = s.rb := rfl

@[simp] theorem timerTick_sp (s : State) : (timerTick s).sp = s.sp := rfl

@[simp] theorem timerTick_xs (s : State) : (timerTick s).xs = s.xs := rfl

@[simp] theorem timerTick_fs (s : State) : (timerTick s).fs = s.fs := rfl

@[simp] theorem timerTick_wc (s : State) : (timerTick s).wc = s.wc := rfl

@[simp] theorem timerTick_gt (s : State) : (timerTick s).gt = s.gt - 1 := rfl

@[simp] theorem timerTick_txq (s : State) : (timerTick s).txq = s.txq := rfl

@[simp] theorem timerTick_flash (s : State) : (timerTick s).flash = s.flash := rfl

@[simp] theorem timerTick_trace (s : State) : (timerTick s).trace = s.trace := rfl

@[simp] theorem timerTick_env (s : State) : (timerTick s).env = s.env := rfl

/-! ### jumpStep -/

@[simp] theorem jumpStep_cfg (s : State) : (jumpStep s).cfg = s.cfg := rfl

@[simp] theorem jumpStep_prof (s : State) : (jumpStep s).prof = s.prof := rfl

@[simp] theorem jumpStep_mode (s : State) : (jumpStep s).mode = .jumped := rfl

@[simp] theorem jumpStep_jumpApp (s : State) : (jumpStep s).jumpApp = true := rfl

@[simp] theorem jumpStep_rb (s : State) : (jumpStep s).rb = s.rb := rfl

@[simp] theorem jumpStep_sp (s : State) : (jumpStep s).sp = s.sp := rfl

@[simp] theorem jumpStep_xs (s : State) : (jumpStep s).xs = s.xs := rfl

@[simp] theorem jumpStep_fs (s : State) : (jumpStep s).fs = s.fs := rfl

@[simp] theorem jumpStep_wc (s : State) : (jumpStep s).wc = s.wc := rfl

@[simp] theorem jumpStep_gt (s : State) : (jumpStep s).gt = s.gt := rfl

@[simp] theorem jumpStep_txq (s : State) : (jumpStep s).txq = s.txq := rfl

@[simp] theorem jumpStep_flash (s : State) : (jumpStep s).flash = s.flash := rfl

@[simp] theorem jumpStep_trace (s : State) : (jumpStep s).trace = s.trace := rfl

@[simp] theorem jumpStep_env (s : State) : (jumpStep s).env = s.env := rfl

/-! ### resetMachine -/

@[simp] theorem resetMachine_cfg (b : Bool) (s : State) : (resetMachine b s).cfg = s.cfg := rfl

@[simp] theorem resetMachine_prof (b : Bool) (s : State) : (resetMachine b s).prof = s.prof := rfl

@[simp] theorem resetMachine_mode (b : Bool) (s : State) : (resetMachine b s).mode = (if b then .run else .jumped) := rfl

@[simp] theorem resetMachine_jumpApp (b : Bool) (s : State) : (resetMachine b s).jumpApp = !b := rfl

@[simp] theorem resetMachine_rb (b : Bool) (s : State) : (resetMachine b s).rb = { buf := [], rp := 0 } := rfl

@[simp] theorem resetMachine_sp (b : Bool) (s : State) : (resetMachine b s).sp = resetStaging s.cfg := rfl

@[simp] theorem resetMachine_xs (b : Bool) (s : State) : (resetMachine b s).xs = .idle := rfl

@[simp] theorem resetMachine_fs (b : Bool) (s : State) : (resetMachine b s).fs = .idle := rfl

@[simp] theorem resetMachine_wc (b : Bool) (s : State) : (resetMachine b s).wc = 0#32 := rfl

@[simp] theorem resetMachine_gt (b : Bool) (s : State) : (resetMachine b s).gt = 0 := rfl

@[simp] theorem resetMachine_txq (b : Bool) (s : State) : (resetMachine b s).txq = [] := rfl

@[simp] theorem resetMachine_flash (b : Bool) (s : State) : (resetMachine b s).flash = s.flash := rfl

@[simp] theorem resetMachine_trace (b : Bool) (s : State) : (resetMachine b s).trace = s.trace := rfl

@[simp] theorem resetMachine_env (b : Bool) (s : State) : (resetMachine b s).env = s.env := rfl

/-! ### rxAppend -/

@[simp] theorem rxAppend_cfg (ch : List Byte) (s : State) : (rxAppend ch s).cfg = s.cfg := rfl

@[simp] theorem rxAppend_prof (ch : List Byte) (s : State) : (rxAppend ch s).prof = s.prof := rfl

@[simp] theorem rxAppend_mode (ch : List Byte) (s : State) : (rxAppend ch s).mode = s.mode := rfl

@[simp] theorem rxAppend_jumpApp (ch : List Byte) (s : State) : (rxAppend ch s).jumpApp = s.jumpApp := rfl

@[simp] theorem rxAppend_rb (ch : List Byte) (s : State) : (rxAppend ch s).rb = { s.rb with buf := s.rb.buf ++ ch.take (s.cfg.rxCap - s.rb.fill) } := rfl

@[simp] theorem rxAppend_sp (ch : List Byte) (s : State) : (rxAppend ch s).sp = s.sp := rfl

@[simp] theorem rxAppend_xs (ch : List Byte) (s : State) : (rxAppend ch s).xs = s.xs := rfl

@[simp] theorem rxAppend_fs (ch : List Byte) (s : State) : (rxAppend ch s).fs = s.fs := rfl

@[simp] theorem rxAppend_wc (ch : List Byte) (s : State) : (rxAppend ch s).wc = s.wc := rfl

@[simp] theorem rxAppend_gt (ch : List Byte) (s : State) : (rxAppend ch s).gt = s.gt := rfl

@[simp] theorem rxAppend_txq (ch : List Byte) (s : State) : (rxAppend ch s).txq = s.txq := rfl

@[simp] theorem rxAppend_flash (ch : List Byte) (s : State) : (rxAppend ch s).flash = s.flash := rfl

@[simp] theorem rxAppend_trace (ch : List Byte) (s : State) : (rxAppend ch s).trace = { s.trace with rxDrop := s.trace.rxDrop + (ch.length - (s.cfg.rxCap - s.rb.fill)) } := rfl

@[simp] theorem rxAppend_env (ch : List Byte) (s : State) : (rxAppend ch s).env = s.env := rfl

/-! ### setXs -/

@[simp] theorem setXs_cfg (v : TransferState) (s : State) : (setXs v s).cfg = s.cfg := by unfold setXs; split <;> rfl

@[simp] theorem setXs_prof (v : TransferState) (s : State) : (setXs v s).prof = s.prof := by unfold setXs; split <;> rfl

@[simp] theorem setXs_mode (v : TransferState) (s : State) : (setXs v s).mode = s.mode := by unfold setXs; split <;> rfl

@[simp] theorem setXs_jumpApp (v : TransferState) (s : State) : (setXs v s).jumpApp = s.jumpApp := by unfold setXs; split <;> rfl

@[simp] theorem setXs_rb (v : TransferState) (s : State) : (setXs v s).rb = s.rb := by unfold setXs; split <;> rfl

@[simp] theorem setXs_sp (v : TransferState) (s : State) : (setXs v s).sp = s.sp := by unfold setXs; split <;> rfl

@[simp] theorem setXs_fs (v : TransferState) (s : State) : (setXs v s).fs = s.fs := by unfold setXs; split <;> rfl

@[simp] theorem setXs_wc (v : TransferState) (s : State) : (setXs v s).wc = s.wc := by unfold setXs; split <;> rfl

@[simp] theorem setXs_gt (v : TransferState) (s : State) : (setXs v s).gt = s.gt := by unfold setXs; split <;> rfl

@[simp] theorem setXs_txq (v : TransferState) (s : State) : (setXs v s).txq = s.txq := by unfold setXs; split <;> rfl

@[simp] theorem setXs_flash (v : TransferState) (s : State) : (setXs v s).flash = s.flash := by unfold setXs; split <;> rfl

@[simp] theorem setXs_trace (v : TransferState) (s : State) : (setXs v s).trace = s.trace := by unfold setXs; split <;> rfl

@[simp] theorem setXs_env (v : TransferState) (s : State) : (setXs v s).env = s.env := by unfold setXs; split <;> rfl

/-! ### txSend -/

@[simp] theorem txSend_cfg (f : List Byte) (s : State) : (txSend f s).cfg = s.cfg := by unfold txSend; split <;> rfl

@[simp] theorem txSend_prof (f : List Byte) (s : State) : (txSend f s).prof = s.prof := by unfold txSend; split <;> rfl

@[simp] theorem txSend_mode (f : List Byte) (s : State) : (txSend f s).mode = s.mode := by unfold txSend; split <;> rfl

@[simp] theorem txSend_jumpApp (f : List Byte) (s : State) : (txSend f s).jumpApp = s.jumpApp := by unfold txSend; split <;> rfl

@[simp] theorem txSend_rb (f : List Byte) (s : State) : (txSend f s).rb = s.rb := by unfold txSend; split <;> rfl

@[simp] theorem txSend_sp (f : List Byte) (s : State) : (txSend f s).sp = s.sp := by unfold txSend; split <;> rfl

@[simp] theorem txSend_xs (f : List Byte) (s : State) : (txSend f s).xs = s.xs := by unfold txSend; split <;> rfl

@[simp] theorem txSend_fs (f : List Byte) (s : State) : (txSend f s).fs = s.fs := by unfold txSend; split <;> rfl

@[simp] theorem txSend_wc (f : List Byte) (s : State) : (txSend f s).wc = s.wc := by unfold txSend; split <;> rfl

@[simp] theorem txSend_gt (f : List Byte) (s : State) : (txSend f s).gt = s.gt := by unfold txSend; split <;> rfl

@[simp] theorem txSend_flash (f : List Byte) (s : State) : (txSend f s).flash = s.flash := by unfold txSend; split <;> rfl

@[simp] theorem txSend_env (f : List Byte) (s : State) : (txSend f s).env = s.env := by unfold txSend; split <;> rfl

/-! ### emit -/

@[simp] theorem emit_cfg (code : Byte) (payload : List Byte) (s : State) : (emit code payload s).cfg = s.cfg := by simp [emit]

@[simp] theorem emit_prof (code : Byte) (payload : List Byte) (s : State) : (emit code payload s).prof = s.prof := by simp [emit]

@[simp] theorem emit_mode (code : Byte) (payload : List Byte) (s : State) : (emit code payload s).mode = s.mode := by simp [emit]

@[simp] theorem emit_jumpApp (code : Byte) (payload : List Byte) (s : State) : (emit code payload s).jumpApp = s.jumpApp := by simp [emit]

@[simp] theorem emit_rb (code : Byte) (payload : List Byte) (s : State) : (emit code payload s).rb = s.rb := by simp [emit]

@[simp] theorem emit_sp (code : Byte) (payload : List Byte) (s : State) : (emit code payload s).sp = s.sp := by simp [emit]

@[simp] theorem emit_xs (code : Byte) (payload : List Byte) (s : State) : (emit code payload s).xs = s.xs := by simp [emit]

@[simp] theorem emit_fs (code : Byte) (payload : List Byte) (s : State) : (emit code payload s).fs = s.fs := by simp [emit]

@[simp] theorem emit_wc (code : Byte) (payload : List Byte) (s : State) : (emit code payload s).wc = s.wc := by simp [emit]

@[simp] theorem emit_gt (code : Byte) (payload : List Byte) (s : State) : (emit code payload s).gt = s.gt := by simp [emit]

@[simp] theorem emit_flash (code : Byte) (payload : List Byte) (s : State) : (emit code payload s).flash = s.flash := by simp [emit]

@[simp] theorem emit_env (code : Byte) (payload : List Byte) (s : State) : (emit code payload s).env = s.env := by simp [emit]

/-! ### raiseEvent -/

@[simp] theorem raiseEvent_cfg (e : ErrorEvent) (s : State) : (raiseEvent e s).cfg = s.cfg := by unfold raiseEvent; split <;> simp

@[simp] theorem raiseEvent_prof (e : ErrorEvent) (s : State) : (raiseEvent e s).prof = s.prof := by unfold raiseEvent; split <;> simp

@[simp] theorem raiseEvent_mode (e : ErrorEvent) (s : State) : (raiseEvent e s).mode = s.mode := by unfold raiseEvent; split <;> simp

@[simp] theorem raiseEvent_jumpApp (e : ErrorEvent) (s : State) : (raiseEvent e s).jumpApp = s.jumpApp := by unfold raiseEvent; split <;> simp

@[simp] theorem raiseEvent_rb (e : ErrorEvent) (s : State) : (raiseEvent e s).rb = s.rb := by unfold raiseEvent; split <;> simp

@[simp] theorem raiseEvent_sp (e : ErrorEvent) (s : State) : (raiseEvent e s).sp = s.sp := by unfold raiseEvent; split <;> simp

@[simp] theorem raiseEvent_xs (e : ErrorEvent) (s : State) : (raiseEvent e s).xs = s.xs := by unfold raiseEvent; split <;> simp

@[simp] theorem raiseEvent_fs (e : ErrorEvent) (s : State) : (raiseEvent e s).fs = s.fs := by unfold raiseEvent; split <;> simp

@[simp] theorem raiseEvent_wc (e : ErrorEvent) (s : State) : (raiseEvent e s).wc = s.wc := by unfold raiseEvent; split <;> simp

@[simp] theorem raiseEvent_gt (e : ErrorEvent) (s : State) : (raiseEvent e s).gt = s.gt := by unfold raiseEvent; split <;> simp

@[simp] theorem raiseEvent_flash (e : ErrorEvent) (s : State) : (raiseEvent e s).flash = s.flash := by unfold raiseEvent; split <;> simp

@[simp] theorem raiseEvent_env (e : ErrorEvent) (s : State) : (raiseEvent e s).env = s.env := by unfold raiseEvent; split <;> simp

/-! ### stageBlock -/

@[simp] theorem stageBlock_cfg (addr : Word) (data : List Byte) (s : State) : (stageBlock addr data s).cfg = s.cfg := by simp [stageBlock]

@[simp] theorem stageBlock_prof (addr : Word) (data : List Byte) (s : State) : (stageBlock addr data s).prof = s.prof := by simp [stageBlock]

@[simp] theorem stageBlock_mode (addr : Word) (data : List Byte) (s : State) : (stageBlock addr data s).mode = s.mode := by simp [stageBlock]

@[simp] theorem stageBlock_jumpApp (addr : Word) (data : List Byte) (s : State) : (stageBlock addr data s).jumpApp = s.jumpApp := by simp [stageBlock]

@[simp] theorem stageBlock_rb (addr : Word) (data : List Byte) (s : State) : (stageBlock addr data s).rb = s.rb := by simp [stageBlock]

@[simp] theorem stageBlock_wc (addr : Word) (data : List Byte) (s : State) : (stageBlock addr data s).wc = s.wc := by simp [stageBlock]

@[simp] theorem stageBlock_gt (addr : Word) (data : List Byte) (s : State) : (stageBlock addr data s).gt = s.gt := by simp [stageBlock]

@[simp] theorem stageBlock_txq (addr : Word) (data : List Byte) (s : State) : (stageBlock addr data s).txq = s.txq := by simp [stageBlock]

@[simp] theorem stageBlock_flash (addr : Word) (data : List Byte) (s : State) : (stageBlock addr data s).flash = s.flash := by simp [stageBlock]

@[simp] theorem stageBlock_trace (addr : Word) (data : List Byte) (s : State) : (stageBlock addr data s).trace = s.trace := by simp [stageBlock]

@[simp] theorem stageBlock_env (addr : Word) (data : List Byte) (s : State) : (stageBlock addr data s).env = s.env := by simp [stageBlock]

/-! ### nextDraw -/

@[simp] theorem nextDraw_cfg (s : State) : (nextDraw s).2.cfg = s.cfg := by unfold nextDraw; split <;> rfl

@[simp] theorem nextDraw_prof (s : State) : (nextDraw s).2.prof = s.prof := by unfold nextDraw; split <;> rfl

@[simp] theorem nextDraw_mode (s : State) : (nextDraw s).2.mode = s.mode := by unfold nextDraw; split <;> rfl

@[simp] theorem nextDraw_jumpApp (s : State) : (nextDraw s).2.jumpApp = s.jumpApp := by unfold nextDraw; split <;> rfl

@[simp] theorem nextDraw_rb (s : State) : (nextDraw s).2.rb = s.rb := by unfold nextDraw; split <;> rfl

@[simp] theorem nextDraw_sp (s : State) : (nextDraw s).2.sp = s.sp := by unfold nextDraw; split <;> rfl

@[simp] theorem nextDraw_xs (s : State) : (nextDraw s).2.xs = s.xs := by unfold nextDraw; split <;> rfl

@[simp] theorem nextDraw_fs (s : State) : (nextDraw s).2.fs = s.fs := by unfold nextDraw; split <;> rfl

@[simp] theorem nextDraw_wc (s : State) : (nextDraw s).2.wc = s.wc := by unfold nextDraw; split <;> rfl

@[simp] theorem nextDraw_gt (s : State) : (nextDraw s).2.gt = s.gt := by unfold nextDraw; split <;> rfl

@[simp] theorem nextDraw_txq (s : State) : (nextDraw s).2.txq = s.txq := by unfold nextDraw; split <;> rfl

@[simp] theorem nextDraw_flash (s : State) : (nextDraw s).2.flash = s.flash := by unfold nextDraw; split <;> rfl

@[simp] theorem nextDraw_trace (s : State) : (nextDraw s).2.trace = s.trace := by unfold nextDraw; split <;> rfl

/-! ### nextEvent -/

@[simp] theorem nextEvent_cfg (s : State) : (nextEvent s).2.cfg = s.cfg := by unfold nextEvent; split <;> (try split) <;> (try split) <;> rfl

@[simp] theorem nextEvent_prof (s : State) : (nextEvent s).2.prof = s.prof := by unfold nextEvent; split <;> (try split) <;> (try split) <;> rfl

@[simp] theorem nextEvent_mode (s : State) : (nextEvent s).2.mode = s.mode := by unfold nextEvent; split <;> (try split) <;> (try split) <;> rfl

@[simp] theorem nextEvent_jumpApp (s : State) : (nextEvent s).2.jumpApp = s.jumpApp := by unfold nextEvent; split <;> (try split) <;> (try split) <;> rfl

@[simp] theorem nextEvent_rb (s : State) : (nextEvent s).2.rb = s.rb := by unfold nextEvent; split <;> (try split) <;> (try split) <;> rfl

@[simp] theorem nextEvent_sp (s : State) : (nextEvent s).2.sp = s.sp := by unfold nextEvent; split <;> (try split) <;> (try split) <;> rfl

@[simp] theorem nextEvent_xs (s : State) : (nextEvent s).2.xs = s.xs := by unfold nextEvent; split <;> (try split) <;> (try split) <;> rfl

@[simp] theorem nextEvent_fs (s : State) : (nextEvent s).2.fs = s.fs := by unfold nextEvent; split <;> (try split) <;> (try split) <;> rfl

@[simp] theorem nextEvent_wc (s : State) : (nextEvent s).2.wc = s.wc := by unfold nextEvent; split <;> (try split) <;> (try split) <;> rfl

@[simp] theorem nextEvent_gt (s : State) : (nextEvent s).2.gt = s.gt := by unfold nextEvent; split <;> (try split) <;> (try split) <;> rfl

@[simp] theorem nextEvent_txq (s : State) : (nextEvent s).2.txq = s.txq := by unfold nextEvent; split <;> (try split) <;> (try split) <;> rfl

@[simp] theorem nextEvent_flash (s : State) : (nextEvent s).2.flash = s.flash := by unfold nextEvent; split <;> (try split) <;> (try split) <;> rfl

@[simp] theorem nextEvent_trace (s : State) : (nextEvent s).2.trace = s.trace := by unfold nextEvent; split <;> (try split) <;> (try split) <;> rfl

/-! ### flushFailed -/

@[simp] theorem flushFailed_cfg (s : State) : (flushFailed s).cfg = s.cfg := by simp [flushFailed]

@[simp] theorem flushFailed_prof (s : State) : (flushFailed s).prof = s.prof := by simp [flushFailed]

@[simp] theorem flushFailed_mode (s : State) : (flushFailed s).mode = s.mode := by simp [flushFailed]

@[simp] theorem flushFailed_jumpApp (s : State) : (flushFailed s).jumpApp = s.jumpApp := by simp [flushFailed]

@[simp] theorem flushFailed_rb (s : State) : (flushFailed s).rb = s.rb := by simp [flushFailed]

@[simp] theorem flushFailed_sp (s : State) : (flushFailed s).sp = s.sp := by simp [flushFailed]

@[simp] theorem flushFailed_wc (s : State) : (flushFailed s).wc = s.wc := by simp [flushFailed]

@[simp] theorem flushFailed_gt (s : State) : (flushFailed s).gt = s.gt := by simp [flushFailed]

@[simp] theorem flushFailed_flash (s : State) : (flushFailed s).flash = s.flash := by simp [flushFailed]

@[simp] theorem flushFailed_env (s : State) : (flushFailed s).env = s.env := by simp [flushFailed]

/-! ### ackWriteBlock -/

@[simp] theorem ackWriteBlock_cfg (addr : Word) (s : State) : (ackWriteBlock addr s).cfg = s.cfg := by simp [ackWriteBlock]

@[simp] theorem ackWriteBlock_prof (addr : Word) (s : State) : (ackWriteBlock addr s).prof = s.prof := by simp [ackWriteBlock]

@[simp] theorem ackWriteBlock_mode (addr : Word) (s : State) : (ackWriteBlock addr s).mode = s.mode := by simp [ackWriteBlock]

@[simp] theorem ackWriteBlock_jumpApp (addr : Word) (s : State) : (ackWriteBlock addr s).jumpApp = s.jumpApp := by simp [ackWriteBlock]

@[simp] theorem ackWriteBlock_rb (addr : Word) (s : State) : (ackWriteBlock addr s).rb = s.rb := by simp [ackWriteBlock]

@[simp] theorem ackWriteBlock_sp (addr : Word) (s : State) : (ackWriteBlock addr s).sp = s.sp := by simp [ackWriteBlock]

@[simp] theorem ackWriteBlock_xs (addr : Word) (s : State) : (ackWriteBlock addr s).xs = s.xs := by simp [ackWriteBlock]

@[simp] theorem ackWriteBlock_wc (addr : Word) (s : State) : (ackWriteBlock addr s).wc = s.wc := by simp [ackWriteBlock]

@[simp] theorem ackWriteBlock_gt (addr : Word) (s : State) : (ackWriteBlock addr s).gt = s.gt := by simp [ackWriteBlock]

@[simp] theorem ackWriteBlock_flash (addr : Word) (s : State) : (ackWriteBlock addr s).flash = s.flash := by simp [ackWriteBlock]

@[simp] theorem ackWriteBlock_env (addr : Word) (s : State) : (ackWriteBlock addr s).env = s.env := by simp [ackWriteBlock]

/-! ### ackEof -/

@[simp] theorem ackEof_cfg (s : State) : (ackEof s).cfg = s.cfg := by simp [ackEof]

@[simp] theorem ackEof_prof (s : State) : (ackEof s).prof = s.prof := by simp [ackEof]

@[simp] theorem ackEof_mode (s : State) : (ackEof s).mode = s.mode := by simp [ackEof]

@[simp] theorem ackEof_jumpApp (s : State) : (ackEof s).jumpApp = s.jumpApp := by simp [ackEof]

@[simp] theorem ackEof_rb (s : State) : (ackEof s).rb = s.rb := by simp [ackEof]

@[simp] theorem ackEof_sp (s : State) : (ackEof s).sp = s.sp := by simp [ackEof]

@[simp] theorem ackEof_wc (s : State) : (ackEof s).wc = s.wc := by simp [ackEof]

@[simp] theorem ackEof_gt (s : State) : (ackEof s).gt = s.gt := by simp [ackEof]

@[simp] theorem ackEof_flash (s : State) : (ackEof s).flash = s.flash := by simp [ackEof]

@[simp] theorem ackEof_env (s : State) : (ackEof s).env = s.env := by simp [ackEof]

/-! ### The fields that an update does change -/

theorem setXs_xs (v : TransferState) (s : State) :
    (setXs v s).xs = if s.xs = .complete then .complete else v := by
  unfold setXs; split <;> simp_all

/-- The traces that only the transport and the flash write survive a response (R260). -/
@[simp] theorem emit_trace_flashLog (code : Byte) (payload : List Byte) (s : State) :
    (emit code payload s).trace.flashLog = s.trace.flashLog := by
  unfold emit txSend; split <;> rfl

@[simp] theorem emit_trace_txLog (code : Byte) (payload : List Byte) (s : State) :
    (emit code payload s).trace.txLog = s.trace.txLog := by
  unfold emit txSend; split <;> rfl

@[simp] theorem emit_trace_rxDrop (code : Byte) (payload : List Byte) (s : State) :
    (emit code payload s).trace.rxDrop = s.trace.rxDrop := by
  unfold emit txSend; split <;> rfl

@[simp] theorem stageBlock_fs (addr : Word) (data : List Byte) (s : State) :
    (stageBlock addr data s).fs = .accumulating := by simp [stageBlock]

@[simp] theorem stageBlock_xs (addr : Word) (data : List Byte) (s : State) :
    (stageBlock addr data s).xs = if s.xs = .complete then .complete else .receiving := by
  unfold stageBlock; rw [setXs_xs]; rfl

@[simp] theorem stageBlock_sp (addr : Word) (data : List Byte) (s : State) :
    (stageBlock addr data s).sp =
      { s.sp with buf := overlay s.sp.buf (pageOff s.cfg addr) data, pending := true, addr := pageBase s.cfg addr } := by
  simp [stageBlock]

end Sys2Proof.Machine
end

