-- ==== Sys2Proof/Laws/Ops.lean ====
section
/-! SUPPORT. One lemma per shared operation that says what it can do: responses, error events, the flash port, the staging
page and the flush. -/

namespace Sys2Proof.Machine

open Host (Outcome)

/-! ## Responses and error events -/

/-- `tx.send` offers the frame and does nothing else (R265). -/
theorem txSend_answered (f : List Byte) (s : State) : Answered f s (txSend f s) := by
  unfold Answered txSend
  split <;> rfl

/-- `tx.send` changes the queue or the drop log, nothing else (R265). -/
theorem txSend_eq (f : List Byte) (s : State) :
    txSend f s =
      { s with
        txq := (txSend f s).txq
        trace := { s.trace with dropLog := (txSend f s).trace.dropLog } } := by
  unfold txSend
  split <;> rfl

/-- A frame is offered in one way only. -/
theorem Answered.eq {f : List Byte} {s t : State} (h : Answered f s t) : t = txSend f s := by
  unfold Answered at h
  unfold txSend
  split at h <;> simp_all

theorem answered_iff (f : List Byte) (s t : State) : Answered f s t ↔ t = txSend f s :=
  ⟨Answered.eq, fun h => h ▸ txSend_answered f s⟩

/-- `Emit` offers the frame of `BuildFrame` (R260, R261). -/
theorem emit_answered (code : Byte) (payload : List Byte) (s : State) :
    Answered (buildFrame s.prof s.prof.crcFromTx code payload) s (emit code payload s) :=
  txSend_answered _ s

/-- An event that has a response offers it with no payload (R311). -/
theorem raiseEvent_of_some {e : ErrorEvent} {s : State} {code : Byte} (h : errorResponse s.prof e = some code) :
    raiseEvent e s = emit code [] s := by
  simp [raiseEvent, h]

theorem raiseEvent_of_none {e : ErrorEvent} {s : State} (h : errorResponse s.prof e = none) : raiseEvent e s = s := by
  simp [raiseEvent, h]

/-- The command-level events answer COMMAND_ERROR (R311). -/
theorem raiseEvent_command (e : ErrorEvent) (s : State)
    (h : e = .unknownCmd ∨ e = .argCount ∨ e = .addr ∨ e = .flash) :
    raiseEvent e s = emit s.prof.rspCmdError [] s := by
  rcases h with rfl | rfl | rfl | rfl <;> rfl

/-- The queue never exceeds its capacity because of a response (R34). -/
theorem txSend_txq_length (f : List Byte) (s : State) (h : s.txq.length ≤ s.cfg.txCap) :
    (txSend f s).txq.length ≤ s.cfg.txCap := by
  unfold txSend
  split
  · simpa using ‹_›
  · exact h

theorem emit_txq_length (code : Byte) (payload : List Byte) (s : State) (h : s.txq.length ≤ s.cfg.txCap) :
    (emit code payload s).txq.length ≤ s.cfg.txCap :=
  txSend_txq_length _ s h

theorem raiseEvent_txq_length (e : ErrorEvent) (s : State) (h : s.txq.length ≤ s.cfg.txCap) :
    (raiseEvent e s).txq.length ≤ s.cfg.txCap := by
  unfold raiseEvent
  split
  · exact h
  · exact emit_txq_length _ _ s h

/-! ## Flash port -/

@[simp] theorem pageBytes_length (n : Nat) (bs : List Byte) : (pageBytes n bs).length = n := by
  simp [pageBytes]

/-- A string of a whole page is that page's content. -/
theorem pageBytes_of_length {n : Nat} {bs : List Byte} (h : bs.length = n) : pageBytes n bs = bs := by
  simp [pageBytes, ← h]

theorem nextDraw_logFlash (e : FlashEvent) (s : State) :
    nextDraw (logFlash e s) = ((nextDraw s).1, logFlash e (nextDraw s).2) := by
  unfold nextDraw logFlash
  cases h : s.env.draws <;> simp [h]

/-- Taking an oracle answer changes the list of answers and the counter, nothing else (R69). -/
theorem nextDraw_snd (s : State) : (nextDraw s).2 = { s with env := (nextDraw s).2.env } := by
  unfold nextDraw
  cases s.env.draws <;> rfl

@[simp] theorem nextDraw_events (s : State) : (nextDraw s).2.env.events = s.env.events := by
  unfold nextDraw
  cases s.env.draws <;> rfl

/-- The answer listed next is the one taken (R69). -/
theorem nextDraw_listed {s : State} {d : FlashDraw} {ds : List FlashDraw} (h : s.env.draws = d :: ds) :
    (nextDraw s).1 = d ∧ (nextDraw s).2.env = { s.env with draws := ds } := by
  unfold nextDraw
  rw [h]
  exact ⟨rfl, rfl⟩

/-- The page left by an erase with the answer `d` (R67). -/
def erasedBytes (c : Cfg) (d : FlashDraw) : List Byte :=
  match d with
  | .ok => List.replicate c.pageSize erasedByte
  | .fail _ bytes => pageBytes c.pageSize bytes

/-- The status an operation with the answer `d` reports (R67, R68). -/
def drawStatus (d : FlashDraw) : FlashStatus :=
  match d with
  | .ok => .ok
  | .fail reported _ => reported

@[simp] theorem erasedBytes_length (c : Cfg) (d : FlashDraw) : (erasedBytes c d).length = c.pageSize := by
  cases d <;> simp [erasedBytes]

/-- What `FlashErase` does (R67). -/
theorem flashErase_eq (pa : Word) (s : State) :
    flashErase pa s =
      (drawStatus (nextDraw s).1,
        { s with
          flash := Memory.writeBytes s.flash pa.toNat (erasedBytes s.cfg (nextDraw s).1)
          trace := { s.trace with flashLog := s.trace.flashLog ++ [.erase pa] }
          env := (nextDraw s).2.env }) := by
  unfold flashErase
  rw [nextDraw_logFlash, nextDraw_snd s]
  cases (nextDraw s).1 <;> rfl

/-- The page left by a program with the answer `d` over the bytes `old` (R68). -/
def programmedBytes (c : Cfg) (old data : List Byte) (d : FlashDraw) : List Byte :=
  match d with
  | .ok => List.zipWith (fun a b => a &&& b) old data
  | .fail _ bytes => pageBytes c.pageSize bytes

theorem programmedBytes_length {c : Cfg} {old data : List Byte} (d : FlashDraw)
    (h : data.length = c.pageSize) (ho : old.length = data.length) :
    (programmedBytes c old data d).length = c.pageSize := by
  cases d <;> simp [programmedBytes, h, ho]

/-- What `FlashProgram` does (R68). -/
theorem flashProgram_eq (pa : Word) (data : List Byte) (s : State) :
    flashProgram pa data s =
      (drawStatus (nextDraw s).1,
        { s with
          flash := Memory.writeBytes s.flash pa.toNat
            (programmedBytes s.cfg (Memory.readBytes s.flash pa.toNat data.length) data (nextDraw s).1)
          trace := { s.trace with flashLog := s.trace.flashLog ++ [.program pa data] }
          env := (nextDraw s).2.env }) := by
  unfold flashProgram
  rw [nextDraw_logFlash, nextDraw_snd s]
  cases (nextDraw s).1 <;> rfl

/-- Programming over erased bytes gives the data (R68, G10). -/
theorem and_erased (n : Nat) (data : List Byte) (h : data.length = n) :
    List.zipWith (fun a b => a &&& b) (List.replicate n erasedByte) data = data := by
  induction data generalizing n with
  | nil => simp
  | cons b rest ih =>
    subst h
    have hb : erasedByte &&& b = b := BitVec.allOnes_and
    simp only [List.length_cons, List.replicate_succ, List.zipWith_cons_cons, hb]
    rw [ih rest.length rfl]

/-- The erased check reads the whole range (R65). -/
theorem flashIsErased_iff (pa : Word) (n : Nat) (s : State) :
    (flashIsErased pa n s).1 = true ↔ Memory.readBytes s.flash pa.toNat n = List.replicate n erasedByte := by
  have hall : ∀ (l : List Byte) (m : Nat), l.length = m →
      (l.all (fun b => b == erasedByte) = true ↔ l = List.replicate m erasedByte) := by
    intro l m h
    rw [List.eq_replicate_iff, List.all_eq_true]
    simp [h]
  exact hall _ n (by simp)

/-- The oracle's answer depends on the inputs to come alone (R69). -/
theorem nextDraw_congr {s t : State} (h : s.env = t.env) :
    (nextDraw s).1 = (nextDraw t).1 ∧ (nextDraw s).2.env = (nextDraw t).2.env := by
  unfold nextDraw
  rw [h]
  cases t.env.draws <;> exact ⟨rfl, rfl⟩

/-! ## Flash port operations once more -/

/-- What the operations of `es` change: flash, the log by exactly `es`, and the oracle's answers taken. -/
theorem replayFlash_same (es : List FlashEvent) (s : State) :
    replayFlash es s = { s with
      flash := (replayFlash es s).flash
      trace := { s.trace with flashLog := s.trace.flashLog ++ es }
      env := { s.env with draws := (replayFlash es s).env.draws, drawn := (replayFlash es s).env.drawn } } := by
  induction es generalizing s with
  | nil => simp [replayFlash]
  | cons e rest ih =>
    cases e with
    | isErased pa => rw [replayFlash, ih]; simp [flashIsErased, logFlash]
    | read pa => rw [replayFlash, ih]; simp [flashRead, logFlash]
    | erase pa => rw [replayFlash, ih, flashErase_eq]; simp
    | program pa data => rw [replayFlash, ih, flashProgram_eq]; simp

/-- They depend on flash, the answers and the page size alone. -/
theorem replayFlash_congr {s t : State} (es : List FlashEvent) (hc : s.cfg = t.cfg) (hf : s.flash = t.flash)
    (he : s.env = t.env) :
    (replayFlash es s).flash = (replayFlash es t).flash ∧ (replayFlash es s).env = (replayFlash es t).env := by
  induction es generalizing s t with
  | nil => exact ⟨hf, he⟩
  | cons e rest ih =>
    obtain ⟨hd, hn⟩ := nextDraw_congr he
    cases e with
    | isErased pa => exact ih hc hf he
    | read pa => exact ih hc hf he
    | erase pa =>
      refine ih ?_ ?_ ?_ <;> rw [flashErase_eq, flashErase_eq]
      · exact hc
      · simp only [hc, hf, hd]
      · exact hn
    | program pa data =>
      refine ih ?_ ?_ ?_ <;> rw [flashProgram_eq, flashProgram_eq]
      · exact hc
      · simp only [hc, hf, hd]
      · exact hn

/-- An operation of `FLASHLOG` on the page at `pa`, a program of a whole page. -/
def OnPage (c : Cfg) (pa : Word) (e : FlashEvent) : Prop :=
  match e with
  | .isErased a => a = pa
  | .read a => a = pa
  | .erase a => a = pa
  | .program a data => a = pa ∧ data.length = c.pageSize

/-- Operations on one page keep every byte outside it, and the canonical form. -/
theorem replayFlash_onPage {pa : Word} (es : List FlashEvent) (s : State) (h : ∀ e ∈ es, OnPage s.cfg pa e) :
    (∀ a, OutsidePage s.cfg pa a → Memory.read (replayFlash es s).flash a = Memory.read s.flash a) ∧
      (Memory.wf s.flash = true → Memory.wf (replayFlash es s).flash = true) := by
  induction es generalizing s with
  | nil => exact ⟨fun _ _ => rfl, id⟩
  | cons e rest ih =>
    have hrest : ∀ e ∈ rest, OnPage s.cfg pa e := fun e he => h e (List.mem_cons_of_mem _ he)
    have hhead := h e List.mem_cons_self
    cases e with
    | isErased a => exact ih (flashIsErased a s.cfg.pageSize s).2 hrest
    | read a => exact ih (flashRead a s.cfg.pageSize s).2 hrest
    | erase a =>
      cases hhead
      obtain ⟨h1, h2⟩ := ih (flashErase pa s).2 (by rw [flashErase_eq]; exact hrest)
      rw [flashErase_eq] at h1 h2
      rw [replayFlash, flashErase_eq]
      exact ⟨fun x hx => (h1 x hx).trans (Memory.read_writeBytes_outside (by simpa using hx)),
        fun hw => h2 (Memory.wf_writeBytes _ _ hw)⟩
    | program a data =>
      obtain ⟨rfl, hl⟩ := hhead
      have hlen := programmedBytes_length (old := Memory.readBytes s.flash a.toNat data.length) (nextDraw s).1 hl (by simp)
      obtain ⟨h1, h2⟩ := ih (flashProgram a data s).2 (by rw [flashProgram_eq]; exact hrest)
      rw [flashProgram_eq] at h1 h2
      rw [replayFlash, flashProgram_eq]
      exact ⟨fun x hx => (h1 x hx).trans (Memory.read_writeBytes_outside (by simpa [hlen] using hx)),
        fun hw => h2 (Memory.wf_writeBytes _ _ hw)⟩

/-- Whether a program fails depends on flash, the answers and the build alone. -/
theorem ProgramFails_congr {pa : Word} {staged : List Byte} {s t : State} (hc : s.cfg = t.cfg) (hf : s.flash = t.flash)
    (he : s.env = t.env) : ProgramFails pa staged s ↔ ProgramFails pa staged t := by
  unfold ProgramFails pageAt
  simp only [flashProgram_eq, hc, hf, (nextDraw_congr he).1]

/-! ## Staging page -/

theorem overlay_length {buf data : List Byte} {off : Nat} (h : off + data.length ≤ buf.length) :
    (overlay buf off data).length = buf.length := by
  simp [overlay]; omega

/-- The bytes of the staging page after a copy (R222). -/
theorem overlay_getElem? {buf data : List Byte} {off : Nat} (h : off + data.length ≤ buf.length) (k : Nat) :
    (overlay buf off data)[k]? =
      if off ≤ k ∧ k < off + data.length then data[k - off]? else buf[k]? := by
  have hlen : (buf.take off).length = off := by simp; omega
  unfold overlay
  by_cases h1 : k < off
  · rw [if_neg (by omega), List.append_assoc, List.getElem?_append_left (by omega), List.getElem?_take, if_pos h1]
  · rw [List.append_assoc, List.getElem?_append_right (by omega), hlen]
    by_cases h2 : k < off + data.length
    · rw [if_pos ⟨by omega, h2⟩, List.getElem?_append_left (by omega)]
    · rw [if_neg (by omega), List.getElem?_append_right (by omega), List.getElem?_drop]
      congr 1
      omega

/-- The copied bytes are found at their offset (R222). -/
theorem overlay_drop_take {buf data : List Byte} {off : Nat} (h : off + data.length ≤ buf.length) :
    ((overlay buf off data).drop off).take data.length = data := by
  have hlen : (buf.take off).length = off := by simp; omega
  unfold overlay
  rw [List.append_assoc, List.drop_append_of_le_length (by omega), List.drop_eq_nil_of_le (by omega)]
  simp

/-! ## The flush -/

/-- How the flash events `es` of a flush begin, by what the page holds (R230 to R233). -/
def FlushOrder (pa : Word) (s : State) (es : List FlashEvent) : Prop :=
  if pageAt s pa = erasedPage s.cfg then [.isErased pa, .program pa s.sp.buf] <+: es
  else [.isErased pa, .read pa] <+: es ∧
    (pageAt s pa ≠ s.sp.buf → [.isErased pa, .read pa, .erase pa] <+: es ∧
      (drawStatus (nextDraw s).1 = .ok → [.isErased pa, .read pa, .erase pa, .program pa s.sp.buf] <+: es))

/-- What a flush may do to its page and to nothing else (R230 to R237). -/
structure FlushSpec (pa : Word) (s : State) (r : FlushResult) (t : State) : Prop where
  /-- What is the same: everything but `FS`, `WC`, `FLASH`, the log and the oracle; `SP` is cleared. -/
  same : t = { s with
    fs := t.fs
    wc := t.wc
    flash := t.flash
    env := t.env
    trace := { s.trace with flashLog := t.trace.flashLog }
    sp := { s.sp with
      buf := List.replicate s.cfg.pageSize erasedByte
      pending := false
      lastValid := if r = .fail then s.sp.lastValid else true
      lastPage := if r = .fail then s.sp.lastPage else pa } }
  events : t.env.events = s.env.events
  outside : s.sp.buf.length = s.cfg.pageSize →
    ∀ a, OutsidePage s.cfg pa a → Memory.read t.flash a = Memory.read s.flash a
  wf : Memory.wf s.flash = true → Memory.wf t.flash = true
  count : t.wc = if r = .ok then s.wc + 1#32 else s.wc
  skips : r = .skip ↔ pageAt s pa ≠ erasedPage s.cfg ∧ pageAt s pa = s.sp.buf
  skip : r = .skip → t.flash = s.flash
  data : r ≠ .fail → Memory.readBytes t.flash pa.toNat s.cfg.pageSize = s.sp.buf
  fails : r = .fail ↔ FlushFails pa s.sp.buf s
  log : ∃ es, t.trace.flashLog = s.trace.flashLog ++ es ∧
    ((replayFlash es s).flash = t.flash ∧ (replayFlash es s).env = t.env) ∧
    FlushOrder pa s es ∧
    ((r = .skip ∧ es = [.isErased pa, .read pa]) ∨
     (r ≠ .skip ∧
      (((es = [.isErased pa, .program pa s.sp.buf, .read pa] ∨
         es = [.isErased pa, .read pa, .erase pa, .program pa s.sp.buf, .read pa]) ∧
        (r = .fail → Memory.readBytes t.flash pa.toNat s.cfg.pageSize ≠ s.sp.buf)) ∨
       (r = .fail ∧
        (es = [.isErased pa, .program pa s.sp.buf] ∨
         es = [.isErased pa, .read pa, .erase pa] ∨
         es = [.isErased pa, .read pa, .erase pa, .program pa s.sp.buf])))))


/-- The state at the end of a flush with result `r` (R28, R237). -/
theorem flushDone_eq (r : FlushResult) (pa : Word) (s : State) :
    flushDone r pa s = (r, { s with sp := { s.sp with
      buf := List.replicate s.cfg.pageSize erasedByte
      pending := false
      lastValid := if r = .fail then s.sp.lastValid else true
      lastPage := if r = .fail then s.sp.lastPage else pa } }) := by
  cases r <;> rfl

/-- Program and verify, by the oracle's answer (R230, R234, R235). -/
theorem programAndVerify_eq (pa : Word) (s : State) :
    programAndVerify pa s =
      (let d := (nextDraw s).1
       let f := Memory.writeBytes s.flash pa.toNat
         (programmedBytes s.cfg (Memory.readBytes s.flash pa.toNat s.sp.buf.length) s.sp.buf d)
       let t : State := { s with
         flash := f
         trace := { s.trace with flashLog := s.trace.flashLog ++ [.program pa s.sp.buf] }
         env := (nextDraw s).2.env }
       let u : State := { t with
         fs := .verifying
         trace := { s.trace with flashLog := s.trace.flashLog ++ [.program pa s.sp.buf, .read pa] } }
       if drawStatus d = .fail then flushDone .fail pa t
       else if Memory.readBytes f pa.toNat s.cfg.pageSize = s.sp.buf then
         flushDone .ok pa { u with wc := s.wc + 1#32 }
       else flushDone .fail pa u) := by
  unfold programAndVerify
  rw [flashProgram_eq]
  cases hd : drawStatus (nextDraw s).1 with
  | fail => simp only [hd, if_true]
  | ok => simp [hd, flashRead, logFlash, setFs]

/-- What program and verify can do. -/
theorem programAndVerify_spec (pa : Word) (s : State) :
    ∃ r t, programAndVerify pa s = (r, t) ∧ r ≠ .skip ∧
      t = { s with
        fs := t.fs
        wc := t.wc
        flash := t.flash
        env := t.env
        trace := { s.trace with flashLog := t.trace.flashLog }
        sp := { s.sp with
          buf := List.replicate s.cfg.pageSize erasedByte
          pending := false
          lastValid := if r = .fail then s.sp.lastValid else true
          lastPage := if r = .fail then s.sp.lastPage else pa } } ∧
      t.env = (nextDraw s).2.env ∧
      (s.sp.buf.length = s.cfg.pageSize →
        ∀ a, OutsidePage s.cfg pa a → Memory.read t.flash a = Memory.read s.flash a) ∧
      (Memory.wf s.flash = true → Memory.wf t.flash = true) ∧
      t.wc = (if r = .ok then s.wc + 1#32 else s.wc) ∧
      (r ≠ .fail → Memory.readBytes t.flash pa.toNat s.cfg.pageSize = s.sp.buf) ∧
      (r = .fail ↔ ProgramFails pa s.sp.buf s) ∧
      (∃ es, t.trace.flashLog = s.trace.flashLog ++ es ∧
        ((replayFlash es s).flash = t.flash ∧ (replayFlash es s).env = t.env) ∧
        ((es = [.program pa s.sp.buf, .read pa] ∧
            (r = .fail → Memory.readBytes t.flash pa.toNat s.cfg.pageSize ≠ s.sp.buf)) ∨
          (r = .fail ∧ es = [.program pa s.sp.buf]))) := by
  rw [programAndVerify_eq]
  simp only [flushDone_eq]
  have hlen : s.sp.buf.length = s.cfg.pageSize →
      (programmedBytes s.cfg (Memory.readBytes s.flash pa.toNat s.sp.buf.length) s.sp.buf
        (nextDraw s).1).length = s.cfg.pageSize := fun hbuf => programmedBytes_length _ hbuf (by simp)
  have hout : s.sp.buf.length = s.cfg.pageSize → ∀ a, OutsidePage s.cfg pa a →
      Memory.read (Memory.writeBytes s.flash pa.toNat
        (programmedBytes s.cfg (Memory.readBytes s.flash pa.toNat s.sp.buf.length) s.sp.buf (nextDraw s).1)) a =
        Memory.read s.flash a := fun hbuf a ha => Memory.read_writeBytes_outside (by simpa [hlen hbuf] using ha)
  have hfails : ProgramFails pa s.sp.buf s ↔ drawStatus (nextDraw s).1 = .fail ∨
      Memory.readBytes (Memory.writeBytes s.flash pa.toNat
        (programmedBytes s.cfg (Memory.readBytes s.flash pa.toNat s.sp.buf.length) s.sp.buf (nextDraw s).1))
        pa.toNat s.cfg.pageSize ≠ s.sp.buf := by
    unfold ProgramFails pageAt
    simp only [flashProgram_eq]
  have hrep : ∀ es, es = [.program pa s.sp.buf] ∨ es = [.program pa s.sp.buf, .read pa] →
      (replayFlash es s).flash = Memory.writeBytes s.flash pa.toNat
        (programmedBytes s.cfg (Memory.readBytes s.flash pa.toNat s.sp.buf.length) s.sp.buf (nextDraw s).1) ∧
      (replayFlash es s).env = (nextDraw s).2.env := by
    rintro es (rfl | rfl) <;> simp [replayFlash, flashProgram_eq, flashRead, logFlash]
  split
  · rename_i hd
    exact ⟨_, _, rfl, by simp, rfl, rfl, hout, Memory.wf_writeBytes _ _, by simp, by simp,
      iff_of_true rfl (hfails.mpr (Or.inl hd)), _, rfl, hrep _ (Or.inl rfl), Or.inr ⟨rfl, rfl⟩⟩
  · rename_i hd
    split
    · rename_i hr
      refine ⟨_, _, rfl, by simp, rfl, rfl, hout, Memory.wf_writeBytes _ _, by simp, fun _ => hr,
        iff_of_false (by simp) fun h => ?_, _, rfl, hrep _ (Or.inr rfl), Or.inl ⟨rfl, by simp⟩⟩
      rcases hfails.mp h with h | h
      · exact hd h
      · exact h hr
    · rename_i hr
      exact ⟨_, _, rfl, by simp, rfl, rfl, hout, Memory.wf_writeBytes _ _, by simp, by simp,
        iff_of_true rfl (hfails.mpr (Or.inr hr)), _, rfl, hrep _ (Or.inr rfl), Or.inl ⟨rfl, fun _ => hr⟩⟩

/-- The state after the erased check of a flush (R65, R230). -/
def flushChecked (pa : Word) (s : State) : State :=
  { s with fs := .flushing, trace := { s.trace with flashLog := s.trace.flashLog ++ [.isErased pa] } }

/-- The state after the comparison read of a page that is not erased (R66, R230). -/
def flushCompared (pa : Word) (s : State) : State :=
  { s with fs := .flushing, trace := { s.trace with flashLog := s.trace.flashLog ++ [.isErased pa, .read pa] } }

/-- The state after the erase of a page that is not erased (R67, R230). -/
def flushErased (pa : Word) (s : State) : State :=
  { s with
    fs := .flushing
    flash := Memory.writeBytes s.flash pa.toNat (erasedBytes s.cfg (nextDraw s).1)
    trace := { s.trace with flashLog := s.trace.flashLog ++ [.isErased pa, .read pa, .erase pa] }
    env := (nextDraw s).2.env }

/-- The order of a flush (R230 to R233): an erased page is programmed, an equal page skipped, any other page erased and
programmed. -/
theorem flushPage_eq (pa : Word) (s : State) :
    flushPage pa s =
      if Memory.readBytes s.flash pa.toNat s.cfg.pageSize = List.replicate s.cfg.pageSize erasedByte then
        programAndVerify pa (flushChecked pa s)
      else if Memory.readBytes s.flash pa.toNat s.cfg.pageSize = s.sp.buf then
        flushDone .skip pa (flushCompared pa s)
      else if drawStatus (nextDraw s).1 = .fail then flushDone .fail pa (flushErased pa s)
      else programAndVerify pa (flushErased pa s) := by
  have he := flashIsErased_iff pa s.cfg.pageSize (setFs .flushing s)
  have hs : (flashIsErased pa s.cfg.pageSize (setFs .flushing s)).2 = flushChecked pa s := rfl
  have hr : flashRead pa s.cfg.pageSize (flushChecked pa s) =
      (Memory.readBytes s.flash pa.toNat s.cfg.pageSize, flushCompared pa s) := by
    simp [flashRead, logFlash, flushChecked, flushCompared]
  have hd := nextDraw_congr (s := flushCompared pa s) (t := s) rfl
  have hx : flashErase pa (flushCompared pa s) = (drawStatus (nextDraw s).1, flushErased pa s) := by
    rw [flashErase_eq, hd.1, hd.2]
    simp [flushCompared, flushErased]
  unfold flushPage
  revert he hs
  generalize flashIsErased pa s.cfg.pageSize (setFs .flushing s) = q
  obtain ⟨erased, s1⟩ := q
  intro he hs
  simp only at he hs
  subst hs
  simp only [setFs_flash] at he
  by_cases h1 : Memory.readBytes s.flash pa.toNat s.cfg.pageSize = List.replicate s.cfg.pageSize erasedByte
  · rw [if_pos h1, he.mpr h1]
  · have hf : erased = false := by
      cases erased with
      | false => rfl
      | true => exact absurd (he.mp rfl) h1
    subst hf
    rw [if_neg h1]
    simp only [hr]
    by_cases h2 : Memory.readBytes s.flash pa.toNat s.cfg.pageSize = s.sp.buf
    · rw [if_pos h2, if_pos (by exact h2)]
    · rw [if_neg h2, if_neg (by exact h2), hx]
      cases drawStatus (nextDraw s).1 <;> simp

/-- What a flush can do (R230 to R237). -/
theorem flushPage_spec (pa : Word) (s : State) :
    ∃ r t, flushPage pa s = (r, t) ∧ FlushSpec pa s r t := by
  have hfails : FlushFails pa s.sp.buf s ↔
      if Memory.readBytes s.flash pa.toNat s.cfg.pageSize = List.replicate s.cfg.pageSize erasedByte then
        ProgramFails pa s.sp.buf s
      else Memory.readBytes s.flash pa.toNat s.cfg.pageSize ≠ s.sp.buf ∧
        (drawStatus (nextDraw s).1 = .fail ∨ ProgramFails pa s.sp.buf (flashErase pa s).2) := by
    unfold FlushFails pageAt erasedPage
    rw [flashErase_eq]
  rw [flushPage_eq]
  split
  · rename_i he
    rw [if_pos he] at hfails
    obtain ⟨r, t, h, hr, hsame, henv, hout, hwf, hcount, hdata, hf, es, hlog, hrep, hes⟩ :=
      programAndVerify_spec pa (flushChecked pa s)
    have hcong := replayFlash_congr (s := (flashIsErased pa s.cfg.pageSize s).2) (t := flushChecked pa s) es rfl rfl rfl
    refine ⟨r, t, h, ⟨hsame, ?_, hout, hwf, hcount, iff_of_false hr fun h' => h'.1 he, fun h' => absurd h' hr, hdata, ?_, ?_⟩⟩
    · rw [henv, nextDraw_events]; rfl
    · exact hf.trans (Iff.trans (ProgramFails_congr (staged := s.sp.buf) (t := s) rfl rfl rfl) hfails.symm)
    · refine ⟨.isErased pa :: es, by rw [hlog]; simp [flushChecked], ⟨hcong.1.trans hrep.1, hcong.2.trans hrep.2⟩, ?_, ?_⟩
      · unfold FlushOrder
        rw [if_pos (show pageAt s pa = erasedPage s.cfg from he)]
        rcases hes with ⟨rfl, -⟩ | ⟨-, rfl⟩
        · exact ⟨[.read pa], rfl⟩
        · exact ⟨[], rfl⟩
      rcases hes with ⟨rfl, hne⟩ | ⟨hfail, rfl⟩
      · exact Or.inr ⟨hr, Or.inl ⟨Or.inl rfl, hne⟩⟩
      · exact Or.inr ⟨hr, Or.inr ⟨hfail, Or.inl rfl⟩⟩
  · rename_i he
    rw [if_neg he] at hfails
    have horder : ∀ es, [.isErased pa, .read pa] <+: es →
        (pageAt s pa ≠ s.sp.buf → [.isErased pa, .read pa, .erase pa] <+: es ∧
          (drawStatus (nextDraw s).1 = .ok → [.isErased pa, .read pa, .erase pa, .program pa s.sp.buf] <+: es)) →
        FlushOrder pa s es := by
      intro es h1 h2
      unfold FlushOrder
      rw [if_neg (show ¬ pageAt s pa = erasedPage s.cfg from he)]
      exact ⟨h1, h2⟩
    split
    · rename_i heq
      rw [flushDone_eq]
      exact ⟨_, _, rfl, ⟨by simp [flushCompared], rfl, fun _ _ _ => rfl, id, rfl, iff_of_true rfl ⟨he, heq⟩, fun _ => rfl,
        fun _ => heq,
        iff_of_false (by simp) (fun h => (hfails.mp h).1 heq),
        ⟨_, rfl, ⟨rfl, rfl⟩, horder _ ⟨[], rfl⟩ fun hne => absurd heq hne, Or.inl ⟨rfl, rfl⟩⟩⟩⟩
    · rename_i hne
      have hout : ∀ a, OutsidePage s.cfg pa a →
          Memory.read (flushErased pa s).flash a = Memory.read s.flash a := fun a ha =>
        Memory.read_writeBytes_outside (by simpa using ha)
      have hwf : Memory.wf s.flash = true → Memory.wf (flushErased pa s).flash = true :=
        Memory.wf_writeBytes _ _
      have hrep₀ : ∀ es, (replayFlash (.isErased pa :: .read pa :: .erase pa :: es) s).flash =
            (replayFlash es (flushErased pa s)).flash ∧
          (replayFlash (.isErased pa :: .read pa :: .erase pa :: es) s).env =
            (replayFlash es (flushErased pa s)).env := by
        intro es
        have hd := nextDraw_congr (s := (flashRead pa s.cfg.pageSize (flashIsErased pa s.cfg.pageSize s).2).2) (t := s) rfl
        refine replayFlash_congr es ?_ ?_ ?_ <;> erw [flashErase_eq]
        · rfl
        · exact congrArg (fun d => Memory.writeBytes s.flash pa.toNat (erasedBytes s.cfg d)) hd.1
        · exact hd.2
      split
      · rename_i hd
        rw [flushDone_eq]
        exact ⟨_, _, rfl, ⟨by simp [flushErased], nextDraw_events s, fun _ => hout, hwf, rfl,
          iff_of_false (by simp) fun h' => hne h'.2, by simp, by simp,
          iff_of_true rfl (hfails.mpr ⟨hne, Or.inl hd⟩),
          ⟨_, rfl, hrep₀ [], horder _ ⟨[.erase pa], rfl⟩ fun _ =>
            ⟨⟨[], rfl⟩, fun hok => by rw [hd] at hok; cases hok⟩, Or.inr ⟨by simp, Or.inr ⟨rfl, Or.inr (Or.inl rfl)⟩⟩⟩⟩⟩
      · rename_i hd
        obtain ⟨r, t, h, hr, hsame, henv, hout', hwf', hcount, hdata, hf, es, hlog, hrep, hes⟩ :=
          programAndVerify_spec pa (flushErased pa s)
        refine ⟨r, t, h, ⟨hsame, ?_, fun hb a ha => (hout' hb a ha).trans (hout a ha), fun hw => hwf' (hwf hw), hcount,
          iff_of_false hr fun h' => hne h'.2, fun h' => absurd h' hr, hdata, ?_, ?_⟩⟩
        · rw [henv, nextDraw_events]; exact nextDraw_events s
        · have hp : ProgramFails pa s.sp.buf (flushErased pa s) ↔ ProgramFails pa s.sp.buf (flashErase pa s).2 := by
            rw [flashErase_eq]
            exact ProgramFails_congr rfl rfl rfl
          exact (hf.trans hp).trans
            ⟨fun h => hfails.mpr ⟨hne, Or.inr h⟩, fun h => (hfails.mp h).2.resolve_left hd⟩
        · obtain ⟨h1, h2⟩ := hrep₀ es
          refine ⟨.isErased pa :: .read pa :: .erase pa :: es, by rw [hlog]; simp [flushErased],
            ⟨h1.trans hrep.1, h2.trans hrep.2⟩, horder _ ⟨.erase pa :: es, rfl⟩ fun _ => ⟨⟨es, rfl⟩, fun _ => ?_⟩, ?_⟩
          · rcases hes with ⟨rfl, -⟩ | ⟨-, rfl⟩
            · exact ⟨[.read pa], rfl⟩
            · exact ⟨[], rfl⟩
          rcases hes with ⟨rfl, hne'⟩ | ⟨hfail, rfl⟩
          · exact Or.inr ⟨hr, Or.inl ⟨Or.inr rfl, hne'⟩⟩
          · exact Or.inr ⟨hr, Or.inr ⟨hfail, Or.inr (Or.inr rfl)⟩⟩

/-- A flush either has no page to write, or does what `FlushSpec` says. -/
theorem flush_spec (pa : Word) (s : State) :
    (flush pa s = none ∧ ¬ Flushable s.cfg pa) ∨
    (Flushable s.cfg pa ∧ ∃ r t, flush pa s = some (r, t) ∧ FlushSpec pa s r t) := by
  unfold flush
  split
  · obtain ⟨r, t, h, hs⟩ := flushPage_spec pa s
    exact Or.inr ⟨‹_›, r, t, by rw [h], hs⟩
  · exact Or.inl ⟨rfl, ‹_›⟩

/-- What a command that flushes can do: nothing but a fault where the page does not exist, the failure of R236, or the
command's own continuation after a flush that did not fail. -/
theorem flushThen_spec (k : State → State) (s : State) :
    (¬ Flushable s.cfg s.sp.addr ∧ flushThen k s = .fault .flashRange) ∨
    (Flushable s.cfg s.sp.addr ∧ ∃ r t, FlushSpec s.sp.addr s r t ∧
      flushThen k s = .next (if r = .fail then flushFailed t else k t)) := by
  unfold flushThen
  rcases flush_spec s.sp.addr s with ⟨h, hn⟩ | ⟨hf, r, t, h, hs⟩
  · exact Or.inl ⟨hn, by rw [h]⟩
  · refine Or.inr ⟨hf, r, t, hs, ?_⟩
    rw [h]
    cases r <;> rfl

end Sys2Proof.Machine
end

