-- ==== Sys2Proof/Laws/Exec.lean ====
section
/-! SUPPORT. What each instruction can do: the geometry of blocks and pages, one lemma per command that names its cases,
and `exec_cases` for all of them. -/

namespace Sys2Proof.Machine

open Host (Outcome)

/-! ## Geometry -/

/-- A block has at least one byte (R8). -/
theorem Cfg_Ok_blockSize_pos {c : Cfg} (h : c.Ok) : 0 < c.blockSize := by
  obtain ⟨-, ⟨h1, h2⟩, -⟩ := h
  rcases Nat.eq_zero_or_pos c.blockSize with h0 | h0
  · rw [h0, Nat.mod_zero] at h2
    omega
  · exact h0

/-- A block-aligned block never crosses its page's end (R62). -/
theorem block_in_page {a b p : Nat} (hp : 0 < p) (hd : p % b = 0) (ha : a % b = 0) : a % p + b ≤ p := by
  have h1 : (a % p) % b = 0 := by
    rw [Nat.mod_mod_of_dvd a (Nat.dvd_of_mod_eq_zero hd)]
    exact ha
  obtain ⟨k, hk⟩ := Nat.dvd_of_mod_eq_zero hd
  obtain ⟨j, hj⟩ := Nat.dvd_of_mod_eq_zero h1
  have h2 : a % p < p := Nat.mod_lt _ hp
  have h3 : j < k := by
    by_contra h
    have := Nat.mul_le_mul_left b (not_lt.mp h)
    omega
  have h4 := Nat.mul_le_mul_left b (Nat.succ_le_of_lt h3)
  rw [Nat.mul_succ] at h4
  omega

/-- The pages fill the flash array (R10). -/
theorem Cfg_Ok_pages {c : Cfg} (h : c.Ok) : c.flashBase + c.pages * c.pageSize = c.flashEnd := by
  obtain ⟨-, -, ⟨-, hba, hae⟩, hb, ⟨-, he⟩, -⟩ := h
  unfold Cfg.pages
  have hd := (Nat.dvd_of_mod_eq_zero he)
  have hd' := Nat.dvd_sub hd (Nat.dvd_of_mod_eq_zero hb)
  rw [Nat.div_mul_cancel hd']
  omega

theorem pageBase_toNat (c : Cfg) (a : Word) : (pageBase c a).toNat = a.toNat - a.toNat % c.pageSize := by
  have := a.isLt
  unfold pageBase pageOff
  rw [BitVec.toNat_ofNat]
  exact Nat.mod_eq_of_lt (by omega)

theorem pageBase_toNat_add (c : Cfg) (a : Word) : (pageBase c a).toNat + pageOff c a = a.toNat := by
  rw [pageBase_toNat]
  exact Nat.sub_add_cancel (Nat.mod_le _ _)

/-- The page of a good address exists (R63, R64). -/
theorem pageBase_flushable {c : Cfg} {a : Word} (hc : c.Ok) (ha : AddrOk c a) : Flushable c (pageBase c a) := by
  obtain ⟨h1, h2, h3⟩ := ha
  have hpos := Cfg_Ok_blockSize_pos hc
  obtain ⟨-, ⟨hp, hpb⟩, ⟨happ, -, -⟩, -, ⟨-, hend⟩, -⟩ := hc
  have hmod : (a.toNat - a.toNat % c.pageSize) % c.pageSize = 0 := Nat.sub_mod_eq_zero_of_mod_eq (by simp)
  refine ⟨by rw [pageBase_toNat]; exact hmod, ?_, ?_⟩
  · rw [pageBase_toNat]
    obtain ⟨k, hk⟩ := Nat.dvd_of_mod_eq_zero happ
    obtain ⟨j, hj⟩ := Nat.dvd_of_mod_eq_zero hmod
    have hlt := Nat.mod_lt a.toNat hp
    by_contra h
    have hjk : j + 1 ≤ k := by
      by_contra h'
      have := Nat.mul_le_mul_left c.pageSize (by omega : k ≤ j)
      omega
    have := Nat.mul_le_mul_left c.pageSize hjk
    rw [Nat.mul_succ] at this
    omega
  · rw [pageBase_toNat]
    obtain ⟨k, hk⟩ := Nat.dvd_of_mod_eq_zero hend
    obtain ⟨j, hj⟩ := Nat.dvd_of_mod_eq_zero hmod
    have hlt := Nat.mod_le a.toNat c.pageSize
    have hjk : j < k := by
      by_contra h'
      have := Nat.mul_le_mul_left c.pageSize (by omega : k ≤ j)
      omega
    have := Nat.mul_le_mul_left c.pageSize (Nat.succ_le_of_lt hjk)
    rw [Nat.mul_succ] at this
    omega

/-- The data of an accepted WRITE_BLOCK is one block (R110). -/
theorem blockData_length {c : Cfg} {payload : List Byte} (hc : c.Ok) (h : wordCount payload = 1 + c.blockWords) :
    (blockData c payload).length = c.blockSize := by
  have hb := hc.1.1
  unfold wordCount Cfg.blockWords at h
  simp [blockData]
  omega

/-- The copy of an accepted block keeps the size of the staging page (R222). -/
theorem staged_length {c : Cfg} {buf payload : List Byte} {addr : Word} (hc : c.Ok) (hb : buf.length = c.pageSize)
    (hw : wordCount payload = 1 + c.blockWords) (ha : AddrOk c addr) :
    pageOff c addr + (blockData c payload).length ≤ buf.length ∧
      (overlay buf (pageOff c addr) (blockData c payload)).length = c.pageSize := by
  have h1 : pageOff c addr + (blockData c payload).length ≤ buf.length := by
    rw [blockData_length hc hw, hb]
    exact block_in_page hc.2.1.1 hc.2.1.2 ha.2.1
  exact ⟨h1, (overlay_length h1).trans hb⟩

/-! ## The commands -/

theorem execConnect_cases (payload : List Byte) (s : State) :
    (wordCount payload ≠ 0 ∧ execConnect payload s = .next (raiseEvent .argCount s)) ∨
    (wordCount payload = 0 ∧ execConnect payload s =
      .next (emit s.prof.rspAck (connectAck s.cfg s.prof)
        { s with
          sp := { s.sp with buf := List.replicate s.cfg.pageSize erasedByte, pending := false, lastValid := false }
          wc := 0#32, fs := .idle, xs := xsAfter s .receiving })) := by
  unfold execConnect
  by_cases h : wordCount payload = 0
  · refine Or.inr ⟨h, ?_⟩
    rw [if_neg (not_not.mpr h)]
    unfold setXs xsAfter
    by_cases hx : s.xs = .complete <;> simp [hx, clearStaging, setFs]
  · exact Or.inl ⟨h, by rw [if_pos h]⟩

theorem execComplete_cases (payload : List Byte) (s : State) :
    (wordCount payload ≠ 0 ∧ execComplete payload s = .next (raiseEvent .argCount s)) ∨
    (wordCount payload = 0 ∧ execComplete payload s =
      .next (emit s.prof.rspAck (completeAck s.prof)
        { s with
          sp := { s.sp with buf := List.replicate s.cfg.pageSize erasedByte, pending := false }
          fs := .idle, xs := .complete, gt := s.cfg.graceTicks })) := by
  unfold execComplete
  by_cases h : wordCount payload = 0
  · exact Or.inr ⟨h, by rw [if_neg (not_not.mpr h)]; rfl⟩
  · exact Or.inl ⟨h, by rw [if_pos h]⟩

theorem execGetTransportId_cases (payload : List Byte) (s : State) :
    (wordCount payload ≠ 0 ∧ execGetTransportId payload s = .next (raiseEvent .argCount s)) ∨
    (wordCount payload = 0 ∧ execGetTransportId payload s =
      .next (emit s.prof.rspAck (transportIdAck s.cfg s.prof) s)) := by
  unfold execGetTransportId
  by_cases h : wordCount payload = 0
  · exact Or.inr ⟨h, by rw [if_neg (not_not.mpr h)]⟩
  · exact Or.inl ⟨h, by rw [if_pos h]⟩

/-- A response does not read or write `XS` (R260). -/
theorem setXs_txSend (v : TransferState) (f : List Byte) (s : State) :
    setXs v (txSend f s) = txSend f (setXs v s) := by
  unfold setXs txSend
  split <;> split <;> simp_all

/-- READ_BLOCK's excursion to TRANSMITTING leaves no trace (R285, R286). -/
theorem execReadBlock_cases (payload : List Byte) (s : State) :
    let addr := payloadWord s.prof payload 0
    (wordCount payload ≠ 1 ∧ execReadBlock payload s = .next (raiseEvent .argCount s)) ∨
    (wordCount payload = 1 ∧ ¬ AddrOk s.cfg addr ∧ execReadBlock payload s = .next (raiseEvent .addr s)) ∨
    (wordCount payload = 1 ∧ AddrOk s.cfg addr ∧ ¬ Readable s.cfg addr s.cfg.blockSize ∧
      execReadBlock payload s = .fault .flashRange) ∨
    (wordCount payload = 1 ∧ AddrOk s.cfg addr ∧ Readable s.cfg addr s.cfg.blockSize ∧
      execReadBlock payload s =
        .next (emit s.prof.rspAck
          (readBlockAck s.prof addr (Memory.readBytes s.flash addr.toNat s.cfg.blockSize)) s)) := by
  intro addr
  unfold execReadBlock
  by_cases h : wordCount payload = 1
  · rw [if_neg (not_not.mpr h)]
    refine Or.inr ?_
    dsimp only
    by_cases ha : AddrOk s.cfg addr
    · rw [if_neg (not_not.mpr ha)]
      refine Or.inr ?_
      by_cases hr : Readable s.cfg addr s.cfg.blockSize
      · rw [if_neg (not_not.mpr hr)]
        refine Or.inr ⟨h, ha, hr, ?_⟩
        have hset : setXs s.xs (setXs .transmitting s) = s := by
          unfold setXs
          by_cases hx : s.xs = .complete <;> simp [hx]
        unfold emit
        rw [setXs_txSend, hset]
        simp
        rfl
      · exact Or.inl ⟨h, ha, hr, by rw [if_pos hr]⟩
    · exact Or.inl ⟨h, ha, by rw [if_pos ha]⟩
  · exact Or.inl ⟨h, by rw [if_pos h]⟩

/-- The state after the copy of an accepted block (R221, R222). -/
theorem stageBlock_eq (addr : Word) (data : List Byte) (s : State) :
    stageBlock addr data s =
      { s with
        sp := { s.sp with buf := overlay s.sp.buf (pageOff s.cfg addr) data, pending := true,
                          addr := pageBase s.cfg addr }
        fs := .accumulating, xs := xsAfter s .receiving } := by
  unfold stageBlock setXs xsAfter
  by_cases hx : s.xs = .complete <;> simp [hx, setFs]

theorem ackWriteBlock_eq (addr : Word) (s : State) :
    ackWriteBlock addr s = emit s.prof.rspAck (writeBlockAck s.prof addr) { s with fs := .accumulating } := rfl

theorem ackEof_eq (s : State) :
    ackEof s = emit s.prof.rspAck (eofAck s.prof s.wc) { s with fs := .done, xs := xsAfter s .eofPending } := by
  unfold ackEof setXs xsAfter
  by_cases hx : s.xs = .complete <;> simp [hx, setFs]

theorem flushFailed_eq (s : State) :
    flushFailed s = emit s.prof.rspCmdError [] { s with fs := .idle, xs := xsAfter s .idle } := by
  unfold flushFailed
  rw [raiseEvent_command _ _ (Or.inr (Or.inr (Or.inr rfl)))]
  unfold setXs xsAfter
  by_cases hx : s.xs = .complete <;> simp [hx, setFs]

/-- What a WRITE_BLOCK can do (R221). -/
theorem execWriteBlock_cases (payload : List Byte) (s : State) :
    let addr := payloadWord s.prof payload 0
    let t := stageBlock addr (blockData s.cfg payload) s
    (wordCount payload ≠ 1 + s.cfg.blockWords ∧ execWriteBlock payload s = .next (raiseEvent .argCount s)) ∨
    (wordCount payload = 1 + s.cfg.blockWords ∧ ¬ AddrOk s.cfg addr ∧
      execWriteBlock payload s = .next (raiseEvent .addr s)) ∨
    (wordCount payload = 1 + s.cfg.blockWords ∧ AddrOk s.cfg addr ∧ ¬ AtPageEnd s.cfg addr ∧
      execWriteBlock payload s = .next (ackWriteBlock addr t)) ∨
    (wordCount payload = 1 + s.cfg.blockWords ∧ AddrOk s.cfg addr ∧ AtPageEnd s.cfg addr ∧
      ¬ Flushable s.cfg (pageBase s.cfg addr) ∧ execWriteBlock payload s = .fault .flashRange) ∨
    (wordCount payload = 1 + s.cfg.blockWords ∧ AddrOk s.cfg addr ∧ AtPageEnd s.cfg addr ∧
      Flushable s.cfg (pageBase s.cfg addr) ∧ ∃ r u, FlushSpec (pageBase s.cfg addr) t r u ∧
        flush (pageBase s.cfg addr) t = some (r, u) ∧
        execWriteBlock payload s = .next (if r = .fail then flushFailed u else ackWriteBlock addr u)) := by
  intro addr t
  unfold execWriteBlock
  by_cases h : wordCount payload = 1 + s.cfg.blockWords
  · rw [if_neg (not_not.mpr h)]
    refine Or.inr ?_
    dsimp only
    by_cases ha : AddrOk s.cfg addr
    · rw [if_neg (not_not.mpr ha)]
      refine Or.inr ?_
      by_cases he : AtPageEnd s.cfg addr
      · rw [if_pos he]
        refine Or.inr ?_
        have hta : t.sp.addr = pageBase s.cfg addr := by simp only [t, stageBlock_eq]
        have htc : t.cfg = s.cfg := by simp only [t, stageBlock_eq]
        have hshow : flushThen (ackWriteBlock addr) t = match flush (pageBase s.cfg addr) t with
          | none => Outcome.fault Fault.flashRange
          | some (.fail, t) => .next (flushFailed t)
          | some (.ok, t) => .next (ackWriteBlock addr t)
          | some (.skip, t) => .next (ackWriteBlock addr t) := by
          rw [← hta]; rfl
        rcases flush_spec (pageBase s.cfg addr) t with ⟨hn, hf⟩ | ⟨hf, r, u, hru, hs⟩
        · exact Or.inl ⟨h, ha, he, by rwa [htc] at hf, by rw [hn] at hshow; exact hshow⟩
        · refine Or.inr ⟨h, ha, he, by rwa [htc] at hf, r, u, hs, hru, ?_⟩
          rw [hru] at hshow
          refine hshow.trans ?_
          cases r <;> rfl
      · exact Or.inl ⟨h, ha, he, by rw [if_neg he]⟩
    · exact Or.inl ⟨h, ha, by rw [if_pos ha]⟩
  · exact Or.inl ⟨h, by rw [if_pos h]⟩

/-- What an END_OF_FILE can do (R240). -/
theorem execEndOfFile_cases (payload : List Byte) (s : State) :
    (wordCount payload ≠ 0 ∧ execEndOfFile payload s = .next (raiseEvent .argCount s)) ∨
    (wordCount payload = 0 ∧ s.sp.pending = false ∧ execEndOfFile payload s = .next (ackEof s)) ∨
    (wordCount payload = 0 ∧ s.sp.pending = true ∧ ¬ Flushable s.cfg s.sp.addr ∧
      execEndOfFile payload s = .fault .flashRange) ∨
    (wordCount payload = 0 ∧ s.sp.pending = true ∧ Flushable s.cfg s.sp.addr ∧
      ∃ r u, FlushSpec s.sp.addr s r u ∧ flush s.sp.addr s = some (r, u) ∧
        execEndOfFile payload s = .next (if r = .fail then flushFailed u else ackEof u)) := by
  unfold execEndOfFile
  by_cases h : wordCount payload = 0
  · rw [if_neg (not_not.mpr h)]
    refine Or.inr ?_
    cases hp : s.sp.pending with
    | false => exact Or.inl ⟨h, rfl, by rw [if_neg (by simp)]⟩
    | true =>
      rw [if_pos rfl]
      refine Or.inr ?_
      unfold flushThen
      rcases flush_spec s.sp.addr s with ⟨hn, hf⟩ | ⟨hf, r, u, hru, hs⟩
      · exact Or.inl ⟨h, rfl, hf, by rw [hn]⟩
      · refine Or.inr ⟨h, rfl, hf, r, u, hs, hru, ?_⟩
        rw [hru]
        cases r <;> rfl
  · exact Or.inl ⟨h, by rw [if_pos h]⟩

/-- The instructions that only answer: responses, unknown commands and rejected ones (R203, R207, R260). -/
theorem exec_response (i : Instr) (s : State) (h : i.isRequest = false) :
    exec i s = .next (txSend (encode s.prof i) s) := by
  cases i <;> simp [Instr.isRequest] at h <;> rfl

/-! ## All instructions at once -/

/-- The state `u` of an instruction just before its one response is offered. -/
inductive ExecShape (i : Instr) (s : State) : State → Prop where
  /-- Nothing but the response: responses, unknown and rejected commands, READ_BLOCK, GET_TRANSPORT_ID. -/
  | same (h : flushTarget i s = none) : ExecShape i s s
  /-- CONNECT accepted (R283). -/
  | connect (payload : List Byte) (h : i = .connect payload) :
    ExecShape i s { s with
      sp := { s.sp with buf := List.replicate s.cfg.pageSize erasedByte, pending := false, lastValid := false }
      wc := 0#32, fs := .idle, xs := xsAfter s .receiving }
  /-- COMPLETE accepted (R287). -/
  | complete (payload : List Byte) (h : i = .complete payload) :
    ExecShape i s { s with
      sp := { s.sp with buf := List.replicate s.cfg.pageSize erasedByte, pending := false }
      fs := .idle, xs := .complete, gt := s.cfg.graceTicks }
  /-- WRITE_BLOCK accepted, no flush (R221). -/
  | staged (payload : List Byte) (h : i = .writeBlock payload) (hw : wordCount payload = 1 + s.cfg.blockWords)
      (ha : AddrOk s.cfg (payloadWord s.prof payload 0)) (ht : flushTarget i s = none) :
    ExecShape i s (stageBlock (payloadWord s.prof payload 0) (blockData s.cfg payload) s)
  /-- END_OF_FILE accepted, nothing pending (R240). -/
  | eof (payload : List Byte) (h : i = .endOfFile payload) (hp : s.sp.pending = false) (ht : flushTarget i s = none) :
    ExecShape i s { s with fs := .done, xs := xsAfter s .eofPending }
  /-- A command that flushed: `v` is the state it flushed from, `w` the state after the flush. -/
  | flushed (pa : Word) (v w : State) (r : FlushResult) (fs : FlashState) (xs : TransferState)
      (ht : flushTarget i s = some pa) (hf : Flushable s.cfg pa)
      (hv : v = { s with sp := { s.sp with buf := stagedPage i s, pending := true, addr := pa }, fs := v.fs, xs := v.xs })
      (hx : s.xs = .complete → v.xs = .complete) (hs : FlushSpec pa v r w) (hfs : fs = .idle ∨ fs = .accumulating ∨ fs = .done)
      (hxs : xs ≠ .transmitting) (hxc : w.xs = .complete → xs = .complete) (hfail : r = .fail → fs = .idle) :
    ExecShape i s { w with fs := fs, xs := xs }

theorem xsAfter_ne {s : State} {v : TransferState} (h : v ≠ .transmitting) : xsAfter s v ≠ .transmitting := by
  unfold xsAfter
  split
  · simp
  · exact h

theorem xsAfter_complete {s : State} {v : TransferState} (h : s.xs = .complete) : xsAfter s v = .complete := by
  simp [xsAfter, h]

/-- Every instruction that goes on offers one response from a state of `ExecShape` (R201). -/
theorem exec_shape {i : Instr} {s t : State} (h : exec i s = .next t) :
    ∃ u code payload, ExecShape i s u ∧ t = txSend (buildFrame s.prof s.prof.crcFromTx code payload) u ∧
      (i.isRequest = true → code = s.prof.rspAck ∨ (code = s.prof.rspCmdError ∧ payload = [])) := by
  by_cases hr : i.isRequest = false
  · rw [exec_response i s hr] at h
    cases h
    refine ⟨s, codeByte s.prof i, i.payload, .same (by cases i <;> simp [Instr.isRequest] at hr <;> rfl), ?_, by simp [hr]⟩
    unfold encode
    rw [hr]
    rfl
  cases i with
  | connect payload =>
    simp only [exec] at h
    rcases execConnect_cases payload s with ⟨-, h'⟩ | ⟨-, h'⟩ <;> rw [h'] at h <;> cases h
    · exact ⟨s, _, [], .same rfl, rfl, fun _ => Or.inr ⟨rfl, rfl⟩⟩
    · exact ⟨_, _, _, .connect payload rfl, rfl, fun _ => Or.inl rfl⟩
  | complete payload =>
    simp only [exec] at h
    rcases execComplete_cases payload s with ⟨-, h'⟩ | ⟨-, h'⟩ <;> rw [h'] at h <;> cases h
    · exact ⟨s, _, [], .same rfl, rfl, fun _ => Or.inr ⟨rfl, rfl⟩⟩
    · exact ⟨_, _, _, .complete payload rfl, rfl, fun _ => Or.inl rfl⟩
  | getTransportId payload =>
    simp only [exec] at h
    rcases execGetTransportId_cases payload s with ⟨-, h'⟩ | ⟨-, h'⟩ <;> rw [h'] at h <;> cases h
    · exact ⟨s, _, [], .same rfl, rfl, fun _ => Or.inr ⟨rfl, rfl⟩⟩
    · exact ⟨s, _, _, .same rfl, rfl, fun _ => Or.inl rfl⟩
  | readBlock payload =>
    simp only [exec] at h
    rcases execReadBlock_cases payload s with ⟨-, h'⟩ | ⟨-, -, h'⟩ | ⟨-, -, -, h'⟩ | ⟨-, -, -, h'⟩ <;> rw [h'] at h <;>
      cases h
    · exact ⟨s, _, [], .same rfl, rfl, fun _ => Or.inr ⟨rfl, rfl⟩⟩
    · exact ⟨s, _, [], .same rfl, rfl, fun _ => Or.inr ⟨rfl, rfl⟩⟩
    · exact ⟨s, _, _, .same rfl, rfl, fun _ => Or.inl rfl⟩
  | unknown cmd payload =>
    simp only [exec, execUnknown] at h
    cases h
    exact ⟨s, _, [], .same rfl, rfl, fun _ => Or.inr ⟨rfl, rfl⟩⟩
  | writeBlock payload =>
    simp only [exec] at h
    rcases execWriteBlock_cases payload s with ⟨hw, h'⟩ | ⟨hw, ha, h'⟩ | ⟨hw, ha, he, h'⟩ |
      ⟨-, -, -, -, h'⟩ | ⟨hw, ha, he, hf, r, u, hs, -, h'⟩ <;> rw [h'] at h <;> cases h
    · exact ⟨s, _, [], .same (by simp only [flushTarget]; rw [if_neg (fun hh => hw hh.1)]), rfl,
        fun _ => Or.inr ⟨rfl, rfl⟩⟩
    · exact ⟨s, _, [], .same (by simp only [flushTarget]; rw [if_neg (fun hh => ha hh.2.1)]), rfl,
        fun _ => Or.inr ⟨rfl, rfl⟩⟩
    · refine ⟨_, _, writeBlockAck s.prof (payloadWord s.prof payload 0), .staged payload rfl hw ha (by simp only [flushTarget]; rw [if_neg (fun hh => he hh.2.2)]),
        ?_, fun _ => Or.inl rfl⟩
      rw [ackWriteBlock_eq, stageBlock_eq]
      rfl
    · have ht : flushTarget (.writeBlock payload) s = some (pageBase s.cfg (payloadWord s.prof payload 0)) := by
        simp only [flushTarget]
        rw [if_pos ⟨hw, ha, he⟩]
      have hv := stageBlock_eq (payloadWord s.prof payload 0) (blockData s.cfg payload) s
      have hx : s.xs = .complete →
          (stageBlock (payloadWord s.prof payload 0) (blockData s.cfg payload) s).xs = .complete := by
        intro hx
        rw [hv]
        exact xsAfter_complete hx
      have hprof : u.prof = s.prof := by rw [hs.same, hv]
      have hwx : u.xs = xsAfter s .receiving := by rw [hs.same, hv]
      have hwx' : u.xs ≠ .transmitting := by rw [hwx]; exact xsAfter_ne (by simp)
      by_cases hrf : r = .fail
      · rw [if_pos hrf, flushFailed_eq]
        refine ⟨_, _, [], .flushed _ _ u r .idle (xsAfter u .idle) ht hf ?_ hx hs (Or.inl rfl) (xsAfter_ne (by simp))
          xsAfter_complete (fun _ => rfl), ?_, fun _ => Or.inr ⟨rfl, rfl⟩⟩
        · rw [hv]; rfl
        · unfold emit; rw [← hprof]
      · rw [if_neg hrf, ackWriteBlock_eq]
        refine ⟨_, _, writeBlockAck u.prof (payloadWord s.prof payload 0), .flushed _ _ u r .accumulating u.xs ht hf ?_ hx hs (Or.inr (Or.inl rfl)) hwx' id
          (fun h => absurd h hrf), ?_, fun _ => Or.inl rfl⟩
        · rw [hv]; rfl
        · unfold emit; rw [← hprof]
  | endOfFile payload =>
    simp only [exec] at h
    rcases execEndOfFile_cases payload s with ⟨hw, h'⟩ | ⟨hw, hp, h'⟩ | ⟨hw, hp, hf, h'⟩ |
      ⟨hw, hp, hf, r, u, hs, -, h'⟩ <;> rw [h'] at h <;> cases h
    · exact ⟨s, _, [], .same (by simp only [flushTarget]; rw [if_neg (fun hh => hw hh.1)]), rfl,
        fun _ => Or.inr ⟨rfl, rfl⟩⟩
    · rw [ackEof_eq]
      exact ⟨_, _, _, .eof payload rfl hp (by simp [flushTarget, hp]), rfl, fun _ => Or.inl rfl⟩
    · have ht : flushTarget (.endOfFile payload) s = some s.sp.addr := by
        simp only [flushTarget]
        rw [if_pos ⟨hw, hp⟩]
      have hv : s = { s with sp := { s.sp with buf := stagedPage (.endOfFile payload) s, pending := true, addr := s.sp.addr }, fs := s.fs, xs := s.xs } := by
        rw [← hp]; rfl
      have hprof : u.prof = s.prof := by rw [hs.same]
      by_cases hrf : r = .fail
      · rw [if_pos hrf, flushFailed_eq]
        refine ⟨_, _, [], .flushed _ s u r .idle (xsAfter u .idle) ht hf hv id hs (Or.inl rfl) (xsAfter_ne (by simp))
          xsAfter_complete (fun _ => rfl), ?_, fun _ => Or.inr ⟨rfl, rfl⟩⟩
        unfold emit; rw [← hprof]
      · rw [if_neg hrf, ackEof_eq]
        refine ⟨_, _, eofAck u.prof u.wc, .flushed _ s u r .done (xsAfter u .eofPending) ht hf hv id hs (Or.inr (Or.inr rfl))
          (xsAfter_ne (by simp)) xsAfter_complete (fun h => absurd h hrf), ?_, fun _ => Or.inl rfl⟩
        unfold emit; rw [← hprof]
  | ack _ | nackLen | nackTrailer | nackCrc | nackCmd | commandError => exact absurd rfl hr

end Sys2Proof.Machine
end

