-- ==== Sys2Proof/Laws/PerInstr.lean ====
section
/-! SUPPORT. Facts about every instruction as syntax, one lemma per constructor. `FrameHead`: the first four bytes and the
length of an instruction's frame (spec/30_encoding.md R100, R102, R130). -/

namespace Sys2Proof.Laws

/-- The frame of `i` begins with the signature and its code; its word count counts its payload, and gives its length. -/
def FrameHead.Statement (i : Instr) : Prop :=
  ∀ p : Prof, PayloadOk i.payload →
    (encode p i).take 3 = [p.sig0, p.sig1, codeByte p i] ∧
    ∃ wc, (encode p i)[3]? = some wc ∧ 4 * wc.toNat = i.payload.length ∧ (encode p i).length = frameLen wc.toNat

theorem FrameHead.of_encode (i : Instr) : FrameHead.Statement i := by
  intro p h
  have hn : (BitVec.ofNat 8 (i.payload.length / 4)).toNat = i.payload.length / 4 := by
    rw [BitVec.toNat_ofNat]
    omega
  refine ⟨rfl, _, rfl, by omega, ?_⟩
  rw [hn]
  unfold encode frameLen
  rw [buildFrame_length]
  omega

theorem FrameHead.connect (payload : List Byte) : FrameHead.Statement (.connect payload) := FrameHead.of_encode _

theorem FrameHead.writeBlock (payload : List Byte) : FrameHead.Statement (.writeBlock payload) := FrameHead.of_encode _

theorem FrameHead.endOfFile (payload : List Byte) : FrameHead.Statement (.endOfFile payload) := FrameHead.of_encode _

theorem FrameHead.readBlock (payload : List Byte) : FrameHead.Statement (.readBlock payload) := FrameHead.of_encode _

theorem FrameHead.complete (payload : List Byte) : FrameHead.Statement (.complete payload) := FrameHead.of_encode _

theorem FrameHead.getTransportId (payload : List Byte) : FrameHead.Statement (.getTransportId payload) :=
  FrameHead.of_encode _

theorem FrameHead.unknown (cmd : Byte) (payload : List Byte) : FrameHead.Statement (.unknown cmd payload) :=
  FrameHead.of_encode _

theorem FrameHead.ack (payload : List Byte) : FrameHead.Statement (.ack payload) := FrameHead.of_encode _

theorem FrameHead.nackLen : FrameHead.Statement .nackLen := FrameHead.of_encode _

theorem FrameHead.nackTrailer : FrameHead.Statement .nackTrailer := FrameHead.of_encode _

theorem FrameHead.nackCrc : FrameHead.Statement .nackCrc := FrameHead.of_encode _

theorem FrameHead.nackCmd : FrameHead.Statement .nackCmd := FrameHead.of_encode _

theorem FrameHead.commandError : FrameHead.Statement .commandError := FrameHead.of_encode _

end Sys2Proof.Laws
end

