-- ==== Sys2Proof/Laws/RunLoop.lean ====
section
/-! SUPPORT. What the agents' steps can do: one lemma each for the reframer iteration, the choice of the next step, the cut
iteration and `step`. -/

namespace Sys2Proof.Machine

open Host (Outcome)

/-- What no instruction changes (R77, R207). -/
theorem exec_fields {i : Instr} {s t : State} (h : exec i s = .next t) :
    t.cfg = s.cfg ∧ t.prof = s.prof ∧ t.mode = s.mode ∧ t.jumpApp = s.jumpApp ∧ t.rb = s.rb ∧
      t.env.events = s.env.events := by
  obtain ⟨u, code, payload, hsh, rfl, -⟩ := exec_shape h
  rw [txSend_eq]
  cases hsh with
  | same => simp
  | connect => simp
  | complete => simp
  | staged => simp [stageBlock_eq]
  | eof => simp
  | flushed pa v w r fs xs ht hf hv hx hs =>
    have he := hs.events
    have hw := hs.same
    generalize w.fs = a at hw
    generalize w.wc = b at hw
    generalize w.flash = c at hw
    generalize w.trace.flashLog = d at hw
    generalize hq : w.env = e at hw
    subst hw
    simp only at *
    rw [he, hv]
    simp

/-- The staging page that a command flushes is a whole page (R222, R240). -/
theorem stagedPage_length {i : Instr} {s : State} {pa : Word} (hc : s.cfg.Ok) (hb : s.sp.buf.length = s.cfg.pageSize)
    (ht : flushTarget i s = some pa) : (stagedPage i s).length = s.cfg.pageSize := by
  cases i <;> simp only [flushTarget, stagedPage] at ht ⊢ <;> try exact hb
  split at ht
  · rename_i h
    exact (staged_length hc hb h.1 h.2.1).2
  · cases ht

/-- The flash events of an instruction: none where it flushes nothing, else those of one flush, on its page; they account
for all that it does to flash (R37, R230). -/
theorem exec_events {i : Instr} {s t : State} (hc : s.cfg.Ok) (hb : s.sp.buf.length = s.cfg.pageSize)
    (h : exec i s = .next t) :
    ∃ es, t.trace.flashLog = s.trace.flashLog ++ es ∧ (replayFlash es s).flash = t.flash ∧
      (flushTarget i s = none → es = []) ∧
      ∀ pa, flushTarget i s = some pa → Flushable s.cfg pa ∧ (∀ e ∈ es, OnPage s.cfg pa e) ∧
        FlushOrder pa { s with sp := { s.sp with buf := stagedPage i s } } es := by
  obtain ⟨u, code, payload, hsh, rfl, -⟩ := exec_shape h
  rw [txSend_eq]
  have hnone : ∀ ht : flushTarget i s = none, ∀ pa, flushTarget i s = some pa → Flushable s.cfg pa ∧
      (∀ e ∈ ([] : List FlashEvent), OnPage s.cfg pa e) ∧
      FlushOrder pa { s with sp := { s.sp with buf := stagedPage i s } } [] :=
    fun ht pa hp => by rw [ht] at hp; cases hp
  cases hsh with
  | same ht => exact ⟨[], by simp, rfl, fun _ => rfl, hnone ht⟩
  | connect payload hi => subst hi; exact ⟨[], by simp, rfl, fun _ => rfl, hnone rfl⟩
  | complete payload hi => subst hi; exact ⟨[], by simp, rfl, fun _ => rfl, hnone rfl⟩
  | staged payload hi hw ha ht => exact ⟨[], by simp [stageBlock_eq], by rw [stageBlock_eq]; rfl, fun _ => rfl, hnone ht⟩
  | eof payload hi hp ht => exact ⟨[], by simp, rfl, fun _ => rfl, hnone ht⟩
  | flushed pa v w r fs xs ht hf hv hx hs =>
    obtain ⟨es, hlog, hrep, horder, hes⟩ := hs.log
    have hlen := stagedPage_length hc hb ht
    have hcong := replayFlash_congr (s := s) (t := v) es (by rw [hv]) (by rw [hv]) (by rw [hv])
    have hbuf : v.sp.buf = stagedPage i s := by rw [hv]
    rw [show v.trace = s.trace by rw [hv]] at hlog
    refine ⟨es, hlog, hcong.1.trans hrep.1, fun (hn : flushTarget i s = none) => absurd (ht.symm.trans hn) (by simp), ?_⟩
    intro pa' hp
    rw [ht] at hp
    cases hp
    refine ⟨hf, ?_, ?_⟩
    · rw [hbuf] at hes
      intro e he
      rcases hes with ⟨-, rfl⟩ | ⟨-, ⟨rfl | rfl, -⟩ | ⟨-, rfl | rfl | rfl⟩⟩ <;> simp only [List.mem_cons, List.not_mem_nil, or_false] at he
      · rcases he with rfl | rfl <;> rfl
      · rcases he with rfl | rfl | rfl
        · rfl
        · exact ⟨rfl, hlen⟩
        · rfl
      · rcases he with rfl | rfl | rfl | rfl | rfl
        · rfl
        · rfl
        · rfl
        · exact ⟨rfl, hlen⟩
        · rfl
      · rcases he with rfl | rfl
        · rfl
        · exact ⟨rfl, hlen⟩
      · rcases he with rfl | rfl | rfl <;> rfl
      · rcases he with rfl | rfl | rfl | rfl
        · rfl
        · rfl
        · rfl
        · exact ⟨rfl, hlen⟩
    · unfold FlushOrder pageAt erasedPage at horder ⊢
      rw [hbuf, show v.cfg = s.cfg by rw [hv], show v.flash = s.flash by rw [hv],
        (nextDraw_congr (s := v) (t := s) (by rw [hv])).1] at horder
      rw [(nextDraw_congr (s := { s with sp := { s.sp with buf := stagedPage i s } }) (t := s) rfl).1]
      exact horder

/-- What a reframer iteration can do (R183): run a decoded frame and pass it, pass noise, pass a first byte, answer a
rejected candidate and pass 2 bytes, or wait. -/
theorem iterate_cases {s t : State} (h : iterate s = .next t) :
    (∃ i len, decode s.cfg s.prof s.rb.pending = .ok (i, len) ∧ ∃ u, exec i s = .next u ∧ t = advance len u) ∨
    (∃ k, decode s.cfg s.prof s.rb.pending = .error (.noise k) ∧ t = advance k s) ∨
    (decode s.cfg s.prof s.rb.pending = .error .badSignature ∧ t = advance 1 s) ∨
    (∃ i e, e.Final ∧
      (e = .tooLarge ∧ i = .nackLen ∨ e = .badTrailer ∧ i = .nackTrailer ∨ e = .badCrc ∧ i = .nackCrc) ∧
      decode s.cfg s.prof s.rb.pending = .error e ∧ i.isRequest = false ∧
      ∃ u, exec i s = .next u ∧ t = advance 2 u) ∨
    (Waiting s.cfg s.prof s.rb.pending ∧ t = compact s) := by
  have hw := waiting_iff s.cfg s.prof s.rb.pending
  unfold iterate at h
  split at h
  · rename_i i len hd
    left
    cases he : exec i s with
    | next u => rw [he] at h; cases h; exact ⟨i, len, hd, u, he, rfl⟩
    | fault r => rw [he] at h; cases h
    | refused r => rw [he] at h; cases h
  · rename_i hd; cases h
    exact Or.inr (Or.inr (Or.inr (Or.inr ⟨hw.mpr (Or.inl hd), rfl⟩)))
  · rename_i k hd; cases h
    exact Or.inr (Or.inl ⟨k, hd, rfl⟩)
  · rename_i hd; cases h
    exact Or.inr (Or.inr (Or.inr (Or.inr ⟨hw.mpr (Or.inr (Or.inl hd)), rfl⟩)))
  · rename_i hd; cases h
    exact Or.inr (Or.inr (Or.inl ⟨hd, rfl⟩))
  · rename_i hd; cases h
    exact Or.inr (Or.inr (Or.inr (Or.inl ⟨.nackLen, .tooLarge, trivial, by simp, hd, rfl, _, rfl, rfl⟩)))
  · rename_i hd; cases h
    exact Or.inr (Or.inr (Or.inr (Or.inr ⟨hw.mpr (Or.inr (Or.inr hd)), rfl⟩)))
  · rename_i hd; cases h
    exact Or.inr (Or.inr (Or.inr (Or.inl ⟨.nackTrailer, .badTrailer, trivial, by simp, hd, rfl, _, rfl, rfl⟩)))
  · rename_i hd; cases h
    exact Or.inr (Or.inr (Or.inr (Or.inl ⟨.nackCrc, .badCrc, trivial, by simp, hd, rfl, _, rfl, rfl⟩)))

/-- The flash events of an iteration: those of the instruction it runs, or none; they account for all that it does to
flash (R37, R77). -/
theorem iterate_events {s t : State} (hc : s.cfg.Ok) (hb : s.sp.buf.length = s.cfg.pageSize) (h : iterate s = .next t) :
    ∃ es, t.trace.flashLog = s.trace.flashLog ++ es ∧ (replayFlash es s).flash = t.flash ∧
      (es = [] ∨ ∃ i len pa, decode s.cfg s.prof s.rb.pending = .ok (i, len) ∧ flushTarget i s = some pa ∧
        Flushable s.cfg pa ∧ ∀ e ∈ es, OnPage s.cfg pa e) := by
  rcases iterate_cases h with ⟨i, len, hd, u, hu, rfl⟩ | ⟨k, hd, rfl⟩ | ⟨hd, rfl⟩ | ⟨i, e, hf, -, hd, hr, u, hu, rfl⟩ |
    ⟨hd, rfl⟩
  · obtain ⟨es, hlog, hrep, hnone, hsome⟩ := exec_events hc hb hu
    refine ⟨es, hlog, hrep, ?_⟩
    cases ht : flushTarget i s with
    | none => exact Or.inl (hnone ht)
    | some pa => exact Or.inr ⟨i, len, pa, hd, ht, (hsome pa ht).1, (hsome pa ht).2.1⟩
  · exact ⟨[], by simp, rfl, Or.inl rfl⟩
  · exact ⟨[], by simp, rfl, Or.inl rfl⟩
  · rw [exec_response i s hr] at hu
    cases hu
    exact ⟨[], by rw [advance_trace, txSend_eq]; simp, by rw [advance_flash, txSend_eq]; rfl, Or.inl rfl⟩
  · exact ⟨[], by simp [compact], rfl, Or.inl rfl⟩

/-- The unconsumed bytes are those between the scan position and the fill level (R24). -/
theorem pending_length (s : State) : s.rb.pending.length = s.rb.fill - s.rb.rp := by
  simp [RxBuffer.pending, RxBuffer.fill]

/-- Choosing the next step touches the inputs to come, nothing else. -/
theorem nextEvent_snd (s : State) : (nextEvent s).2 = { s with env := (nextEvent s).2.env } := by
  unfold nextEvent
  split
  · rfl
  · split
    · split <;> rfl
    · rfl

/-- What a cut iteration leaves (R353): the state before it but for flash, the flash events issued and the free values
taken, all by the events that the iteration with the given answers had issued. -/
theorem cutIteration_cases {s t : State} {answers : List FlashDraw} {issued : Nat}
    (h : cutIteration answers issued s = .next t) :
    (t = s ∧ ¬ IterateEnabled s) ∨
    (IterateEnabled s ∧ ∃ u, iterate (withAnswers answers s) = .next u ∧
      let cut := replayFlash ((eventsIssued s u).take issued) (withAnswers answers s)
      t = { s with
        flash := cut.flash
        trace := { s.trace with flashLog := s.trace.flashLog ++ (eventsIssued s u).take issued }
        env := { s.env with drawn := cut.env.drawn } }) := by
  unfold cutIteration at h
  split at h
  · rename_i hen
    refine Or.inr ⟨hen, ?_⟩
    cases hit : iterate (withAnswers answers s) with
    | next u =>
      rw [hit] at h
      cases h
      refine ⟨u, rfl, ?_⟩
      have hcut := replayFlash_same ((eventsIssued s u).take issued) (withAnswers answers s)
      dsimp only
      generalize replayFlash ((eventsIssued s u).take issued) (withAnswers answers s) = cut at hcut ⊢
      conv_lhs => rw [hcut]
      rfl
    | fault r => rw [hit] at h; cases h
    | refused r => rw [hit] at h; cases h
  · cases h
    exact Or.inl ⟨rfl, by assumption⟩

/-- What a cut iteration does to flash and to `FLASHLOG`: the first `issued` events of the whole iteration, all on the one
page it flushes, if any (R353). -/
theorem cutIteration_events {s t : State} {answers : List FlashDraw} {issued : Nat} (hc : s.cfg.Ok)
    (hb : s.sp.buf.length = s.cfg.pageSize) (h : cutIteration answers issued s = .next t) :
    ∃ es, t.trace.flashLog = s.trace.flashLog ++ es.take issued ∧
      t.flash = (replayFlash (es.take issued) (withAnswers answers s)).flash ∧
      (∀ u, IterateEnabled s → iterate (withAnswers answers s) = .next u →
        u.trace.flashLog = s.trace.flashLog ++ es ∧ (replayFlash es (withAnswers answers s)).flash = u.flash) ∧
      (¬ IterateEnabled s → es = []) ∧
      (es = [] ∨ ∃ i len pa, IterateEnabled s ∧ decode s.cfg s.prof s.rb.pending = .ok (i, len) ∧
        flushTarget i (withAnswers answers s) = some pa ∧ Flushable s.cfg pa ∧ ∀ e ∈ es, OnPage s.cfg pa e) := by
  rcases cutIteration_cases h with ⟨rfl, hn⟩ | ⟨hen, u, hu, rfl⟩
  · exact ⟨[], by simp, by rw [List.take_nil]; rfl, fun u he => absurd he hn, fun _ => rfl, Or.inl rfl⟩
  · obtain ⟨es, hlog, hrep, hes⟩ := iterate_events (s := withAnswers answers s) hc hb hu
    have hissued : eventsIssued s u = es := by
      unfold eventsIssued
      rw [hlog]
      exact List.drop_left
    rw [hissued]
    refine ⟨es, rfl, rfl, fun u' _ hu' => ?_, fun hn => absurd hen hn, ?_⟩
    · rw [hu] at hu'
      cases hu'
      exact ⟨hlog, hrep⟩
    · rcases hes with rfl | ⟨i, len, pa, hd, ht, hf, hon⟩
      · exact Or.inl rfl
      · exact Or.inr ⟨i, len, pa, hen, hd, ht, hf, hon⟩

/-- A step is one agent's step of a valid machine (R8, R14). -/
theorem step_cases {s t : State} (h : step s = .next t) :
    (s.cfg.Ok ∧ s.prof.Ok) ∧ agentStep (nextEvent s).1 (nextEvent s).2 = .next t := by
  unfold step at h
  split at h
  · exact ⟨by assumption, h⟩
  · cases h

/-- Running two lists of instructions one after the other. -/
theorem runExec_append (a b : List Instr) (s : State) :
    runExec (a ++ b) s =
      match runExec a s with
      | .next t => runExec b t
      | .fault r => .fault r
      | .refused r => .refused r := by
  induction a generalizing s with
  | nil => rfl
  | cons i rest ih =>
    simp only [List.cons_append, runExec]
    cases exec i s <;> simp [ih]

end Sys2Proof.Machine
end

