-- ==== Sys2Proof/Tests/Slice0.lean ====
section
/-! SUPPORT. Tests: ill-formed terms that the checks refuse, words written out from the spec's encodings, one step per
instruction with the answers of spec/95_test_vectors.md, and for each statement with hypotheses a state and operands that
meet them. -/

namespace Sys2Proof.Tests

open Sys2Proof Sys2Proof.Machine
open Host (Outcome)

-- One theorem at a time: a thread per kernel evaluation would need more memory than the check allows.
set_option Elab.async false

/-! ## Helpers -/

/-- The outcome is a next state with the property. -/
def okAnd (f : State → Bool) (o : Outcome State Fault Refusal) : Bool :=
  match o with
  | .next t => f t
  | .fault _ => false
  | .refused _ => false

theorem exists_next {f : State → Bool} {o : Outcome State Fault Refusal} (h : okAnd f o = true) : ∃ t, o = .next t := by
  cases o with
  | next t => exact ⟨t, rfl⟩
  | fault r => cases h
  | refused r => cases h

/-- Right after reset, with these bytes received and no flash fault to come. -/
def received (bytes : List Byte) : State :=
  { State.reset with
    rb := { buf := bytes, rp := 0 }
    env := { events := [.iterate], draws := [.ok, .ok, .ok, .ok], drawn := 0 } }

/-- One iteration answers the bytes with the response and uses `used` of them. -/
def answers (bytes response : List Byte) (used : Nat) : Bool :=
  okAnd (fun t => t.txq == response && t.rb.rp == used) (step (received bytes))

/-- The block `D1` of spec/95_test_vectors.md. -/
def blockOne : List Byte := [0x10#8, 0x11#8, 0x12#8, 0x13#8, 0x14#8, 0x15#8, 0x16#8, 0x17#8]

/-- The block `D2`. -/
def blockTwo : List Byte := [0x20#8, 0x21#8, 0x22#8, 0x23#8, 0x24#8, 0x25#8, 0x26#8, 0x27#8]

/-- The first block of page 0x2000 is staged. -/
def halfStaged : State :=
  { State.reset with
    sp := { buf := blockOne ++ List.replicate 8 0xFF#8, pending := true, addr := 0x2000#32, lastValid := false,
            lastPage := 0#32 }
    xs := .receiving
    fs := .accumulating
    env := { events := [], draws := [.ok, .ok], drawn := 0 } }

/-- Page 0x2000 of flash holds old data. -/
def oldPage (s : State) : State := { s with flash := Memory.writeBytes [] 0x2000 (List.replicate 16 0x55#8) }

/-- COMPLETE was accepted and the grace timer has `ticks` to go. -/
def completing (ticks : Nat) : State := { State.reset with xs := .complete, gt := ticks }

/-- The default profile with four NACK codes that differ. -/
def nackProfile : Prof :=
  { Prof.default with
    rspNackLen := 0xF1#8, rspNackTrailer := 0xF3#8, rspNackCrc := 0xF4#8, rspNackCmd := 0xF5#8 }

/-! ## Well-formedness: one ill-formed term for each check -/

theorem test_payload_not_words : ¬ WellFormed Cfg.reference Prof.default (.connect [0x00#8]) := by decide

theorem test_payload_too_long : ¬ WellFormed Cfg.reference Prof.default (.unknown 0x7F#8 (List.replicate 1024 0#8)) := by
  decide +kernel

theorem test_transport_id_absent :
    ¬ WellFormed { Cfg.reference with hasTransportId := false } Prof.default (.getTransportId []) := by decide

theorem test_unknown_is_known : ¬ WellFormed Cfg.reference Prof.default (.unknown 0x13#8 []) := by decide

theorem test_reference_is_kfe : Cfg.reference.Ok ∧ Prof.default.Ok ∧ nackProfile.Ok := by decide

theorem test_block_not_words : ¬ { Cfg.reference with blockSize := 6, pageSize := 12 }.Ok := by decide

theorem test_page_not_blocks : ¬ { Cfg.reference with pageSize := 12 }.Ok := by decide

theorem test_app_start_off_page : ¬ { Cfg.reference with appStart := 0x2008 }.Ok := by decide

theorem test_flash_base_off_page : ¬ { Cfg.reference with flashBase := 8 }.Ok := by decide

theorem test_flash_end_off_page : ¬ { Cfg.reference with flashEnd := 0x4008 }.Ok := by decide

theorem test_receive_buffer_too_small : ¬ { Cfg.reference with rxCap := 19 }.Ok := by decide

theorem test_transmit_queue_too_small : ¬ { Cfg.reference with txCap := 23 }.Ok := by decide

theorem test_device_id_not_words : ¬ { Cfg.reference with deviceId := [0x6B#8] }.Ok := by decide

theorem test_transport_id_not_words : ¬ { Cfg.reference with transportId := [0xAA#8] }.Ok := by decide

theorem test_tail_position_twice :
    ¬ { Prof.default with tailPos := { crcHi := 1, crcLo := 1, trl0 := 2, trl1 := 3 } }.Ok := by decide

theorem test_command_byte_twice : ¬ { Prof.default with cmdEof := 0x11#8 }.Ok := by decide

theorem test_ack_is_error : ¬ { Prof.default with rspAck := 0xF2#8 }.Ok := by decide

theorem test_nack_is_ack : ¬ { Prof.default with rspNackCrc := 0xA0#8 }.Ok := by decide

/-- R10: the 0x4000 bytes of flash of configuration T are 1024 pages of 16. -/
theorem test_pages : Cfg.reference.pages = 1024 := by decide

/-! ## Words from the spec's encodings (R109 to R125; vectors V15 to V25, V28, V29, V30) -/

theorem test_crc_connect : crc16 Prof.default [0x01#8, 0x88#8, 0x11#8, 0x00#8] = 0x59FD#16 := by decide +kernel

theorem test_decode_connect :
    decode Cfg.reference Prof.default [0x01#8, 0x88#8, 0x11#8, 0x00#8, 0xFD#8, 0x59#8, 0x99#8, 0x03#8] =
      .ok (.connect [], 8) := by decide +kernel

theorem test_decode_write_block :
    decode Cfg.reference Prof.default
        ([0x01#8, 0x88#8, 0x12#8, 0x03#8, 0x00#8, 0x20#8, 0x00#8, 0x00#8] ++ blockOne ++
          [0x2B#8, 0x4D#8, 0x99#8, 0x03#8]) =
      .ok (.writeBlock ([0x00#8, 0x20#8, 0x00#8, 0x00#8] ++ blockOne), 20) := by decide +kernel

theorem test_decode_end_of_file :
    decode Cfg.reference Prof.default [0x01#8, 0x88#8, 0x13#8, 0x00#8, 0x4D#8, 0x6A#8, 0x99#8, 0x03#8] =
      .ok (.endOfFile [], 8) := by decide +kernel

theorem test_decode_read_block :
    decode Cfg.reference Prof.default
        [0x01#8, 0x88#8, 0x14#8, 0x01#8, 0x00#8, 0x20#8, 0x00#8, 0x00#8, 0xA1#8, 0xFF#8, 0x99#8, 0x03#8] =
      .ok (.readBlock [0x00#8, 0x20#8, 0x00#8, 0x00#8], 12) := by decide +kernel

theorem test_decode_complete :
    decode Cfg.reference Prof.default [0x01#8, 0x88#8, 0x15#8, 0x00#8, 0x9D#8, 0x3E#8, 0x99#8, 0x03#8] =
      .ok (.complete [], 8) := by decide +kernel

theorem test_decode_transport_id :
    decode Cfg.reference Prof.default [0x01#8, 0x88#8, 0x16#8, 0x00#8, 0xF5#8, 0x14#8, 0x99#8, 0x03#8] =
      .ok (.getTransportId [], 8) := by decide +kernel

theorem test_decode_transport_id_absent :
    decode { Cfg.reference with hasTransportId := false } Prof.default
        [0x01#8, 0x88#8, 0x16#8, 0x00#8, 0xF5#8, 0x14#8, 0x99#8, 0x03#8] =
      .ok (.unknown 0x16#8 [], 8) := by decide +kernel

theorem test_decode_unknown :
    decode Cfg.reference Prof.default [0x01#8, 0x88#8, 0x7F#8, 0x00#8, 0xB8#8, 0xA6#8, 0x99#8, 0x03#8] =
      .ok (.unknown 0x7F#8 [], 8) := by decide +kernel

/-- V28: the CRC from the command byte. -/
theorem test_decode_crc_from_command :
    decode Cfg.reference { Prof.default with crcFromRx := .command }
        [0x01#8, 0x88#8, 0x11#8, 0x00#8, 0xF1#8, 0x7C#8, 0x99#8, 0x03#8] =
      .ok (.connect [], 8) := by decide +kernel

/-- V29: another tail layout. -/
theorem test_decode_tail_layout :
    decode Cfg.reference { Prof.default with tailPos := { crcHi := 0, crcLo := 2, trl0 := 1, trl1 := 3 } }
        [0x01#8, 0x88#8, 0x11#8, 0x00#8, 0x59#8, 0x99#8, 0xFD#8, 0x03#8] =
      .ok (.connect [], 8) := by decide +kernel

theorem test_decode_ack :
    decodeResponse Prof.default
        [0x01#8, 0x88#8, 0xA0#8, 0x01#8, 0x15#8, 0x00#8, 0x00#8, 0x00#8, 0xB2#8, 0x83#8, 0x99#8, 0x03#8] =
      .ok (.ack [0x15#8, 0x00#8, 0x00#8, 0x00#8], 12) := by decide +kernel

theorem test_decode_nack_len :
    decodeResponse Prof.default [0x01#8, 0x88#8, 0xF1#8, 0x00#8, 0x64#8, 0xB0#8, 0x99#8, 0x03#8] =
      .ok (.nackLen, 8) := by decide +kernel

theorem test_decode_command_error :
    decodeResponse Prof.default [0x01#8, 0x88#8, 0xF2#8, 0x00#8, 0x0C#8, 0x9A#8, 0x99#8, 0x03#8] =
      .ok (.commandError, 8) := by decide +kernel

/-- The three other NACK rows share the code of NACK_LEN in the default profile; with that code given to each in turn, the
same written word is each of them (R123). -/
theorem test_decode_nack_trailer :
    decodeResponse { nackProfile with rspNackLen := 0xF3#8, rspNackTrailer := 0xF1#8 }
        [0x01#8, 0x88#8, 0xF1#8, 0x00#8, 0x64#8, 0xB0#8, 0x99#8, 0x03#8] =
      .ok (.nackTrailer, 8) := by decide +kernel

theorem test_decode_nack_crc :
    decodeResponse { nackProfile with rspNackLen := 0xF4#8, rspNackCrc := 0xF1#8 }
        [0x01#8, 0x88#8, 0xF1#8, 0x00#8, 0x64#8, 0xB0#8, 0x99#8, 0x03#8] =
      .ok (.nackCrc, 8) := by decide +kernel

theorem test_decode_nack_cmd :
    decodeResponse { nackProfile with rspNackLen := 0xF5#8, rspNackCmd := 0xF1#8 }
        [0x01#8, 0x88#8, 0xF1#8, 0x00#8, 0x64#8, 0xB0#8, 0x99#8, 0x03#8] =
      .ok (.nackCmd, 8) := by decide +kernel

theorem test_table_word_connect : decodeTableWord 32 0x01881100 = some (.connect []) := by decide +kernel

theorem test_table_word_ack : decodeTableWord 32 0x0188A000 = some (.ack []) := by decide +kernel

/-- The mask leaves the word count out: it has no part in a word's kind (R131). -/
theorem test_table_word_any_count :
    decodeTableWord 32 0x01881101 = some (.connect (List.replicate 4 0x00#8)) ∧
      decodeTableWord 32 0x0188120F = some (.writeBlock (List.replicate 60 0x00#8)) ∧
      decodeTableWord 32 0x01887F0F = some (.unknown 0x7F#8 (List.replicate 60 0x00#8)) ∧
      decodeTableWord 32 0x0188A00F = some (.ack (List.replicate 60 0x00#8)) ∧
      decodeTableWord 32 0x0188F105 = some .nackLen ∧ decodeTableWord 32 0x0188F210 = some .commandError := by
  decide +kernel

theorem test_table_word_no_signature : decodeTableWord 32 0x02881100 = none := by decide +kernel

/-- The placed word is the next one run: CONNECT begins a session. -/
theorem test_fetch_word_connect :
    okAnd (fun t => t.xs == .receiving && t.txq.length == 28) (step (State.reset.withFetchWord 32 0x01881100)) = true := by
  decide +kernel

/-- A placed word whose frame exceeds `RX_CAP` 64 is run as its row's instruction: READ_BLOCK with a wrong word count
is answered with COMMAND_ERROR (R131, R202). -/
theorem test_fetch_word_long :
    okAnd (fun t => t.txq == [0x01#8, 0x88#8, 0xF2#8, 0x00#8, 0x0C#8, 0x9A#8, 0x99#8, 0x03#8] && t.rb.rp == 72)
      (step (State.reset.withFetchWord 32 0x01881410)) = true := by
  decide +kernel

/-! ## One step per instruction, with the spec's answers -/

theorem test_step_connect :
    answers [0x01#8, 0x88#8, 0x11#8, 0x00#8, 0xFD#8, 0x59#8, 0x99#8, 0x03#8]
      [0x01#8, 0x88#8, 0xA0#8, 0x05#8, 0x11#8, 0x00#8, 0x00#8, 0x00#8, 0x00#8, 0x00#8, 0x01#8, 0x00#8, 0x00#8, 0x20#8,
        0x00#8, 0x00#8, 0x08#8, 0x00#8, 0x00#8, 0x00#8, 0x6B#8, 0x66#8, 0x65#8, 0x30#8, 0xAA#8, 0x94#8, 0x99#8, 0x03#8]
      8 = true := by decide +kernel

/-- The block goes to its offset; the page is pending; nothing is flushed. -/
theorem test_step_write_block :
    okAnd (fun t => t.sp == halfStaged.sp && t.trace.flashLog == [] &&
        t.txq == [0x01#8, 0x88#8, 0xA0#8, 0x02#8, 0x12#8, 0x00#8, 0x00#8, 0x00#8, 0x00#8, 0x20#8, 0x00#8, 0x00#8, 0x50#8,
          0xF2#8, 0x99#8, 0x03#8])
      (exec (.writeBlock ([0x00#8, 0x20#8, 0x00#8, 0x00#8] ++ blockOne)) State.reset) = true := by decide +kernel

/-- V64: the second block of the page flushes it. -/
theorem test_step_write_block_flushes :
    okAnd (fun t => t.wc == 1#32 && t.sp.pending == false && t.fs == .accumulating &&
        Memory.readBytes t.flash 0x2000 16 == blockOne ++ blockTwo &&
        t.trace.flashLog ==
          [.isErased 0x2000#32, .program 0x2000#32 (blockOne ++ blockTwo), .read 0x2000#32])
      (exec (.writeBlock ([0x08#8, 0x20#8, 0x00#8, 0x00#8] ++ blockTwo)) halfStaged) = true := by decide +kernel

/-- The flush pads the page with erased bytes, and the count is read after it (example of R240). -/
theorem test_step_end_of_file :
    okAnd (fun t => t.fs == .done && t.xs == .eofPending &&
        Memory.readBytes t.flash 0x2000 16 == blockOne ++ List.replicate 8 0xFF#8 &&
        t.txq == [0x01#8, 0x88#8, 0xA0#8, 0x02#8, 0x13#8, 0x00#8, 0x00#8, 0x00#8, 0x01#8, 0x00#8, 0x00#8, 0x00#8, 0x6F#8,
          0x6C#8, 0x99#8, 0x03#8])
      (exec (.endOfFile []) halfStaged) = true := by decide +kernel

/-- Old data: compare, erase, program, verify (R230). -/
theorem test_step_end_of_file_erases :
    okAnd (fun t => t.wc == 1#32 &&
        t.trace.flashLog == [.isErased 0x2000#32, .read 0x2000#32, .erase 0x2000#32,
          .program 0x2000#32 (blockOne ++ List.replicate 8 0xFF#8), .read 0x2000#32])
      (exec (.endOfFile []) (oldPage halfStaged)) = true := by decide +kernel

theorem test_step_read_block :
    answers [0x01#8, 0x88#8, 0x14#8, 0x01#8, 0x00#8, 0x20#8, 0x00#8, 0x00#8, 0xA1#8, 0xFF#8, 0x99#8, 0x03#8]
      [0x01#8, 0x88#8, 0xA0#8, 0x04#8, 0x14#8, 0x00#8, 0x00#8, 0x00#8, 0x00#8, 0x20#8, 0x00#8, 0x00#8, 0xFF#8, 0xFF#8,
        0xFF#8, 0xFF#8, 0xFF#8, 0xFF#8, 0xFF#8, 0xFF#8, 0x77#8, 0x45#8, 0x99#8, 0x03#8]
      12 = true := by decide +kernel

/-- READ_BLOCK reads flash, not the staging page (R79). -/
theorem test_step_read_block_not_staged :
    okAnd (fun t => (t.txq.drop 12).take 8 == List.replicate 8 0x55#8 && t.xs == .receiving)
      (exec (.readBlock [0x00#8, 0x20#8, 0x00#8, 0x00#8]) (oldPage halfStaged)) = true := by decide +kernel

theorem test_step_complete :
    answers [0x01#8, 0x88#8, 0x15#8, 0x00#8, 0x9D#8, 0x3E#8, 0x99#8, 0x03#8]
      [0x01#8, 0x88#8, 0xA0#8, 0x01#8, 0x15#8, 0x00#8, 0x00#8, 0x00#8, 0xB2#8, 0x83#8, 0x99#8, 0x03#8] 8 = true := by
  decide +kernel

/-- The pending page is discarded, the grace timer loaded. -/
theorem test_step_complete_discards :
    okAnd (fun t => t.xs == .complete && t.gt == 3 && t.sp.pending == false && t.trace.flashLog == [])
      (exec (.complete []) halfStaged) = true := by decide +kernel

theorem test_step_transport_id :
    answers [0x01#8, 0x88#8, 0x16#8, 0x00#8, 0xF5#8, 0x14#8, 0x99#8, 0x03#8]
      [0x01#8, 0x88#8, 0xA0#8, 0x02#8, 0x16#8, 0x00#8, 0x00#8, 0x00#8, 0xAA#8, 0xBB#8, 0xCC#8, 0xDD#8, 0xA0#8, 0x54#8,
        0x99#8, 0x03#8] 8 = true := by decide +kernel

theorem test_step_unknown :
    answers [0x01#8, 0x88#8, 0x7F#8, 0x00#8, 0xB8#8, 0xA6#8, 0x99#8, 0x03#8]
      [0x01#8, 0x88#8, 0xF2#8, 0x00#8, 0x0C#8, 0x9A#8, 0x99#8, 0x03#8] 8 = true := by decide +kernel

theorem test_step_ack :
    okAnd (fun t => t.txq == [0x01#8, 0x88#8, 0xA0#8, 0x01#8, 0x15#8, 0x00#8, 0x00#8, 0x00#8, 0xB2#8, 0x83#8, 0x99#8,
        0x03#8])
      (exec (.ack [0x15#8, 0x00#8, 0x00#8, 0x00#8]) State.reset) = true := by decide +kernel

/-- R176's example: 1028 bytes do not fit 64. -/
theorem test_step_nack_len :
    answers [0x01#8, 0x88#8, 0x12#8, 0xFF#8] [0x01#8, 0x88#8, 0xF1#8, 0x00#8, 0x64#8, 0xB0#8, 0x99#8, 0x03#8] 2 = true := by
  decide +kernel

/-- R178's example. -/
theorem test_step_nack_trailer :
    answers [0x01#8, 0x88#8, 0x11#8, 0x00#8, 0xFD#8, 0x59#8, 0x99#8, 0x04#8]
      [0x01#8, 0x88#8, 0xF1#8, 0x00#8, 0x64#8, 0xB0#8, 0x99#8, 0x03#8] 2 = true := by decide +kernel

/-- R179's example. -/
theorem test_step_nack_crc :
    answers [0x01#8, 0x88#8, 0x11#8, 0x00#8, 0xFC#8, 0x59#8, 0x99#8, 0x03#8]
      [0x01#8, 0x88#8, 0xF1#8, 0x00#8, 0x64#8, 0xB0#8, 0x99#8, 0x03#8] 2 = true := by decide +kernel

theorem test_step_nack_cmd :
    okAnd (fun t => t.txq == [0x01#8, 0x88#8, 0xF1#8, 0x00#8, 0x64#8, 0xB0#8, 0x99#8, 0x03#8])
      (exec .nackCmd State.reset) = true := by decide +kernel

theorem test_step_command_error :
    okAnd (fun t => t.txq == [0x01#8, 0x88#8, 0xF2#8, 0x00#8, 0x0C#8, 0x9A#8, 0x99#8, 0x03#8])
      (exec .commandError State.reset) = true := by decide +kernel

/-- A failed erase answers COMMAND_ERROR, and the session goes idle (R236). -/
theorem test_step_flush_fails :
    okAnd (fun t => t.fs == .idle && t.xs == .idle && t.wc == 0#32 && t.sp.pending == false &&
        Memory.readBytes t.flash 0x2000 16 == List.replicate 16 0xFF#8 &&
        t.txq == [0x01#8, 0x88#8, 0xF2#8, 0x00#8, 0x0C#8, 0x9A#8, 0x99#8, 0x03#8])
      (exec (.endOfFile [])
        { oldPage halfStaged with env := { events := [], draws := [.fail .fail []], drawn := 0 } }) = true := by
  decide +kernel

/-- R171's example: 2 of 5 bytes fit. -/
theorem test_step_receive_overflow :
    okAnd (fun t => t.rb.fill == 64 && t.trace.rxDrop == 3)
      (agentStep (.rx (List.replicate 5 0x00#8)) (received (List.replicate 62 0x00#8))) = true := by decide +kernel

/-! ## Witnesses: a state and operands that meet the hypotheses of each statement, for each clause -/

/-- Bytes wait in the receive buffer behind a consumed prefix of `rp` bytes. -/
def waitingAt (rp : Nat) (pending : List Byte) : State :=
  { State.reset with rb := { buf := List.replicate rp 0x00#8 ++ pending, rp := rp } }

/-- The request `READ_BLOCK 0x2000` as bytes (V21). -/
def readFrame : List Byte :=
  [0x01#8, 0x88#8, 0x14#8, 0x01#8, 0x00#8, 0x20#8, 0x00#8, 0x00#8, 0xA1#8, 0xFF#8, 0x99#8, 0x03#8]

/-- The request `END_OF_FILE` as bytes (V20). -/
def eofFrame : List Byte := [0x01#8, 0x88#8, 0x13#8, 0x00#8, 0x4D#8, 0x6A#8, 0x99#8, 0x03#8]

/-- END_OF_FILE is next, with a page pending. -/
def eofNext : State := { halfStaged with rb := { buf := eofFrame, rp := 0 } }

/-- A candidate of 64 bytes, the whole receive buffer, with the given last two bytes. -/
def fullBuffer (last : List Byte) : State :=
  received ([0x01#8, 0x88#8, 0x12#8, 0x0E#8] ++ List.replicate 58 0x00#8 ++ last)

/-- A build whose page is one block. -/
def onePageBlock : Cfg := { Cfg.reference with pageSize := 8 }

/-- Right after reset of that build, with one page of flash written. -/
def smallPageWritten : State :=
  { State.reset with
    cfg := onePageBlock
    sp := resetStaging onePageBlock
    flash := Memory.writeBytes [] 0x2000 blockOne
    env := { events := [], draws := [.ok, .ok], drawn := 0 } }

/-- Right after reset with the page 0x2000 of flash written, no flash fault to come. -/
def pageWritten : State :=
  { State.reset with
    flash := Memory.writeBytes [] 0x2000 (blockOne ++ blockTwo)
    env := { events := [], draws := [.ok, .ok], drawn := 0 } }

theorem witness_word_packing :
    [0x01#8, 0x02#8, 0x03#8, 0x04#8].length = 4 := rfl

theorem witness_crc_forms :
    Prof.default.crcInit = 0xFFFF#16 ∧ Prof.default.crcRefIn = true ∧ Prof.default.crcRefOut = true ∧
      Prof.default.crcXorOut = 0x0000#16 := by decide

theorem witness_crc_one_byte :
    (0x00#8 : Byte) ≠ 0x01#8 := by decide

/-- `READ_BLOCK 0x2000`: both signature bytes, the command byte, the first and the last payload byte, the two CRC bytes and
the two trailer bytes. -/
theorem witness_corrupted_byte :
    let i : Instr := .readBlock [0x00#8, 0x20#8, 0x00#8, 0x00#8]
    let tail := 4 + i.payload.length
    (Prof.default.Ok ∧ PayloadOk i.payload ∧ i.isRequest = true ∧ (encode Prof.default i).length ≤ Cfg.reference.rxCap) ∧
      (∀ k ∈ [0, 1, 2, 4, 7, 8, 9, 10, 11], ((encode Prof.default i)[k]?).isSome ∧
        (encode Prof.default i)[k]? ≠ some 0x77#8) ∧
      (7 < tail ∧ 8 = tail + Prof.default.tailPos.crcLo.val ∧ 9 = tail + Prof.default.tailPos.crcHi.val ∧
        10 = tail + Prof.default.tailPos.trl0.val ∧ 11 = tail + Prof.default.tailPos.trl1.val) := by
  decide +kernel

/-- A frame as long as the receive buffer. -/
theorem witness_request_round_trip :
    let i : Instr := .unknown 0x7F#8 (List.replicate 56 0x00#8)
    Prof.default.Ok ∧ WellFormed Cfg.reference Prof.default i ∧ i.isRequest = true ∧ (encode Prof.default i).length = Cfg.reference.rxCap := by decide +kernel

theorem witness_response_round_trip :
    nackProfile.Ok ∧ PayloadOk (Instr.nackCrc).payload ∧ (Instr.nackCrc).isRequest = false ∧
      [nackProfile.rspNackLen, nackProfile.rspNackTrailer, nackProfile.rspNackCrc, nackProfile.rspNackCmd].Nodup := by decide

theorem witness_decoded_frame :
    Prof.default.Ok ∧ decode Cfg.reference Prof.default eofFrame = .ok (.endOfFile [], 8) := by decide +kernel

theorem witness_frame_layout :
    PayloadOk [] ∧ PayloadOk (List.replicate 1020 0x00#8) := by decide +kernel

theorem witness_tail_layout :
    Prof.default.Ok := by decide

theorem witness_valid_frame :
    ValidFrame Prof.default Prof.default.crcFromRx readFrame := by decide +kernel

theorem witness_step_runs :
    let s := received readFrame
    s.cfg.Ok ∧ s.prof.Ok ∧ s.mode = .run ∧ (nextEvent s).1 = .iterate ∧
      decode s.cfg s.prof s.rb.pending = .ok (.readBlock [0x00#8, 0x20#8, 0x00#8, 0x00#8], 12) := by decide +kernel

set_option synthInstance.maxSize 1000 in
/-- Each clause: an invalid build, a listed event, and with none listed neither, one or both of the CORE steps. -/
theorem witness_step_next_event :
    (¬ ({ Cfg.reference with rxCap := 19 }.Ok ∧ Prof.default.Ok)) ∧
      ((received eofFrame).cfg.Ok ∧ (received eofFrame).prof.Ok ∧ (received eofFrame).env.events = [.iterate]) ∧
      (State.reset.env.events = [] ∧ ¬ JumpEnabled State.reset) ∧
      (JumpEnabled (completing 0) ∧ ¬ IterateEnabled (completing 0)) ∧
      (JumpEnabled { completing 0 with rb := { buf := eofFrame, rp := 0 } } ∧
        IterateEnabled { completing 0 with rb := { buf := eofFrame, rp := 0 } }) := by decide +kernel

/-- The smallest frame that does not fit: 68 bytes in a buffer of 64. -/
theorem witness_oversize :
    let s := received [0x01#8, 0x88#8, 0x12#8, 0x0F#8]
    s.mode = .run ∧ s.rb.pending.getD 0 0#8 = s.prof.sig0 ∧ 4 ≤ s.rb.pending.length ∧
      s.rb.pending.getD 1 0#8 = s.prof.sig1 ∧ s.cfg.rxCap < frameLen (s.rb.pending.getD 3 0#8).toNat := by decide +kernel

/-- A candidate that fills the receive buffer. -/
theorem witness_bad_trailer :
    let s := fullBuffer [0x99#8, 0x04#8]
    let b := s.rb.pending
    let len := frameLen (b.getD 3 0#8).toNat
    s.mode = .run ∧ b.getD 0 0#8 = s.prof.sig0 ∧ b.getD 1 0#8 = s.prof.sig1 ∧ len = s.cfg.rxCap ∧ len = b.length ∧
      tailTrlOk s.prof ((b.drop (len - 4)).take 4) = false := by decide +kernel

theorem witness_bad_crc :
    let s := fullBuffer [0x99#8, 0x03#8]
    let b := s.rb.pending
    let len := frameLen (b.getD 3 0#8).toNat
    s.mode = .run ∧ b.getD 0 0#8 = s.prof.sig0 ∧ b.getD 1 0#8 = s.prof.sig1 ∧ len = s.cfg.rxCap ∧ len = b.length ∧
      tailTrlOk s.prof ((b.drop (len - 4)).take 4) = true ∧
      tailCrc s.prof ((b.drop (len - 4)).take 4) ≠ crc16 s.prof ((b.take (len - 4)).drop (crcOffset s.prof.crcFromRx)) := by decide +kernel

theorem witness_noise :
    ((received [0x55#8]).mode = .run ∧ (received [0x55#8]).rb.pending ≠ [] ∧
        (received [0x55#8]).rb.pending.getD 0 0#8 ≠ Prof.default.sig0) ∧
      (let s := received [0x01#8, 0x01#8, 0x88#8, 0x11#8]
       s.rb.pending.getD 0 0#8 = s.prof.sig0 ∧ 4 ≤ s.rb.pending.length ∧ s.rb.pending.getD 1 0#8 ≠ s.prof.sig1) := by decide

/-- A short head behind a prefix, a body that lacks its last byte, and no bytes. -/
theorem witness_waiting :
    (let s := waitingAt 20 [0x01#8, 0x88#8, 0x11#8]
     s.mode = .run ∧ Waiting s.cfg s.prof s.rb.pending ∧ 0 < s.rb.rp) ∧
      (let s := waitingAt 0 (eofFrame.take 7)
       s.mode = .run ∧ Waiting s.cfg s.prof s.rb.pending ∧ s.rb.rp = 0) ∧
      Waiting Cfg.reference Prof.default [] := by decide +kernel

theorem witness_receive :
    State.reset.mode = .run ∧ { State.reset with mode := .jumped, jumpApp := true }.mode = .jumped ∧
      ∃ t, agentStep (.rx blockOne) State.reset = .next t := ⟨rfl, rfl, _, rfl⟩

theorem witness_transmit :
    let s := { State.reset with txq := blockOne }
    (s.mode = .run ∧ 0 < s.txq.length ∧ 1 ≤ 8 ∧ 8 ≤ s.txq.length) ∧ ¬ (s.mode = .run ∧ 1 ≤ 9 ∧ 9 ≤ s.txq.length) := by decide

theorem witness_tick :
    ((completing 1).mode = .run ∧ (completing 1).xs = .complete ∧ 0 < (completing 1).gt) ∧
      ¬ ((completing 0).mode = .run ∧ (completing 0).xs = .complete ∧ 0 < (completing 0).gt) := by decide

theorem witness_jump :
    ((completing 0).mode = .run ∧ (completing 0).xs = .complete ∧ (completing 0).gt = 0) ∧
      ¬ ((completing 1).mode = .run ∧ (completing 1).xs = .complete ∧ (completing 1).gt = 0) := by decide

theorem witness_mode_changes :
    (resetsNext (completing 0) = false ∧ (nextEvent (completing 0)).1 = .jump) ∧ ∃ t, step (completing 0) = .next t := ⟨by decide, exists_next (f := fun t => t.mode == .jumped) (by decide +kernel)⟩

set_option synthInstance.maxSize 1000 in
/-- Power loss in the program of an erased page (issued 2), and before it (issued 1). -/
theorem witness_power_loss :
    eofNext.Inv ∧ IterateEnabled eofNext ∧ decode eofNext.cfg eofNext.prof eofNext.rb.pending = .ok (.endOfFile [], 8) ∧
      flushTarget (.endOfFile []) eofNext = some 0x2000#32 ∧ (List.replicate 16 0xAA#8).length = eofNext.cfg.pageSize ∧
      pageAt eofNext 0x2000#32 = erasedPage eofNext.cfg ∧
      okAnd (fun u => u.trace.flashLog.length == 3) (iterate (withAnswers [.ok] eofNext)) = true ∧
      ¬ IterateEnabled State.reset := by decide +kernel

set_option synthInstance.maxSize 1000 in
/-- Power loss in the erase of an old page (issued 3), in the program after it (issued 4), and before both (issued 2). -/
theorem witness_power_loss_old_page :
    (oldPage eofNext).Inv ∧ IterateEnabled (oldPage eofNext) ∧
      decode (oldPage eofNext).cfg (oldPage eofNext).prof (oldPage eofNext).rb.pending = .ok (.endOfFile [], 8) ∧
      flushTarget (.endOfFile []) (oldPage eofNext) = some 0x2000#32 ∧
      pageAt (oldPage eofNext) 0x2000#32 ≠ erasedPage (oldPage eofNext).cfg ∧
      pageAt (oldPage eofNext) 0x2000#32 ≠ stagedPage (.endOfFile []) (oldPage eofNext) := by decide +kernel

/-- A cut before the erase leaves flash and logs the two events issued; a cut in the erase leaves its bytes; the response
that never came is in no log, though the queue had no room for it (R37, R353). -/
theorem test_power_loss_traces :
    let full := { oldPage eofNext with txq := List.replicate 128 0x00#8 }
    okAnd (fun t => t.trace.flashLog == [.isErased 0x2000#32, .read 0x2000#32] && t.flash == full.flash &&
        t.trace.dropLog == []) (agentStep (.powerLoss [.ok, .ok] 2 true) full) = true ∧
      okAnd (fun t => t.trace.flashLog == [.isErased 0x2000#32, .read 0x2000#32, .erase 0x2000#32] &&
        Memory.readBytes t.flash 0x2000 16 == List.replicate 16 0xAA#8 && t.trace.dropLog == [] && t.txq == [])
        (agentStep (.powerLoss [.fail .fail (List.replicate 16 0xAA#8)] 3 true) full) = true := by decide +kernel

set_option synthInstance.maxSize 1000 in
/-- Also for the statements on CORE's runs. -/
theorem witness_progress :
    (received eofFrame).Inv ∧ IterateEnabled (received eofFrame) ∧ (received eofFrame).mode = .run ∧
      okAnd (fun _ => true) (iterate (received eofFrame)) = true := by decide +kernel

set_option synthInstance.maxSize 1000 in
/-- Two chunks that fill the receive buffer to its last byte. -/
theorem witness_two_chunks :
    let s := received (List.replicate 48 0x00#8)
    s.Inv ∧ s.mode = .run ∧ s.rb.fill + eofFrame.length + eofFrame.length ≤ s.cfg.rxCap := by decide +kernel

/-- Noise that ends in a lone `SIG0` on both sides. -/
theorem witness_noise_robustness :
    let i : Instr := .endOfFile []
    Prof.default.Ok ∧ WellFormed Cfg.reference Prof.default i ∧ i.isRequest = true ∧
      (encode Prof.default i).length ≤ Cfg.reference.rxCap ∧
      (∀ k, k < 2 → ([0x55#8, 0x01#8] ++ encode Prof.default i)[k]? = some Prof.default.sig0 →
        ([0x55#8, 0x01#8] ++ encode Prof.default i)[k + 1]? ≠ some Prof.default.sig1) ∧
      (∀ k, k < 2 → ([0x00#8, 0x01#8] ++ [])[k]? = some Prof.default.sig0 →
        ([0x00#8, 0x01#8] ++ [])[k + 1]? ≠ some Prof.default.sig1) := by decide +kernel

theorem witness_queue :
    ((List.replicate 120 0x00#8).length + 8 ≤ Cfg.reference.txCap) ∧
      (Cfg.reference.txCap < (List.replicate 121 0x00#8).length + 8) ∧
      (buildFrame Prof.default .signature 0xF2#8 []).length = 8 := by decide +kernel

/-- The first and the last page. -/
theorem witness_flash_operations :
    Memory.wf halfStaged.flash = true ∧ Flushable halfStaged.cfg 0x2000#32 ∧ Flushable halfStaged.cfg 0x3FF0#32 ∧
      halfStaged.env.draws = [.ok, .ok] ∧ (blockOne ++ blockTwo).length = halfStaged.cfg.pageSize := by decide

theorem witness_flash_fault :
    let s := { State.reset with env := { events := [], draws := [.fail .ok (blockOne ++ blockTwo)], drawn := 0 } }
    Memory.wf s.flash = true ∧ Flushable s.cfg 0x2000#32 ∧
      s.env.draws = [.fail .ok (blockOne ++ blockTwo)] ∧ (blockOne ++ blockTwo).length = s.cfg.pageSize := by decide

theorem witness_flash_queries :
    Cfg.reference.flashBase ≤ (0x0000#32 : Word).toNat ∧ (0x0000#32 : Word).toNat + 0x4000 ≤ Cfg.reference.flashEnd := by decide

/-- CONNECT, END_OF_FILE, COMPLETE and GET_TRANSPORT_ID. -/
theorem witness_no_words :
    wordCount [] = 0 := rfl

/-- The last block of flash. -/
theorem witness_read_block :
    Cfg.reference.Ok ∧ wordCount [0xF8#8, 0x3F#8, 0x00#8, 0x00#8] = 1 ∧
      AddrOk Cfg.reference (payloadWord Prof.default [0xF8#8, 0x3F#8, 0x00#8, 0x00#8] 0) := by decide

theorem witness_responses_sent :
    (Instr.ack []).isRequest = false ∧ (Instr.nackLen).isRequest = false ∧ (Instr.nackTrailer).isRequest = false ∧
      (Instr.nackCrc).isRequest = false ∧ (Instr.nackCmd).isRequest = false ∧ (Instr.commandError).isRequest = false := by decide

theorem witness_argument_count :
    wordCount [0x00#8, 0x00#8, 0x00#8, 0x00#8] ≠ 0 ∧ wordCount [] ≠ 1 ∧ wordCount [] ≠ 1 + Cfg.reference.blockSize / 4 := by decide

/-- One block below `APP_START`, off a block boundary, and one block beyond the last. -/
theorem witness_address :
    (∀ payload ∈ [[0xF8#8, 0x1F#8, 0x00#8, 0x00#8], [0x04#8, 0x20#8, 0x00#8, 0x00#8], [0x00#8, 0x40#8, 0x00#8, 0x00#8]],
      let a := (payloadWord Prof.default payload 0).toNat
      ¬ (Cfg.reference.appStart ≤ a ∧ a % Cfg.reference.blockSize = 0 ∧
          a + Cfg.reference.blockSize ≤ Cfg.reference.flashEnd) ∧
        wordCount payload = 1 ∧ wordCount (payload ++ blockOne) = 1 + Cfg.reference.blockSize / 4) := by decide

set_option synthInstance.maxSize 1000 in
theorem witness_block_staged :
    let payload := [0x00#8, 0x20#8, 0x00#8, 0x00#8] ++ blockOne
    State.reset.Inv ∧ PayloadOk payload ∧ wordCount payload = 1 + Cfg.reference.blockWords ∧
      AddrOk Cfg.reference (payloadWord Prof.default payload 0) ∧
      (payloadWord Prof.default payload 0).toNat % Cfg.reference.pageSize + Cfg.reference.blockSize ≠ Cfg.reference.pageSize := by decide +kernel

set_option synthInstance.maxSize 1000 in
/-- The last block of the last page. -/
theorem witness_last_block :
    let payload := [0xF8#8, 0x3F#8, 0x00#8, 0x00#8] ++ blockTwo
    halfStaged.Inv ∧ PayloadOk payload ∧ wordCount payload = 1 + Cfg.reference.blockWords ∧
      halfStaged.env.draws = [.ok, .ok] ∧ AddrOk Cfg.reference (payloadWord Prof.default payload 0) ∧
      AtPageEnd Cfg.reference (payloadWord Prof.default payload 0) := by decide +kernel

set_option synthInstance.maxSize 1000 in
theorem witness_end_of_file :
    wordCount [] = 0 ∧ State.reset.sp.pending = false ∧ halfStaged.Inv ∧ halfStaged.sp.pending = true ∧
      halfStaged.env.draws = [.ok, .ok] := by decide +kernel

/-- A flush that fails. -/
def failing (s : State) : State := { s with env := { events := [], draws := [.fail .fail []], drawn := 0 } }

set_option synthInstance.maxSize 1000 in
/-- A failing program in the flush of a WRITE_BLOCK, and in that of an END_OF_FILE. -/
theorem witness_flush_failure :
    (failing halfStaged).Inv ∧ (failing halfStaged).sp.pending = true ∧ wordCount [] = 0 ∧
      (let payload := [0x08#8, 0x20#8, 0x00#8, 0x00#8] ++ blockTwo
       let addr := payloadWord Prof.default payload 0
       PayloadOk payload ∧ wordCount payload = 1 + Cfg.reference.blockWords ∧ AddrOk Cfg.reference addr ∧
         AtPageEnd Cfg.reference addr ∧
         (flush (pageBase Cfg.reference addr)
            (stageBlock addr (blockData Cfg.reference payload) (failing halfStaged))).map (·.1) = some .fail) ∧
      (flush (failing halfStaged).sp.addr (failing halfStaged)).map (·.1) = some .fail := by
  decide +kernel

set_option synthInstance.maxSize 1000 in
/-- The flush of an END_OF_FILE: a program that reports FAIL, a read-back that differs, an erase that reports FAIL; one that
goes well, and one whose page is right already, which no answer can make fail. -/
theorem witness_flush_fails :
    let silent := { halfStaged with env := { events := [], draws := [.fail .ok []], drawn := 0 } }
    let equal := failing { halfStaged with flash := Memory.writeBytes [] 0x2000 halfStaged.sp.buf }
    (silent.Inv ∧ equal.Inv ∧ flushTarget (.endOfFile []) silent = some 0x2000#32 ∧
        flushTarget (.endOfFile []) equal = some 0x2000#32) ∧
      FlushFails 0x2000#32 (stagedPage (.endOfFile []) (failing halfStaged)) (failing halfStaged) ∧
      FlushFails 0x2000#32 (stagedPage (.endOfFile []) silent) silent ∧
      FlushFails 0x2000#32 (stagedPage (.endOfFile []) (failing (oldPage halfStaged))) (failing (oldPage halfStaged)) ∧
      ¬ FlushFails 0x2000#32 (stagedPage (.endOfFile []) halfStaged) halfStaged ∧
      ¬ FlushFails 0x2000#32 (stagedPage (.endOfFile []) equal) equal := by
  decide +kernel

set_option synthInstance.maxSize 1000 in
theorem witness_ascending_blocks :
    pageWritten.Inv ∧ pageWritten.sp.pending = false ∧ Flushable pageWritten.cfg 0x2000#32 ∧
      (blockOne ++ blockTwo).length = pageWritten.cfg.pageSize ∧ pageWritten.env.draws = [.ok, .ok] ∧
      0 < pageWritten.cfg.pageSize / pageWritten.cfg.blockSize ∧ 1 < pageWritten.cfg.pageSize / pageWritten.cfg.blockSize := by decide +kernel

/-- Each constructor goes on from the half-staged page, so the frame, the one response, the count and the sticky state
speak of it; two of them flush. -/
theorem witness_exec_goes_on :
    ([.connect [], .writeBlock ([0x00#8, 0x20#8, 0x00#8, 0x00#8] ++ blockOne),
        .writeBlock ([0x08#8, 0x20#8, 0x00#8, 0x00#8] ++ blockTwo), .endOfFile [],
        .readBlock [0x00#8, 0x20#8, 0x00#8, 0x00#8], .complete [], .getTransportId [], .unknown 0x7F#8 [], .ack [],
        .nackLen, .nackTrailer, .nackCrc, .nackCmd, .commandError] : List Instr).all
      (fun i => okAnd (fun t => (i.isRequest == false) || t.txq != []) (exec i halfStaged)) = true ∧
    flushTarget (.endOfFile []) halfStaged = some 0x2000#32 ∧
    flushTarget (.writeBlock ([0x00#8, 0x20#8, 0x00#8, 0x00#8] ++ blockOne)) halfStaged = none ∧
    halfStaged.cfg.Ok ∧ halfStaged.sp.buf.length = halfStaged.cfg.pageSize := by
  decide +kernel

theorem witness_sticky :
    (completing 1).xs = .complete ∧ resetsNext (completing 1) = false ∧
      okAnd (fun _ => true) (exec (.connect []) (completing 1)) = true ∧ okAnd (fun _ => true) (step (completing 1)) = true := by decide +kernel

set_option synthInstance.maxSize 1000 in
theorem witness_reads_back :
    halfStaged.Inv ∧ AddrOk halfStaged.cfg 0x3FF8#32 ∧ AddrOk halfStaged.cfg 0x2000#32 ∧
      blockOne.length = halfStaged.cfg.blockSize ∧ halfStaged.env.draws = [.ok, .ok] := by decide +kernel

set_option synthInstance.maxSize 1000 in
theorem witness_resent :
    pageWritten.Inv ∧ pageWritten.sp.pending = false ∧ Flushable pageWritten.cfg 0x2000#32 ∧
      (blockOne ++ blockTwo).length = pageWritten.cfg.pageSize ∧ pageAt pageWritten 0x2000#32 = blockOne ++ blockTwo ∧
      blockOne ++ blockTwo ≠ erasedPage pageWritten.cfg ∧ pageWritten.env.draws = [.ok, .ok] ∧
      (blockOne ++ blockTwo).take (pageWritten.cfg.pageSize - pageWritten.cfg.blockSize) ≠
        List.replicate (pageWritten.cfg.pageSize - pageWritten.cfg.blockSize) 0xFF#8 := by decide +kernel

set_option synthInstance.maxSize 1000 in
theorem witness_resent_small_page :
    smallPageWritten.Inv ∧ smallPageWritten.sp.pending = false ∧ Flushable smallPageWritten.cfg 0x2000#32 ∧
      blockOne.length = smallPageWritten.cfg.pageSize ∧ pageAt smallPageWritten 0x2000#32 = blockOne ∧
      blockOne ≠ erasedPage smallPageWritten.cfg ∧ smallPageWritten.env.draws = [.ok, .ok] ∧
      smallPageWritten.cfg.pageSize = smallPageWritten.cfg.blockSize := by decide +kernel

set_option synthInstance.maxSize 1000 in
/-- Also for the statements that every step keeps the invariant, never stops and protects flash; the first address above
flash and the last below `APP_START`. -/
theorem witness_step_from_invariant :
    eofNext.Inv ∧ okAnd (fun t => t.flash != []) (step eofNext) = true ∧ resetsNext eofNext = false ∧
      0x1FFF < eofNext.cfg.appStart ∧ eofNext.cfg.flashEnd ≤ 0x4000 := by
  decide +kernel

set_option synthInstance.maxSize 1000 in
theorem test_reset_invariant : State.reset.Inv := by decide

end Sys2Proof.Tests
end

section
/-! PROOFS. The statements of spec/00_scope.md: no step changes the parameters and only reset and Jump change the mode
(R8, R9, R20), the packing of words (R12), and which agent moves next (R14). -/

namespace Sys2Proof.Proofs

open Sys2Proof Sys2Proof.Machine

/-! ## What a step leaves unchanged -/

/-- An iteration keeps the parameters and the mode: the scan position and the instruction it runs touch neither. -/
theorem iterate_fields {s t : State} (h : iterate s = .next t) :
    t.cfg = s.cfg ∧ t.prof = s.prof ∧ t.mode = s.mode := by
  have ran : ∀ {i u k}, exec i s = .next u → t = advance k u →
      t.cfg = s.cfg ∧ t.prof = s.prof ∧ t.mode = s.mode := by
    rintro i u k hu rfl
    obtain ⟨hc, hp, hm, -⟩ := exec_fields hu
    exact ⟨hc, hp, hm⟩
  rcases iterate_cases h with
    ⟨_, _, -, u, hu, ht⟩ | ⟨_, -, rfl⟩ | ⟨-, rfl⟩ | ⟨_, _, -, -, -, -, u, hu, ht⟩ | ⟨-, rfl⟩
  · exact ran hu ht
  · simp
  · simp
  · exact ran hu ht
  · simp

/-- An iteration that a power loss cuts keeps the parameters: what it leaves differs in flash, log and oracle only. -/
theorem cutIteration_params {s t : State} {answers : List FlashDraw} {issued : Nat}
    (h : cutIteration answers issued s = .next t) : t.cfg = s.cfg ∧ t.prof = s.prof := by
  rcases cutIteration_cases h with ⟨rfl, -⟩ | ⟨-, u, -, rfl⟩
  · exact ⟨rfl, rfl⟩
  · exact ⟨rfl, rfl⟩

/-- Going on with `k` answers a next state only after one. -/
theorem thenNext_eq_next {k : State → State} {o : Host.Outcome State Fault Refusal} {t : State}
    (h : thenNext k o = .next t) : ∃ u, o = .next u ∧ t = k u := by
  cases o with
  | next u => cases h; exact ⟨u, rfl, rfl⟩
  | fault r => cases h
  | refused r => cases h

/-- No agent's step changes the build constants or the profile (R8, R9). -/
theorem agentStep_params {e : Event} {s t : State} (h : agentStep e s = .next t) :
    t.cfg = s.cfg ∧ t.prof = s.prof := by
  cases e with
  | rx chunk => cases h; split <;> simp
  | tx k => cases h; split <;> simp
  | tick => cases h; split <;> simp
  | iterate =>
    simp only [agentStep] at h
    split at h
    · obtain ⟨hc, hp, -⟩ := iterate_fields h
      exact ⟨hc, hp⟩
    · cases h; exact ⟨rfl, rfl⟩
  | jump => cases h; split <;> simp
  | reset enter => cases h; simp
  | powerLoss answers issued enter =>
    obtain ⟨u, hu, rfl⟩ := thenNext_eq_next h
    simpa using cutIteration_params hu

/-- A step that is neither a reset nor a power loss keeps the mode, or is an enabled Jump step (R20, R293). -/
theorem agentStep_mode {e : Event} {s t : State} (h : agentStep e s = .next t) (hreset : ∀ enter, e ≠ .reset enter)
    (hpower : ∀ answers issued enter, e ≠ .powerLoss answers issued enter) :
    t.mode = s.mode ∨ (e = .jump ∧ JumpEnabled s ∧ t = jumpStep s) := by
  cases e with
  | rx chunk => cases h; left; split <;> simp
  | tx k => cases h; left; split <;> simp
  | tick => cases h; left; split <;> simp
  | iterate =>
    left
    simp only [agentStep] at h
    split at h
    · obtain ⟨-, -, hm⟩ := iterate_fields h
      exact hm
    · cases h; rfl
  | jump =>
    cases h
    by_cases hj : JumpEnabled s
    · exact .inr ⟨rfl, hj, if_pos hj⟩
    · left; rw [if_neg hj]
  | reset enter => exact absurd rfl (hreset enter)
  | powerLoss answers issued enter => exact absurd rfl (hpower answers issued enter)

/-- The next step is no reset and no power loss exactly where the chosen event is neither. -/
theorem resetsNext_eq_false_iff (s : State) :
    resetsNext s = false ↔ (∀ enter, (nextEvent s).1 ≠ .reset enter) ∧
      ∀ answers issued enter, (nextEvent s).1 ≠ .powerLoss answers issued enter := by
  unfold resetsNext
  cases (nextEvent s).1 <;> simp

/-- Choosing the next step does not enable or disable Jump, which looks at the mode, the session and the timer only. -/
theorem jumpEnabled_nextEvent_iff (s : State) : JumpEnabled (nextEvent s).2 ↔ JumpEnabled s := by
  simp [JumpEnabled]

/-- Settles O24, by the agent that moves: only the Jump step writes the mode without a reset. -/
theorem modeChangesOnlyByResetOrJump : Obligations.ModeChangesOnlyByResetOrJump := by
  intro s t h
  obtain ⟨-, hstep⟩ := step_cases h
  obtain ⟨hc, hp⟩ := agentStep_params hstep
  refine ⟨by simpa using hc, by simpa using hp, fun hr => ?_⟩
  obtain ⟨hreset, hpower⟩ := (resetsNext_eq_false_iff s).mp hr
  rcases agentStep_mode hstep hreset hpower with hm | ⟨he, hj, rfl⟩
  · left; simpa using hm
  · obtain ⟨hrun, hxs, hgt⟩ := (jumpEnabled_nextEvent_iff s).mp hj
    exact .inr ⟨he, hrun, hxs, hgt, jumpStep_mode _, jumpStep_jumpApp _⟩

/-! ## Words as bytes -/

/-- The four bytes of a word, put together again. -/
theorem word_split (v : Word) :
    v.extractLsb' 24 8 ++ v.extractLsb' 16 8 ++ v.extractLsb' 8 8 ++ v.extractLsb' 0 8 = v := by
  calc v.extractLsb' 24 8 ++ v.extractLsb' 16 8 ++ v.extractLsb' 8 8 ++ v.extractLsb' 0 8
      = v.extractLsb' 16 16 ++ v.extractLsb' 8 8 ++ v.extractLsb' 0 8 := by
        rw [BitVec.extractLsb'_append_extractLsb'_eq_extractLsb' (start₁ := 16) (len₁ := 8) rfl]
    _ = v.extractLsb' 8 24 ++ v.extractLsb' 0 8 := by
        rw [BitVec.extractLsb'_append_extractLsb'_eq_extractLsb' (start₁ := 8) (len₁ := 8) rfl]
    _ = v.extractLsb' 0 32 := BitVec.extractLsb'_append_extractLsb'_eq_extractLsb' rfl
    _ = v := BitVec.extractLsb'_eq_self

/-- Big-endian order is little-endian order reversed (R12). -/
theorem wordBytes_be (v : Word) : wordBytes .be v = (wordBytes .le v).reverse := rfl

/-- The bytes of a word put together from four, `a` the most significant (R12). -/
theorem wordBytes_le_append (a b c d : Byte) : wordBytes .le (a ++ b ++ c ++ d) = [d, c, b, a] := by
  have ha : (a ++ b ++ c ++ d).extractLsb' 24 8 = a := by
    rw [BitVec.extractLsb'_append_eq_of_le (by decide), BitVec.extractLsb'_append_eq_of_le (by decide)]
    exact BitVec.extractLsb'_append_eq_left
  have hb : (a ++ b ++ c ++ d).extractLsb' 16 8 = b := by
    rw [BitVec.extractLsb'_append_eq_of_le (by decide), BitVec.extractLsb'_append_eq_of_le (by decide)]
    exact BitVec.extractLsb'_append_eq_right
  have hc : (a ++ b ++ c ++ d).extractLsb' 8 8 = c := by
    rw [BitVec.extractLsb'_append_eq_of_le (by decide)]
    exact BitVec.extractLsb'_append_eq_right
  have hd : (a ++ b ++ c ++ d).extractLsb' 0 8 = d := BitVec.extractLsb'_append_eq_right
  simp only [wordBytes, ha, hb, hc, hd]

/-- `unword` undoes `word` (R12). -/
theorem unword_wordBytes (e : Endian) (v : Word) : unword e (wordBytes e v) = v := by
  cases e with
  | le => exact word_split v
  | be => exact word_split v

/-- `word` undoes `unword` on 4-byte strings (R12). -/
theorem wordBytes_unword (e : Endian) {b : List Byte} (h : b.length = 4) : wordBytes e (unword e b) = b := by
  obtain ⟨w, x, y, z, rfl⟩ := List.length_eq_four.mp h
  cases e with
  | le => exact wordBytes_le_append z y x w
  | be => exact (wordBytes_be _).trans (congrArg List.reverse (wordBytes_le_append w x y z))

/-- The length of `pad4(s)`: the next multiple of 4 (R12). -/
theorem pad4_length (s : List Byte) : (pad4 s).length = s.length + (4 - s.length % 4) % 4 := by
  simp [pad4]

/-- `pad4(s)` starts with `s` (R12). -/
theorem pad4_take (s : List Byte) : (pad4 s).take s.length = s := List.take_left

/-- What `pad4(s)` adds is zeros (R12). -/
theorem pad4_drop (s : List Byte) : (pad4 s).drop s.length = List.replicate ((4 - s.length % 4) % 4) 0#8 :=
  List.drop_left

/-- Settles O1, from the inverse laws of `word` and the parts of `pad4`. -/
theorem wordPacking : Obligations.WordPacking := by
  refine ⟨fun v => ⟨rfl, wordBytes_be v⟩, unword_wordBytes, fun e b => wordBytes_unword e,
    fun e v vs => ⟨rfl, rfl⟩, fun s => ?_⟩
  have hlen := pad4_length s
  refine ⟨pad4_take s, fun b hb => ?_, by omega, by omega⟩
  rw [pad4_drop] at hb
  exact List.eq_of_mem_replicate hb

/-! ## Which agent moves -/

/-- A listed event is the next one (R14; assumption log 7). -/
theorem nextEvent_listed {s : State} {e : Event} {es : List Event} (h : s.env.events = e :: es) :
    nextEvent s = (e, { s with env := { s.env with events := es } }) := by
  simp only [nextEvent, h]

/-- With nothing listed and Jump not enabled it is the iteration's turn (R14). -/
theorem nextEvent_iterate {s : State} (h : s.env.events = []) (hj : ¬ JumpEnabled s) :
    nextEvent s = (.iterate, s) := by
  simp only [nextEvent, h, if_neg hj]

/-- With nothing listed and no iteration enabled, an enabled Jump step comes next (R293). -/
theorem nextEvent_jump {s : State} (h : s.env.events = []) (hj : JumpEnabled s) (hi : ¬ IterateEnabled s) :
    nextEvent s = (.jump, s) := by
  simp only [nextEvent, h, if_pos hj, if_neg hi]

/-- With nothing listed and both enabled, a free value decides between them (R293; assumption log 8). -/
theorem nextEvent_either {s : State} (h : s.env.events = []) (hj : JumpEnabled s) (hi : IterateEnabled s) :
    nextEvent s = (if Config.freeJumpFirst s.env.drawn then .jump else .iterate,
      { s with env := { s.env with drawn := s.env.drawn + 1 } }) := by
  simp only [nextEvent, h, if_pos hj, if_pos hi]

/-- A valid machine steps by the agent chosen (R14). -/
theorem step_of_ok {s : State} (hc : s.cfg.Ok) (hp : s.prof.Ok) :
    step s = agentStep (nextEvent s).1 (nextEvent s).2 := if_pos ⟨hc, hp⟩

/-- Settles O14, by what `env.events` lists and which of CORE's steps are enabled. -/
theorem stepTakesNextEvent : Obligations.StepTakesNextEvent := by
  refine ⟨fun s hbad => if_neg hbad, fun s e es hc hp hl => ?_, fun s hc hp hl => ⟨fun hj => ?_, fun hj hi => ?_,
    fun hj hi => ⟨s.env.drawn + 1, ?_⟩⟩⟩
  · rw [step_of_ok hc hp, nextEvent_listed hl]
  · rw [step_of_ok hc hp, nextEvent_iterate hl hj]
  · rw [step_of_ok hc hp, nextEvent_jump hl hj hi]
  · rw [step_of_ok hc hp, nextEvent_either hl hj hi]
    cases Config.freeJumpFirst s.env.drawn with
    | true => exact .inl rfl
    | false => exact .inr rfl

end Sys2Proof.Proofs
end

section
/-! PROOFS. The statements of spec/10_state.md: the status outputs (R57), the invariant of R39 at reset and at every step,
the steps of TX and Jump (R266, R293), and what a power loss leaves (R353). -/

namespace Sys2Proof.Proofs

open Sys2Proof Sys2Proof.Machine

/-! ## The invariant by its parts -/

/-- The conjuncts of `State.Inv` by name, so that an update proves those that it touches and copies the others;
`inv_iff` ties it to the invariant. -/
structure InvParts (s : State) : Prop where
  cfg : s.cfg.Ok
  prof : s.prof.Ok
  scan : s.rb.rp ≤ s.rb.fill
  fill : s.rb.fill ≤ s.cfg.rxCap
  txq : s.txq.length ≤ s.cfg.txCap
  fs : s.fs = .idle ∨ s.fs = .accumulating ∨ s.fs = .done
  xs : s.xs ≠ .transmitting
  pending : s.sp.pending = true → s.fs = .accumulating ∧ Flushable s.cfg s.sp.addr
  clean : s.sp.pending = false → s.sp.buf = List.replicate s.cfg.pageSize erasedByte
  staging : s.sp.buf.length = s.cfg.pageSize
  lastPage : s.sp.lastValid = true → Flushable s.cfg s.sp.lastPage
  timer : s.gt ≤ s.cfg.graceTicks
  timing : 0 < s.gt → s.xs = .complete
  jumped : s.mode = .jumped ↔ s.jumpApp = true
  flash : Memory.wf s.flash = true

theorem inv_iff {s : State} : s.Inv ↔ InvParts s := by
  constructor
  · rintro ⟨⟨hc, hp⟩, ⟨hscan, hfill⟩, htxq, hfs, hxs, hpend, hclean, hbuf, hlast, ⟨hgt, htiming⟩, hj, hw⟩
    exact ⟨hc, hp, hscan, hfill, htxq, hfs, hxs, hpend, hclean, hbuf, hlast, hgt, htiming, hj, hw⟩
  · rintro ⟨hc, hp, hscan, hfill, htxq, hfs, hxs, hpend, hclean, hbuf, hlast, hgt, htiming, hj, hw⟩
    exact ⟨⟨hc, hp⟩, ⟨hscan, hfill⟩, htxq, hfs, hxs, hpend, hclean, hbuf, hlast, ⟨hgt, htiming⟩, hj, hw⟩

/-- A flush leaves the state it began in, but for what it flushed, `FS`, `WC`, flash, the log and the oracle (R230 to
R237). -/
theorem flushed_eq {s v w : State} {pa : Word} {r : FlushResult} {buf : List Byte}
    (hv : v = { s with sp := { s.sp with buf := buf, pending := true, addr := pa }, fs := v.fs, xs := v.xs })
    (hs : FlushSpec pa v r w) (fs : FlashState) (xs : TransferState) :
    { w with fs := fs, xs := xs } = { s with
      fs := fs
      xs := xs
      wc := w.wc
      flash := w.flash
      env := w.env
      trace := { s.trace with flashLog := w.trace.flashLog }
      sp := {
        buf := List.replicate s.cfg.pageSize erasedByte
        pending := false
        addr := pa
        lastValid := if r = .fail then s.sp.lastValid else true
        lastPage := if r = .fail then s.sp.lastPage else pa } } := by
  conv_lhs => rw [hs.same, hv]

/-! ## The invariant after each update -/

namespace InvParts

variable {s : State}

/-- The invariant does not look at the inputs to come. -/
theorem withEnv (h : InvParts s) (e : Env) : InvParts { s with env := e } := { h with }

/-- The scan position may move on as far as the fill level (R22, R23). -/
theorem advance {k : Nat} (h : InvParts s) (hk : k ≤ s.rb.pending.length) : InvParts (advance k s) :=
  { h with
    scan := by
      have hscan := h.scan
      rw [pending_length] at hk
      show s.rb.rp + k ≤ s.rb.fill
      omega }

theorem compact (h : InvParts s) : InvParts (compact s) :=
  { h with
    scan := Nat.zero_le _
    fill := by
      have hfill := h.fill
      show s.rb.pending.length ≤ s.cfg.rxCap
      rw [pending_length]
      omega }

/-- What RX appends fits (R171). -/
theorem rxAppend (h : InvParts s) (chunk : List Byte) : InvParts (rxAppend chunk s) := by
  have hlen : (Machine.rxAppend chunk s).rb.fill = s.rb.fill + min (s.cfg.rxCap - s.rb.fill) chunk.length := by
    simp [RxBuffer.fill]
  have hfill := h.fill
  exact { h with
    scan := by rw [hlen]; exact h.scan.trans (Nat.le_add_right _ _)
    fill := by rw [hlen, rxAppend_cfg]; omega }

theorem txDrain (h : InvParts s) (k : Nat) : InvParts (txDrain k s) :=
  { h with txq := ((List.drop_sublist k s.txq).length_le).trans h.txq }

theorem timerTick (h : InvParts s) : InvParts (timerTick s) :=
  { h with
    timer := (Nat.sub_le _ _).trans h.timer
    timing := fun hgt => h.timing (hgt.trans_le (Nat.sub_le _ _)) }

theorem jumpStep (h : InvParts s) : InvParts (jumpStep s) :=
  { h with jumped := iff_of_true rfl rfl }

/-- Reset needs nothing of the state but the parameters and the form of flash (R350). -/
theorem resetMachine (hc : s.cfg.Ok) (hp : s.prof.Ok) (hw : Memory.wf s.flash = true) (enter : Bool) :
    InvParts (resetMachine enter s) where
  cfg := hc
  prof := hp
  scan := Nat.le_refl 0
  fill := Nat.zero_le _
  txq := Nat.zero_le _
  fs := .inl rfl
  xs := by simp
  pending := by simp [resetStaging]
  clean _ := rfl
  staging := by simp [resetStaging]
  lastPage := by simp [resetStaging]
  timer := Nat.zero_le _
  timing := by simp
  jumped := by cases enter <;> simp
  flash := hw

/-- A response is queued only where it fits (R34, R265). -/
theorem txSend (h : InvParts s) (f : List Byte) : InvParts (txSend f s) := by
  rw [txSend_eq]
  exact { h with txq := txSend_txq_length f s h.txq }

/-! ## The invariant after each instruction and each agent's step -/

/-- Every state from which an instruction offers its response meets the invariant. -/
theorem execShape {i : Instr} {u : State} (h : InvParts s) (hsh : ExecShape i s u) : InvParts u := by
  cases hsh with
  | same => exact h
  | connect payload hi =>
    exact { h with
      fs := .inl rfl
      xs := xsAfter_ne (by simp)
      pending := by simp
      clean := fun _ => rfl
      staging := List.length_replicate
      lastPage := by simp
      timing := fun hgt => xsAfter_complete (h.timing hgt) }
  | complete payload hi =>
    exact { h with
      fs := .inl rfl
      xs := by simp
      pending := by simp
      clean := fun _ => rfl
      staging := List.length_replicate
      timer := Nat.le_refl _
      timing := fun _ => rfl }
  | staged payload hi hw ha ht =>
    rw [stageBlock_eq]
    exact { h with
      fs := .inr (.inl rfl)
      xs := xsAfter_ne (by simp)
      pending := fun _ => ⟨rfl, pageBase_flushable h.cfg ha⟩
      clean := by simp
      staging := (staged_length h.cfg h.staging hw ha).2
      timing := fun hgt => xsAfter_complete (h.timing hgt) }
  | eof payload hi hp ht =>
    exact { h with
      fs := .inr (.inr rfl)
      xs := xsAfter_ne (by simp)
      pending := by simp [hp]
      timing := fun hgt => xsAfter_complete (h.timing hgt) }
  | flushed pa v w r fs xs ht hf hv hx hs hfs hxs hxc hfail =>
    have hwx : w.xs = v.xs := by rw [hs.same]
    have hflash : Memory.wf w.flash = true := hs.wf (by rw [hv]; exact h.flash)
    rw [flushed_eq hv hs]
    exact { h with
      fs := hfs
      xs := hxs
      pending := by simp
      clean := fun _ => rfl
      staging := List.length_replicate
      lastPage := by
        by_cases hr : r = .fail
        · simpa only [if_pos hr] using h.lastPage
        · simpa only [if_neg hr] using fun _ => hf
      timing := fun hgt => hxc (hwx.trans (hx (h.timing hgt)))
      flash := hflash }

/-- Every instruction keeps the invariant. -/
theorem exec {i : Instr} {t : State} (h : InvParts s) (he : exec i s = .next t) : InvParts t := by
  obtain ⟨u, code, payload, hsh, rfl, -⟩ := exec_shape he
  exact (h.execShape hsh).txSend _

/-- Every reframer iteration keeps the invariant: it never moves the scan position past the bytes it looked at. -/
theorem iterate {t : State} (h : InvParts s) (hit : iterate s = .next t) : InvParts t := by
  have hpend : ∀ {i u}, Machine.exec i s = .next u → u.rb.pending = s.rb.pending := fun he => by
    obtain ⟨-, -, -, -, hrb, -⟩ := exec_fields he
    rw [hrb]
  rcases iterate_cases hit with
    ⟨i, len, hd, u, hu, rfl⟩ | ⟨k, hd, rfl⟩ | ⟨hd, rfl⟩ | ⟨i, e, hfinal, -, hd, -, u, hu, rfl⟩ | ⟨-, rfl⟩
  · obtain ⟨-, hlen, -⟩ := decode_ok_len hd
    exact (h.exec hu).advance (by rwa [hpend hu])
  · obtain ⟨-, -, -, hk⟩ := decode_noise hd
    exact h.advance hk
  · have h4 := decode_final_len (e := .badSignature) trivial hd
    exact h.advance (by omega)
  · have h4 := decode_final_len hfinal hd
    exact (h.exec hu).advance (by rw [hpend hu]; omega)
  · exact h.compact

/-- An iteration cut by a power loss leaves flash in its canonical form (R353). -/
theorem cutIteration_wf {t : State} {answers : List FlashDraw} {issued : Nat} (h : InvParts s)
    (hcut : cutIteration answers issued s = .next t) : Memory.wf t.flash = true := by
  obtain ⟨es, -, hflash, -, -, hes⟩ := cutIteration_events h.cfg h.staging hcut
  rw [hflash]
  rcases hes with rfl | ⟨i, len, pa, -, -, -, -, hon⟩
  · rw [List.take_nil]; exact h.flash
  · exact (replayFlash_onPage (es.take issued) (withAnswers answers s) fun e he => hon e (List.mem_of_mem_take he)).2
      h.flash

/-- Every agent's step keeps the invariant (R39). -/
theorem agentStep {e : Event} {t : State} (h : InvParts s) (hstep : agentStep e s = .next t) : InvParts t := by
  cases e with
  | rx chunk =>
    cases hstep
    split
    · exact h.rxAppend chunk
    · exact h
  | tx k =>
    cases hstep
    split
    · exact h.txDrain k
    · exact h
  | tick =>
    cases hstep
    split
    · exact h.timerTick
    · exact h
  | iterate =>
    simp only [Machine.agentStep] at hstep
    split at hstep
    · exact h.iterate hstep
    · cases hstep; exact h
  | jump =>
    cases hstep
    split
    · exact h.jumpStep
    · exact h
  | reset enter =>
    cases hstep
    exact resetMachine h.cfg h.prof h.flash enter
  | powerLoss answers issued enter =>
    obtain ⟨u, hu, rfl⟩ := thenNext_eq_next hstep
    obtain ⟨hcfg, hprof⟩ := cutIteration_params hu
    exact resetMachine (by rw [hcfg]; exact h.cfg) (by rw [hprof]; exact h.prof) (h.cutIteration_wf hu) enter

end InvParts

/-- Settles O57, by the agent that moves. -/
theorem stepKeepsInvariant : Obligations.StepKeepsInvariant := by
  intro s t hinv hstep
  obtain ⟨-, hagent⟩ := step_cases hstep
  have hnext : InvParts (nextEvent s).2 := by
    rw [nextEvent_snd]
    exact (inv_iff.mp hinv).withEnv _
  exact inv_iff.mpr (hnext.agentStep hagent)

/-- Settles O56: the state of `State.reset` is one that a reset leaves, and its parameters meet their constraints. -/
theorem resetSatisfiesInvariant : Obligations.ResetSatisfiesInvariant := by
  have hcfg : Cfg.reference.Ok := by decide
  have hprof : Prof.default.Ok := by decide
  exact inv_iff.mpr (InvParts.resetMachine (s := State.reset) hcfg hprof rfl true)

/-! ## Status outputs, TX and Jump -/

/-- Settles O55; between steps `FS` is neither FLUSHING nor VERIFYING, by the invariant. -/
theorem statusOutputs : Obligations.StatusOutputs := by
  intro s
  have hflash : stFlash s = true ↔ s.fs = .flushing ∨ s.fs = .verifying := by simp [stFlash]
  refine ⟨by simp [stTransfer], hflash, fun hinv => ?_⟩
  rw [Bool.eq_false_iff, Ne, hflash]
  rcases (inv_iff.mp hinv).fs with hfs | hfs | hfs <;> simp [hfs]

/-- Settles O21, by whether the drain is enabled. -/
theorem transmitDrains : Obligations.TransmitDrains := by
  intro s k
  constructor
  · intro hrun _ hk hlen
    simp only [agentStep, if_pos (show DrainEnabled k s from ⟨hrun, hk, hlen⟩), txDrain]
  · intro hoff
    simp only [agentStep, if_neg (show ¬ DrainEnabled k s from hoff)]

/-- In mode JUMPED every agent's step but reset and power loss does nothing (R20; for TX assumption log 19). -/
theorem agentStep_of_jumped {s : State} {e : Event} (hm : s.mode = .jumped) (hreset : ∀ enter, e ≠ .reset enter)
    (hpower : ∀ answers issued enter, e ≠ .powerLoss answers issued enter) : agentStep e s = .next s := by
  have hrun : s.mode ≠ .run := by simp [hm]
  cases e with
  | rx chunk => simp only [agentStep, if_neg hrun]
  | tx k => simp only [agentStep, if_neg (show ¬ DrainEnabled k s from fun h => hrun h.1)]
  | tick => simp only [agentStep, if_neg (show ¬ TickEnabled s from fun h => hrun h.1)]
  | iterate => simp only [agentStep, if_neg (show ¬ IterateEnabled s from fun h => hrun h.1)]
  | jump => simp only [agentStep, if_neg (show ¬ JumpEnabled s from fun h => hrun h.1)]
  | reset enter => exact absurd rfl (hreset enter)
  | powerLoss answers issued enter => exact absurd rfl (hpower answers issued enter)

/-- Settles O23: after the Jump step the mode is JUMPED, in which no agent but the surroundings moves. -/
theorem jumpHandsOver : Obligations.JumpHandsOver := by
  intro s
  constructor
  · intro hrun hxs hgt
    have hjump : agentStep .jump s = .next (jumpStep s) := by
      simp only [agentStep, if_pos (show JumpEnabled s from ⟨hrun, hxs, hgt⟩)]
    exact ⟨jumpStep s, hjump, rfl, fun e => agentStep_of_jumped (jumpStep_mode s)⟩
  · intro hoff
    simp only [agentStep, if_neg (show ¬ JumpEnabled s from hoff)]

/-! ## CORE goes on -/

/-- A block at a good address can be read (R63, R66). -/
theorem addrOk_readable {c : Cfg} {a : Word} (hc : c.Ok) (ha : AddrOk c a) : Readable c a c.blockSize := by
  obtain ⟨-, -, ⟨-, hbase, -⟩, -⟩ := hc
  obtain ⟨hlow, -, hhigh⟩ := ha
  exact ⟨hbase.trans hlow, hhigh⟩

/-- No instruction faults where the invariant holds: the page that it flushes and the block that it reads exist. -/
theorem exec_goes_on {s : State} (h : InvParts s) (i : Instr) : ∃ t, exec i s = .next t := by
  cases i with
  | connect payload => rcases execConnect_cases payload s with ⟨-, he⟩ | ⟨-, he⟩ <;> exact ⟨_, he⟩
  | complete payload => rcases execComplete_cases payload s with ⟨-, he⟩ | ⟨-, he⟩ <;> exact ⟨_, he⟩
  | getTransportId payload => rcases execGetTransportId_cases payload s with ⟨-, he⟩ | ⟨-, he⟩ <;> exact ⟨_, he⟩
  | readBlock payload =>
    rcases execReadBlock_cases payload s with ⟨-, he⟩ | ⟨-, -, he⟩ | ⟨-, ha, hn, -⟩ | ⟨-, -, -, he⟩
    · exact ⟨_, he⟩
    · exact ⟨_, he⟩
    · exact absurd (addrOk_readable h.cfg ha) hn
    · exact ⟨_, he⟩
  | writeBlock payload =>
    rcases execWriteBlock_cases payload s with
      ⟨-, he⟩ | ⟨-, -, he⟩ | ⟨-, -, -, he⟩ | ⟨-, ha, -, hn, -⟩ | ⟨-, -, -, -, r, u, -, -, he⟩
    · exact ⟨_, he⟩
    · exact ⟨_, he⟩
    · exact ⟨_, he⟩
    · exact absurd (pageBase_flushable h.cfg ha) hn
    · exact ⟨_, he⟩
  | endOfFile payload =>
    rcases execEndOfFile_cases payload s with ⟨-, he⟩ | ⟨-, -, he⟩ | ⟨-, hp, hn, -⟩ | ⟨-, -, -, r, u, -, -, he⟩
    · exact ⟨_, he⟩
    · exact ⟨_, he⟩
    · obtain ⟨-, hf⟩ := h.pending hp
      exact absurd hf hn
    · exact ⟨_, he⟩
  | unknown | ack | nackLen | nackTrailer | nackCrc | nackCmd | commandError => exact ⟨_, rfl⟩

/-- Running an instruction and then moving on goes on. -/
theorem thenNext_exec_goes_on {s : State} (h : InvParts s) (i : Instr) (k : State → State) :
    ∃ t, thenNext k (exec i s) = .next t := by
  obtain ⟨t, ht⟩ := exec_goes_on h i
  exact ⟨k t, by rw [ht]; rfl⟩

/-- No reframer iteration stops where the invariant holds (R317). -/
theorem iterate_goes_on {s : State} (h : InvParts s) : ∃ t, iterate s = .next t := by
  unfold iterate
  cases decode s.cfg s.prof s.rb.pending with
  | ok r => exact thenNext_exec_goes_on h _ _
  | error e =>
    cases e with
    | tooLarge | badTrailer | badCrc => exact thenNext_exec_goes_on h _ _
    | empty | noise | shortHead | badSignature | shortBody => exact ⟨_, rfl⟩

/-- The invariant does not look at the answers of the oracle. -/
theorem withAnswers_inv {s : State} (h : InvParts s) (answers : List FlashDraw) : InvParts (withAnswers answers s) :=
  h.withEnv _

/-- An iteration that a power loss cuts does not fault either (R353). -/
theorem cutIteration_goes_on {s : State} (h : InvParts s) (answers : List FlashDraw) (issued : Nat) :
    ∃ t, cutIteration answers issued s = .next t := by
  unfold cutIteration
  split
  · obtain ⟨u, hu⟩ := iterate_goes_on (withAnswers_inv h answers)
    exact ⟨_, by rw [hu]; rfl⟩
  · exact ⟨s, rfl⟩

/-! ## The page that a power loss tears -/

/-- Which page an instruction flushes does not depend on the answers of the oracle. -/
theorem flushTarget_withAnswers (i : Instr) (answers : List FlashDraw) (s : State) :
    flushTarget i (withAnswers answers s) = flushTarget i s := by
  cases i <;> rfl

/-- The state in which the flush of instruction `i` begins, as far as flash is concerned, with the oracle answers of a
cut iteration: the page is staged (R222, R240). -/
def flushStart (i : Instr) (answers : List FlashDraw) (s : State) : State :=
  { withAnswers answers s with sp := { s.sp with buf := stagedPage i (withAnswers answers s) } }

/-- Of an iteration that runs a command which flushes, a cut leaves the first `issued` operations of that flush (R230,
R353). -/
theorem cutIteration_flush {s t : State} {answers : List FlashDraw} {issued : Nat} {i : Instr} {len : Nat} {pa : Word}
    (h : InvParts s) (hcut : cutIteration answers issued s = .next t) (hen : IterateEnabled s)
    (hd : decode s.cfg s.prof s.rb.pending = .ok (i, len)) (ht : flushTarget i s = some pa) :
    ∃ es, FlushOrder pa (flushStart i answers s) es ∧
      t.flash = (replayFlash (es.take issued) (flushStart i answers s)).flash := by
  have h' := withAnswers_inv h answers
  obtain ⟨u, hu⟩ := exec_goes_on h' i
  have hit : iterate (withAnswers answers s) = .next (advance len u) := by
    have hd' : decode (withAnswers answers s).cfg (withAnswers answers s).prof (withAnswers answers s).rb.pending =
      .ok (i, len) := hd
    simp only [iterate, hd', hu, thenNext]
  obtain ⟨es, hlog, -, -, hflush⟩ := exec_events h'.cfg h'.staging hu
  obtain ⟨-, -, horder⟩ := hflush pa ((flushTarget_withAnswers i answers s).trans ht)
  obtain ⟨es', -, hflash, hall, -⟩ := cutIteration_events h.cfg h.staging hcut
  obtain ⟨hlog', -⟩ := hall _ hen hit
  have hes : es' = es := List.append_cancel_left (hlog'.symm.trans hlog)
  refine ⟨es, horder, ?_⟩
  rw [hflash, hes]
  exact (replayFlash_congr (s := withAnswers answers s) (t := flushStart i answers s) (es.take issued) rfl rfl rfl).1

/-- The queries of the flash port change no byte (R65, R66). -/
theorem replayFlash_queries {pa : Word} {s : State} {es : List FlashEvent} (h : es <+: [.isErased pa, .read pa]) :
    (replayFlash es s).flash = s.flash := by
  rcases List.prefix_cons_iff.mp h with rfl | ⟨more, rfl, hmore⟩
  · rfl
  · rcases List.prefix_cons_iff.mp hmore with rfl | ⟨last, rfl, hlast⟩
    · rfl
    · rw [List.prefix_nil.mp hlast]; rfl

/-- Before its first erase or program a flush has left flash as it was (R230). -/
theorem flushOrder_untouched {pa : Word} {s : State} {es : List FlashEvent} {n : Nat} (ho : FlushOrder pa s es)
    (hn : (pageAt s pa = erasedPage s.cfg ∧ n ≤ 1) ∨ (pageAt s pa ≠ erasedPage s.cfg ∧ n ≤ 2)) :
    (replayFlash (es.take n) s).flash = s.flash := by
  unfold FlushOrder at ho
  refine replayFlash_queries (pa := pa) ?_
  rcases hn with ⟨he, hn⟩ | ⟨he, hn⟩
  · rw [if_pos he] at ho
    obtain ⟨rest, rfl⟩ := ho
    exact (List.take_prefix_take_left hn).trans ⟨[.read pa], rfl⟩
  · rw [if_neg he] at ho
    obtain ⟨⟨rest, rfl⟩, -⟩ := ho
    exact List.take_prefix_take_left hn

/-- An erase that fails leaves the bytes of its answer (R67). -/
theorem flashErase_torn {pa : Word} {s : State} {reported : FlashStatus} {torn : List Byte} {rest : List FlashDraw}
    (hw : Memory.wf s.flash = true) (hlen : torn.length = s.cfg.pageSize)
    (hd : s.env.draws = .fail reported torn :: rest) :
    Memory.readBytes (flashErase pa s).2.flash pa.toNat torn.length = torn := by
  have hbytes : erasedBytes s.cfg (nextDraw s).1 = torn := by
    rw [(nextDraw_listed hd).1]
    exact pageBytes_of_length hlen
  rw [flashErase_eq, hbytes]
  exact Memory.readBytes_writeBytes_same pa.toNat torn hw

/-- A program that fails leaves the bytes of its answer (R68). -/
theorem flashProgram_torn {pa : Word} {s : State} {data torn : List Byte} {reported : FlashStatus}
    {rest : List FlashDraw} (hw : Memory.wf s.flash = true) (hlen : torn.length = s.cfg.pageSize)
    (hd : s.env.draws = .fail reported torn :: rest) :
    Memory.readBytes (flashProgram pa data s).2.flash pa.toNat torn.length = torn := by
  have hbytes : ∀ old, programmedBytes s.cfg old data (nextDraw s).1 = torn := fun old => by
    rw [(nextDraw_listed hd).1]
    exact pageBytes_of_length hlen
  rw [flashProgram_eq, hbytes]
  exact Memory.readBytes_writeBytes_same pa.toNat torn hw

/-- An erase that succeeds takes its answer from the list and keeps the build and the form of flash (R67). -/
theorem flashErase_ok {pa : Word} {s : State} {rest : List FlashDraw} (hw : Memory.wf s.flash = true)
    (hd : s.env.draws = .ok :: rest) :
    (flashErase pa s).2.cfg = s.cfg ∧ (flashErase pa s).2.env.draws = rest ∧
      Memory.wf (flashErase pa s).2.flash = true := by
  rw [flashErase_eq]
  refine ⟨rfl, ?_, Memory.wf_writeBytes _ _ hw⟩
  rw [(nextDraw_listed hd).2]

/-- An erase or program of a flush that is the last one issued, and whose answer fails, leaves the page torn: the program
of an erased page, the erase of another page, or the program after that erase (R230, R353). -/
theorem flushOrder_torn {pa : Word} {s : State} {es : List FlashEvent} {n : Nat} {reported : FlashStatus}
    {torn : List Byte} {rest : List FlashDraw} (ho : FlushOrder pa s es) (hw : Memory.wf s.flash = true)
    (hlen : torn.length = s.cfg.pageSize)
    (hcase : (s.env.draws = .fail reported torn :: rest ∧
        ((pageAt s pa = erasedPage s.cfg ∧ n = 2) ∨
          (pageAt s pa ≠ erasedPage s.cfg ∧ pageAt s pa ≠ s.sp.buf ∧ n = 3))) ∨
      (s.env.draws = .ok :: .fail reported torn :: rest ∧
        pageAt s pa ≠ erasedPage s.cfg ∧ pageAt s pa ≠ s.sp.buf ∧ n = 4)) :
    Memory.readBytes (replayFlash (es.take n) s).flash pa.toNat s.cfg.pageSize = torn := by
  rw [← hlen]
  unfold FlushOrder at ho
  rcases hcase with ⟨hd, ⟨he, rfl⟩ | ⟨he, hne, rfl⟩⟩ | ⟨hd, he, hne, rfl⟩
  · rw [if_pos he] at ho
    obtain ⟨more, rfl⟩ := ho
    exact flashProgram_torn (pa := pa) (data := s.sp.buf) (s := replayFlash [.isErased pa] s) hw hlen hd
  · rw [if_neg he] at ho
    obtain ⟨⟨more, rfl⟩, -⟩ := ho.2 hne
    exact flashErase_torn (pa := pa) (s := replayFlash [.isErased pa, .read pa] s) hw hlen hd
  · rw [if_neg he] at ho
    have hok : drawStatus (nextDraw s).1 = .ok := by rw [(nextDraw_listed hd).1]; rfl
    obtain ⟨more, rfl⟩ := (ho.2 hne).2 hok
    obtain ⟨hcfg, hdraws, hwf⟩ :=
      flashErase_ok (pa := pa) (s := replayFlash [.isErased pa, .read pa] s) hw hd
    exact flashProgram_torn (pa := pa) (data := s.sp.buf) hwf (hlen.trans (congrArg Cfg.pageSize hcfg.symm)) hdraws

/-- Settles O26: the cut iteration keeps the first operations of one flush, and the reset after it keeps flash and the
traces. -/
theorem powerLossTearsOnePage : Obligations.PowerLossTearsOnePage := by
  intro s answers issued enter hinv
  have h := inv_iff.mp hinv
  obtain ⟨u, hcut⟩ := cutIteration_goes_on h answers issued
  obtain ⟨es, hlog, hflash, hall, hidle, hpage⟩ := cutIteration_events h.cfg h.staging hcut
  refine ⟨resetMachine enter u, ?_, ?_, ?_, ?_, ?_, ?_⟩
  · simp only [agentStep, hcut, thenNext]
  · rcases cutIteration_cases hcut with ⟨rfl, -⟩ | ⟨-, v, -, rfl⟩ <;> rfl
  · intro a hout
    rw [resetMachine_flash, hflash]
    rcases hpage with rfl | ⟨i, len, pa, hen, hd, ht, -, hon⟩
    · rw [List.take_nil]; rfl
    · have ha : OutsidePage s.cfg pa a := hout i len pa hen hd ((flushTarget_withAnswers i answers s).symm.trans ht)
      exact (replayFlash_onPage (es.take issued) (withAnswers answers s)
        fun e he => hon e (List.mem_of_mem_take he)).1 a ha
  · intro hoff
    rw [resetMachine_trace, hlog, hidle hoff]
    simp
  · intro v hen hv
    obtain ⟨hlogv, hflashv⟩ := hall v hen hv
    refine ⟨es, hlogv, hlog, fun hle => ?_⟩
    rw [resetMachine_flash, hflash, List.take_of_length_le hle, hflashv]
  · intro i len pa hen hd ht
    obtain ⟨es', horder, hflash'⟩ := cutIteration_flush h hcut hen hd ht
    have hcfg : u.cfg = s.cfg := (cutIteration_params hcut).1
    refine ⟨fun hn => ?_, fun reported torn rest hlen hcase => ?_⟩
    · rw [resetMachine_flash, hflash']
      exact flushOrder_untouched horder hn
    · have htorn := flushOrder_torn (reported := reported) (rest := rest) horder h.flash hlen hcase
      unfold pageAt
      rw [resetMachine_flash, resetMachine_cfg, hflash', hcfg]
      exact htorn

end Sys2Proof.Proofs
end

section
/-! PROOFS. The statements of spec/20_memory.md: the flash port (R65 to R68), the address check (R63), what instructions and
steps leave unchanged (R64, R77, R82, R207), CORE as its stream of instructions (R181, R183), and written blocks read back
(R71, R79). -/

namespace Sys2Proof.Proofs

open Sys2Proof Sys2Proof.Machine
open Host (Outcome)

/-! ## The flash port -/

/-- An erase takes the answer listed next, writes the page, and logs; nothing else (R67, R69). -/
theorem flashErase_listed {pa : Word} {s : State} {d : FlashDraw} {ds : List FlashDraw} (hd : s.env.draws = d :: ds) :
    flashErase pa s = (drawStatus d,
      { s with
        flash := Memory.writeBytes s.flash pa.toNat (erasedBytes s.cfg d)
        env := { s.env with draws := ds }
        trace := { s.trace with flashLog := s.trace.flashLog ++ [.erase pa] } }) := by
  obtain ⟨hdraw, henv⟩ := nextDraw_listed hd
  rw [flashErase_eq, hdraw, henv]

/-- A program takes the answer listed next, writes the page, and logs; nothing else (R68, R69). -/
theorem flashProgram_listed {pa : Word} {data : List Byte} {s : State} {d : FlashDraw} {ds : List FlashDraw}
    (hd : s.env.draws = d :: ds) :
    flashProgram pa data s = (drawStatus d,
      { s with
        flash := Memory.writeBytes s.flash pa.toNat
          (programmedBytes s.cfg (Memory.readBytes s.flash pa.toNat data.length) data d)
        env := { s.env with draws := ds }
        trace := { s.trace with flashLog := s.trace.flashLog ++ [.program pa data] } }) := by
  obtain ⟨hdraw, henv⟩ := nextDraw_listed hd
  rw [flashProgram_eq, hdraw, henv]

/-- A byte of a string that was just written is found at its address. -/
theorem read_writeBytes_at {m : Memory} {bs : List Byte} {a k : Nat} (hw : Memory.wf m = true) (hk : k < bs.length) :
    Memory.read (Memory.writeBytes m a bs) (a + k) = bs[k] := by
  have hread := Memory.readBytes_getElem? (Memory.writeBytes m a bs) a bs.length k
  rw [Memory.readBytes_writeBytes_same a bs hw, if_pos hk, List.getElem?_eq_getElem hk] at hread
  exact (Option.some.inj hread).symm

/-- A whole page that was just written reads back. -/
theorem readBytes_writeBytes_page {m : Memory} {bs : List Byte} {a n : Nat} (hw : Memory.wf m = true)
    (hlen : bs.length = n) : Memory.readBytes (Memory.writeBytes m a bs) a n = bs := by
  subst hlen
  exact Memory.readBytes_writeBytes_same a bs hw

/-- Settles O33, from the string that each answer leaves in the page. -/
theorem flashEraseEffect : Obligations.FlashEraseEffect := by
  intro s pa d ds hw _ hd
  refine ⟨_, _, flashErase_listed hd, rfl, fun a ha => ?_, ?_, ?_⟩
  · exact Memory.read_writeBytes_outside (by simpa using ha)
  · rintro rfl
    refine ⟨rfl, fun a hlo hhi => ?_⟩
    obtain ⟨k, rfl⟩ := Nat.exists_eq_add_of_le hlo
    have hk : k < (erasedBytes s.cfg .ok).length := by rw [erasedBytes_length]; omega
    rw [read_writeBytes_at hw hk]
    exact List.getElem_replicate _
  · rintro reported bytes rfl hlen
    have hpage : erasedBytes s.cfg (.fail reported bytes) = bytes := pageBytes_of_length hlen
    exact ⟨rfl, by rw [hpage]; exact readBytes_writeBytes_page hw hlen⟩

/-- Settles O34, from the string that each answer leaves in the page. -/
theorem flashProgramEffect : Obligations.FlashProgramEffect := by
  intro s pa data d ds hw _ hdata hd
  have hlen := programmedBytes_length (old := Memory.readBytes s.flash pa.toNat data.length) d hdata (by simp)
  refine ⟨_, _, flashProgram_listed hd, rfl, fun a ha => ?_, ?_, ?_⟩
  · exact Memory.read_writeBytes_outside (by rw [hlen]; exact ha)
  · rintro rfl
    refine ⟨rfl, fun k hk => ?_⟩
    have hk' : k < data.length := by omega
    have hold : (Memory.readBytes s.flash pa.toNat data.length)[k]'(by simpa using hk') =
        Memory.read s.flash (pa.toNat + k) := by
      rw [List.getElem_eq_iff, Memory.readBytes_getElem?, if_pos hk']
    rw [read_writeBytes_at hw (by omega)]
    simp [programmedBytes, hold, hk']
  · rintro reported bytes rfl hbytes
    have hpage : ∀ old, programmedBytes s.cfg old data (.fail reported bytes) = bytes :=
      fun _ => pageBytes_of_length hbytes
    exact ⟨rfl, by rw [hpage]; exact readBytes_writeBytes_page hw hbytes⟩

/-- Settles O35: both queries look at the bytes that `Memory.readBytes` gives, and only log. -/
theorem flashQueries : Obligations.FlashQueries := by
  intro s a n _ _
  have hget := Memory.readBytes_getElem? s.flash a.toNat n
  refine ⟨?_, rfl, Memory.readBytes_length _ _ _, fun k hk => ?_, rfl⟩
  · rw [flashIsErased_iff]
    constructor
    · intro h k hk
      have hk' := hget k
      rw [h] at hk'
      simpa [hk, erasedByte, eq_comm] using hk'
    · intro h
      rw [List.eq_replicate_iff]
      refine ⟨Memory.readBytes_length _ _ _, fun b hb => ?_⟩
      obtain ⟨k, hk⟩ := List.mem_iff_getElem?.mp hb
      rw [hget] at hk
      split at hk
      · rename_i hlt
        rw [h k hlt] at hk
        exact (Option.some.inj hk).symm
      · cases hk
  · exact (hget k).trans (if_pos hk)

/-! ## The address check -/

/-- An address error is answered COMMAND_ERROR, with no other effect (R63, R311). -/
theorem raiseEvent_addr_answered (s : State) : Answered (errorFrame s.prof) s (raiseEvent .addr s) := by
  rw [raiseEvent_command _ _ (.inr (.inr (.inl rfl)))]
  exact emit_answered _ _ s

/-- Settles O43: with the right word count, a bad address leaves only the answer. -/
theorem addressChecked : Obligations.AddressChecked := by
  intro s payload a hbad
  refine ⟨fun hw => ⟨_, ?_, raiseEvent_addr_answered s⟩, fun hw => ⟨_, ?_, raiseEvent_addr_answered s⟩⟩
  · rcases execWriteBlock_cases payload s with ⟨hn, -⟩ | ⟨-, -, he⟩ | ⟨-, ha, -⟩ | ⟨-, ha, -⟩ | ⟨-, ha, -⟩
    · exact absurd hw hn
    · exact he
    all_goals exact absurd ha hbad
  · rcases execReadBlock_cases payload s with ⟨hn, -⟩ | ⟨-, -, he⟩ | ⟨-, ha, -⟩ | ⟨-, ha, -⟩
    · exact absurd hw hn
    · exact he
    all_goals exact absurd ha hbad

/-! ## What an instruction leaves unchanged -/

/-- Up to its response an instruction changes neither the parameters, the mode, the receive buffer, the queue, nor any
trace but `FLASHLOG`, nor the events listed (R77, R207). -/
theorem execShape_frame {i : Instr} {s u : State} (h : ExecShape i s u) :
    u = { s with
      sp := u.sp, xs := u.xs, fs := u.fs, wc := u.wc, gt := u.gt, flash := u.flash
      trace := { s.trace with flashLog := u.trace.flashLog }
      env := { s.env with draws := u.env.draws, drawn := u.env.drawn } } := by
  cases h with
  | same | connect | complete | eof => rfl
  | staged => rw [stageBlock_eq]
  | flushed pa v w r fs xs ht hf hv hx hs =>
    have hevents : s.env.events = w.env.events := by rw [hs.events, hv]
    rw [flushed_eq hv hs]
    simp only [hevents]

/-- Only WRITE_BLOCK and END_OF_FILE flush a page (R223, R240). -/
theorem flushTarget_some {i : Instr} {s : State} {pa : Word} (h : flushTarget i s = some pa) :
    (∃ payload, i = .writeBlock payload) ∨ ∃ payload, i = .endOfFile payload := by
  cases i with
  | writeBlock payload => exact .inl ⟨payload, rfl⟩
  | endOfFile payload => exact .inr ⟨payload, rfl⟩
  | _ => cases h

/-- Only COMPLETE starts the timer (R287). -/
theorem execShape_gt {i : Instr} {s u : State} (h : ExecShape i s u) (hi : ∀ payload, i ≠ .complete payload) :
    u.gt = s.gt := by
  cases h with
  | same | connect | eof => rfl
  | complete payload h => exact absurd h (hi payload)
  | staged => exact stageBlock_gt _ _ s
  | flushed pa v w r fs xs ht hf hv hx hs => rw [flushed_eq hv hs]

/-- Only CONNECT, WRITE_BLOCK, END_OF_FILE and COMPLETE touch the staging page and the two state machines. -/
theorem execShape_same {i : Instr} {s u : State} (h : ExecShape i s u) (hc : ∀ payload, i ≠ .connect payload)
    (hw : ∀ payload, i ≠ .writeBlock payload) (he : ∀ payload, i ≠ .endOfFile payload)
    (hd : ∀ payload, i ≠ .complete payload) : u = s := by
  cases h with
  | same => rfl
  | connect payload h => exact absurd h (hc payload)
  | complete payload h => exact absurd h (hd payload)
  | staged payload h => exact absurd h (hw payload)
  | eof payload h => exact absurd h (he payload)
  | flushed pa v w r fs xs ht =>
    rcases flushTarget_some ht with ⟨payload, h⟩ | ⟨payload, h⟩
    · exact absurd h (hw payload)
    · exact absurd h (he payload)

/-- An instruction that flushes no page leaves flash, its log and the oracle alone, and but for CONNECT the count
(R77, R235). -/
theorem execShape_no_flush {i : Instr} {s u : State} (h : ExecShape i s u) (hn : flushTarget i s = none) :
    ((∀ payload, i ≠ .connect payload) → u.wc = s.wc) ∧ u.flash = s.flash ∧ u.trace = s.trace ∧ u.env = s.env := by
  cases h with
  | same | complete | eof => exact ⟨fun _ => rfl, rfl, rfl, rfl⟩
  | connect payload h => exact ⟨fun hc => absurd h (hc payload), rfl, rfl, rfl⟩
  | staged => simp
  | flushed pa v w r fs xs ht =>
    rw [hn] at ht
    cases ht

/-- An instruction that flushes a page leaves the rest of flash alone (R64, R77). -/
theorem execShape_outside {i : Instr} {s u : State} {pa : Word} (hc : s.cfg.Ok) (hb : s.sp.buf.length = s.cfg.pageSize)
    (h : ExecShape i s u) (ht : flushTarget i s = some pa) :
    ∀ a, OutsidePage s.cfg pa a → Memory.read u.flash a = Memory.read s.flash a := by
  cases h with
  | flushed pa' v w r fs xs ht' hf hv hx hs =>
    rw [ht] at ht'
    cases ht'
    have hlen := stagedPage_length hc hb ht
    have hout := hs.outside (by rw [hv]; exact hlen)
    rw [hv] at hout
    exact hout
  | same hn | staged _ _ _ _ hn | eof _ _ _ hn => rw [hn] at ht; cases ht
  | connect _ hi | complete _ hi => subst hi; cases ht

/-- A response leaves every trace but the drop log (R265). -/
theorem txSend_trace (f : List Byte) (s : State) :
    (txSend f s).trace = { s.trace with dropLog := (txSend f s).trace.dropLog } := congrArg State.trace (txSend_eq f s)

/-- Settles O49: the response changes the queue and the drop log only, and the state before it is one of `ExecShape`. -/
theorem instructionFrame : Obligations.InstructionFrame := by
  intro i s t hc hb hexec
  obtain ⟨u, code, payload, hsh, rfl, -⟩ := exec_shape hexec
  have hframe := execShape_frame hsh
  obtain ⟨hcfg, hprof, hmode, hjump, hrb, hevents⟩ := exec_fields hexec
  have htrace := txSend_trace (buildFrame s.prof s.prof.crcFromTx code payload) u
  refine ⟨hcfg, hprof, hmode, hjump, hrb, hevents, by rw [htrace, hframe], by rw [htrace, hframe],
    fun hd => ?_, fun hn hw he hd => ?_, fun hn ht => ?_, fun ht => ?_, fun pa ht => ?_⟩
  · rw [txSend_gt]
    exact execShape_gt hsh hd
  · rw [txSend_sp, txSend_xs, txSend_fs, execShape_same hsh hn hw he hd]
    exact ⟨rfl, rfl, rfl⟩
  · rw [txSend_wc]
    exact (execShape_no_flush hsh ht).1 hn
  · obtain ⟨-, hflash, hlog, henv⟩ := execShape_no_flush hsh ht
    rw [htrace, txSend_flash, txSend_env, hflash, hlog, henv]
    exact ⟨fun _ => rfl, rfl, rfl, rfl⟩
  · rw [txSend_flash]
    exact execShape_outside hc hb hsh ht

/-! ## What a step leaves unchanged -/

/-- A page that can be flushed lies within `[APP_START, FLASH_END)` (R64, R230). -/
theorem outsidePage_of_protected {c : Cfg} {pa : Word} {a : Nat} (hf : Flushable c pa)
    (ha : a < c.appStart ∨ c.flashEnd ≤ a) : OutsidePage c pa a := by
  obtain ⟨-, hlo, hhi⟩ := hf
  exact ha.imp (fun h => h.trans_le hlo) (fun h => hhi.trans h)

/-- Operations on a page that can be flushed keep the bytes outside `[APP_START, FLASH_END)`. -/
theorem replayFlash_protected {es : List FlashEvent} {s : State} {pa : Word} {a : Nat} (hf : Flushable s.cfg pa)
    (hon : ∀ e ∈ es, OnPage s.cfg pa e) (ha : a < s.cfg.appStart ∨ s.cfg.flashEnd ≤ a) :
    Memory.read (replayFlash es s).flash a = Memory.read s.flash a :=
  (replayFlash_onPage es s hon).1 a (outsidePage_of_protected hf ha)

theorem iterate_protected {s t : State} {a : Nat} (h : InvParts s) (hit : iterate s = .next t)
    (ha : a < s.cfg.appStart ∨ s.cfg.flashEnd ≤ a) : Memory.read t.flash a = Memory.read s.flash a := by
  obtain ⟨es, -, hflash, rfl | ⟨i, len, pa, -, -, hf, hon⟩⟩ := iterate_events h.cfg h.staging hit
  · rw [← hflash]; rfl
  · rw [← hflash]
    exact replayFlash_protected hf hon ha

/-- Wherever power is lost, the flash operations done were on a page that can be flushed (R353). -/
theorem cutIteration_protected {s t : State} {answers : List FlashDraw} {issued a : Nat} (h : InvParts s)
    (hcut : cutIteration answers issued s = .next t) (ha : a < s.cfg.appStart ∨ s.cfg.flashEnd ≤ a) :
    Memory.read t.flash a = Memory.read s.flash a := by
  obtain ⟨es, -, hflash, -, -, hes⟩ := cutIteration_events h.cfg h.staging hcut
  rw [hflash]
  rcases hes with rfl | ⟨i, len, pa, -, -, -, hf, hon⟩
  · rw [List.take_nil]; rfl
  · exact replayFlash_protected (s := withAnswers answers s) hf (fun e he => hon e (List.mem_of_mem_take he)) ha

/-- Only an iteration, whole or cut, writes flash, and only where a page can be flushed (R64). -/
theorem agentStep_protected {e : Event} {s t : State} {a : Nat} (h : InvParts s) (hstep : agentStep e s = .next t)
    (ha : a < s.cfg.appStart ∨ s.cfg.flashEnd ≤ a) : Memory.read t.flash a = Memory.read s.flash a := by
  cases e with
  | rx | tx | tick | jump => cases hstep; split <;> simp
  | iterate =>
    simp only [agentStep] at hstep
    split at hstep
    · exact iterate_protected h hstep ha
    · cases hstep; rfl
  | reset enter => cases hstep; simp
  | powerLoss answers issued enter =>
    obtain ⟨u, hu, rfl⟩ := thenNext_eq_next hstep
    rw [resetMachine_flash]
    exact cutIteration_protected h hu ha

/-- Settles O59, by the agent that moves. -/
theorem bootloaderProtected : Obligations.BootloaderProtected := by
  intro s t a hinv hstep ha
  obtain ⟨-, hagent⟩ := step_cases hstep
  have hnext : InvParts (nextEvent s).2 := by
    rw [nextEvent_snd]
    exact (inv_iff.mp hinv).withEnv _
  have hread := agentStep_protected (a := a) hnext hagent (by rwa [nextEvent_cfg])
  rwa [nextEvent_flash] at hread

/-! ## Responses leave in order -/

/-- What has left KFE and what is queued to leave, in order (R37, R82). -/
def outbound (s : State) : List Byte := s.trace.txLog ++ s.txq

/-- `t` has at most one whole response frame more on its way than `s`. -/
def OneMoreFrame (s t : State) : Prop :=
  ∃ f, outbound t = outbound s ++ f ∧ (f = [] ∨ ∃ code payload, f = buildFrame s.prof s.prof.crcFromTx code payload)

theorem oneMoreFrame_of_eq {s t : State} (h : outbound t = outbound s) : OneMoreFrame s t :=
  ⟨[], by rw [h, List.append_nil], .inl rfl⟩

/-- A response is queued whole at the end, or dropped whole (R265). -/
theorem outbound_txSend (f : List Byte) (s : State) :
    outbound (txSend f s) = outbound s ++ f ∨ outbound (txSend f s) = outbound s := by
  unfold outbound txSend
  split
  · exact .inl (List.append_assoc _ _ _).symm
  · exact .inr rfl

/-- An instruction offers one response and nothing more (R201, R260). -/
theorem exec_oneMoreFrame {i : Instr} {s t : State} (h : exec i s = .next t) : OneMoreFrame s t := by
  obtain ⟨u, code, payload, hsh, rfl, -⟩ := exec_shape h
  have hu : outbound u = outbound s := by
    unfold outbound
    rw [execShape_frame hsh]
  rcases outbound_txSend (buildFrame s.prof s.prof.crcFromTx code payload) u with hq | hq
  · exact ⟨_, by rw [hq, hu], .inr ⟨code, payload, rfl⟩⟩
  · exact oneMoreFrame_of_eq (hq.trans hu)

theorem iterate_oneMoreFrame {s t : State} (h : iterate s = .next t) : OneMoreFrame s t := by
  rcases iterate_cases h with
    ⟨_, _, -, u, hu, rfl⟩ | ⟨_, -, rfl⟩ | ⟨-, rfl⟩ | ⟨_, _, -, -, -, -, u, hu, rfl⟩ | ⟨-, rfl⟩
  · exact (exec_oneMoreFrame hu :)
  · exact oneMoreFrame_of_eq rfl
  · exact oneMoreFrame_of_eq rfl
  · exact (exec_oneMoreFrame hu :)
  · exact oneMoreFrame_of_eq rfl

/-- TX moves bytes from the queue to the line and keeps their order (R266). -/
theorem outbound_txDrain (k : Nat) (s : State) : outbound (txDrain k s) = outbound s := by
  simp [outbound]

/-- Every agent's step but a reset lets at most one frame more leave (R82). -/
theorem agentStep_oneMoreFrame {e : Event} {s t : State} (h : agentStep e s = .next t)
    (hreset : ∀ enter, e ≠ .reset enter)
    (hpower : ∀ answers issued enter, e ≠ .powerLoss answers issued enter) : OneMoreFrame s t := by
  cases e with
  | rx chunk => cases h; refine oneMoreFrame_of_eq ?_; split <;> rfl
  | tx k =>
    cases h
    refine oneMoreFrame_of_eq ?_
    split
    · exact outbound_txDrain k s
    · rfl
  | tick => cases h; refine oneMoreFrame_of_eq ?_; split <;> rfl
  | iterate =>
    simp only [agentStep] at h
    split at h
    · exact iterate_oneMoreFrame h
    · cases h; exact oneMoreFrame_of_eq rfl
  | jump => cases h; refine oneMoreFrame_of_eq ?_; split <;> rfl
  | reset enter => exact absurd rfl (hreset enter)
  | powerLoss answers issued enter => exact absurd rfl (hpower answers issued enter)

/-- Settles O60, by the agent that moves. -/
theorem responsesLeaveInOrder : Obligations.ResponsesLeaveInOrder := by
  intro s t hstep hr
  obtain ⟨-, hagent⟩ := step_cases hstep
  obtain ⟨hreset, hpower⟩ := (resetsNext_eq_false_iff s).mp hr
  have hmore := agentStep_oneMoreFrame hagent hreset hpower
  rw [nextEvent_snd] at hmore
  exact hmore

/-! ## The receive buffer and the instructions

Each operation with the receive buffer replaced is the same operation with it replaced afterwards. -/

/-- `s` with another receive buffer. -/
def withRb (rb : RxBuffer) (s : State) : State := { s with rb := rb }

section ReceiveBuffer

variable (rb : RxBuffer)

theorem advance_eq_withRb (k : Nat) (s : State) : advance k s = withRb { s.rb with rp := s.rb.rp + k } s := rfl

theorem compact_eq_withRb (s : State) : compact s = withRb { buf := s.rb.pending, rp := 0 } s := rfl

theorem txSend_withRb (f : List Byte) (s : State) : txSend f (withRb rb s) = withRb rb (txSend f s) := by
  unfold txSend
  rw [apply_ite (withRb rb)]
  rfl

theorem emit_withRb (code : Byte) (payload : List Byte) (s : State) :
    emit code payload (withRb rb s) = withRb rb (emit code payload s) := txSend_withRb rb _ s

theorem raiseEvent_withRb (e : ErrorEvent) (s : State) : raiseEvent e (withRb rb s) = withRb rb (raiseEvent e s) := by
  unfold raiseEvent
  cases h : errorResponse s.prof e with
  | none => simp only [withRb, h]
  | some code => simpa only [withRb, h] using emit_withRb rb code [] s

theorem setXs_withRb (v : TransferState) (s : State) : setXs v (withRb rb s) = withRb rb (setXs v s) := by
  unfold setXs
  rw [apply_ite (withRb rb)]
  rfl

theorem flashProgram_withRb (pa : Word) (data : List Byte) (s : State) :
    flashProgram pa data (withRb rb s) = Prod.map id (withRb rb) (flashProgram pa data s) := by
  obtain ⟨hdraw, henv⟩ := nextDraw_congr (s := withRb rb s) (t := s) rfl
  rw [flashProgram_eq, flashProgram_eq, hdraw, henv]
  rfl

theorem programAndVerify_withRb (pa : Word) (s : State) :
    programAndVerify pa (withRb rb s) = Prod.map id (withRb rb) (programAndVerify pa s) := by
  obtain ⟨hdraw, henv⟩ := nextDraw_congr (s := withRb rb s) (t := s) rfl
  rw [programAndVerify_eq, programAndVerify_eq, hdraw, henv]
  simp only [flushDone_eq, apply_ite (Prod.map id (withRb rb))]
  rfl

theorem flushPage_withRb (pa : Word) (s : State) :
    flushPage pa (withRb rb s) = Prod.map id (withRb rb) (flushPage pa s) := by
  obtain ⟨hdraw, henv⟩ := nextDraw_congr (s := withRb rb s) (t := s) rfl
  have herased : flushErased pa (withRb rb s) = withRb rb (flushErased pa s) := by
    unfold flushErased
    rw [hdraw, henv]
    rfl
  rw [flushPage_eq, flushPage_eq, hdraw, herased, programAndVerify_withRb]
  simp only [apply_ite (Prod.map id (withRb rb)), ← programAndVerify_withRb]
  rfl

theorem flushThen_withRb {k : State → State} (hk : ∀ s, k (withRb rb s) = withRb rb (k s)) (s : State) :
    flushThen k (withRb rb s) = thenNext (withRb rb) (flushThen k s) := by
  have hfail : ∀ t, flushFailed (withRb rb t) = withRb rb (flushFailed t) := fun t => by
    rw [flushFailed_eq, flushFailed_eq, ← emit_withRb]
    rfl
  have hflush : flush s.sp.addr (withRb rb s) = (flush s.sp.addr s).map (Prod.map id (withRb rb)) := by
    unfold flush
    rw [flushPage_withRb, apply_ite (Option.map (Prod.map id (withRb rb)))]
    rfl
  unfold flushThen
  rw [show (withRb rb s).sp = s.sp from rfl, hflush]
  rcases flush s.sp.addr s with _ | ⟨r, t⟩
  · rfl
  · cases r with
    | ok => exact congrArg Outcome.next (hk t)
    | skip => exact congrArg Outcome.next (hk t)
    | fail => exact congrArg Outcome.next (hfail t)

theorem execConnect_withRb (payload : List Byte) (s : State) :
    execConnect payload (withRb rb s) = thenNext (withRb rb) (execConnect payload s) := by
  unfold execConnect
  rw [apply_ite (thenNext (withRb rb))]
  simp only [thenNext, ← raiseEvent_withRb, ← emit_withRb, ← setXs_withRb, setXs_cfg, setXs_prof]
  rfl

theorem execWriteBlock_withRb (payload : List Byte) (s : State) :
    execWriteBlock payload (withRb rb s) = thenNext (withRb rb) (execWriteBlock payload s) := by
  have hack : ∀ addr t, ackWriteBlock addr (withRb rb t) = withRb rb (ackWriteBlock addr t) :=
    fun addr t => emit_withRb rb _ _ (setFs .accumulating t)
  have hstage : ∀ addr data t, stageBlock addr data (withRb rb t) = withRb rb (stageBlock addr data t) :=
    fun addr data t => by
      rw [stageBlock_eq, stageBlock_eq]
      rfl
  unfold execWriteBlock
  simp only [apply_ite (thenNext (withRb rb)), ← flushThen_withRb rb (hack _)]
  simp only [thenNext, ← raiseEvent_withRb, ← hack, ← hstage]
  rfl

theorem execEndOfFile_withRb (payload : List Byte) (s : State) :
    execEndOfFile payload (withRb rb s) = thenNext (withRb rb) (execEndOfFile payload s) := by
  have hack : ∀ t, ackEof (withRb rb t) = withRb rb (ackEof t) := fun t => by
    rw [ackEof_eq, ackEof_eq, ← emit_withRb]
    rfl
  unfold execEndOfFile
  simp only [apply_ite (thenNext (withRb rb)), ← flushThen_withRb rb hack]
  simp only [thenNext, ← raiseEvent_withRb, ← hack]
  rfl

theorem execReadBlock_withRb (payload : List Byte) (s : State) :
    execReadBlock payload (withRb rb s) = thenNext (withRb rb) (execReadBlock payload s) := by
  unfold execReadBlock
  simp only [apply_ite (thenNext (withRb rb))]
  simp only [thenNext, ← raiseEvent_withRb, ← emit_withRb, ← setXs_withRb, setXs_cfg, setXs_prof, setXs_flash]
  rfl

theorem execComplete_withRb (payload : List Byte) (s : State) :
    execComplete payload (withRb rb s) = thenNext (withRb rb) (execComplete payload s) := by
  unfold execComplete
  rw [apply_ite (thenNext (withRb rb))]
  simp only [thenNext, ← raiseEvent_withRb, ← emit_withRb]
  rfl

theorem execGetTransportId_withRb (payload : List Byte) (s : State) :
    execGetTransportId payload (withRb rb s) = thenNext (withRb rb) (execGetTransportId payload s) := by
  unfold execGetTransportId
  rw [apply_ite (thenNext (withRb rb))]
  simp only [thenNext, ← raiseEvent_withRb, ← emit_withRb]
  rfl

/-- No instruction reads or writes the receive buffer (R77). -/
theorem exec_withRb (i : Instr) (s : State) : exec i (withRb rb s) = thenNext (withRb rb) (exec i s) := by
  cases i with
  | connect payload => exact execConnect_withRb rb payload s
  | writeBlock payload => exact execWriteBlock_withRb rb payload s
  | endOfFile payload => exact execEndOfFile_withRb rb payload s
  | readBlock payload => exact execReadBlock_withRb rb payload s
  | complete payload => exact execComplete_withRb rb payload s
  | getTransportId payload => exact execGetTransportId_withRb rb payload s
  | unknown cmd payload => exact congrArg Outcome.next (raiseEvent_withRb rb _ s)
  | ack | nackLen | nackTrailer | nackCrc | nackCmd | commandError =>
    rw [exec_response _ _ rfl, exec_response _ _ rfl]
    exact congrArg Outcome.next (txSend_withRb rb _ s)

/-- A list of instructions neither reads nor writes the receive buffer. -/
theorem runExec_withRb (is : List Instr) (s : State) :
    runExec is (withRb rb s) = thenNext (withRb rb) (runExec is s) := by
  induction is generalizing s with
  | nil => rfl
  | cons i rest ih =>
    simp only [runExec, exec_withRb]
    cases exec i s with
    | next t => exact ih t
    | fault r => rfl
    | refused r => rfl

end ReceiveBuffer

/-! ## CORE and the scan of its stream -/

/-- CORE at rest stays as it is. -/
theorem runCore_of_not_enabled {s : State} (n : Nat) (h : ¬ IterateEnabled s) : runCore n s = .next s := by
  cases n with
  | zero => rfl
  | succ n => simp only [runCore, if_neg h]

/-- An enabled iteration comes first. -/
theorem runCore_succ {s t : State} (n : Nat) (h : IterateEnabled s) (hit : iterate s = .next t) :
    runCore (n + 1) s = runCore n t := by
  simp only [runCore, if_pos h, hit]

/-- The scan finds nothing where the reframer waits, and the iteration compacts (R172, R182). -/
theorem scan_of_waiting {s : State} (h : Waiting s.cfg s.prof s.rb.pending) :
    scanStream s.cfg s.prof s.rb.pending = ([], s.rb.pending) ∧ iterate s = .next (compact s) := by
  rw [scanStream_eq]
  unfold iterate
  rcases (waiting_iff _ _ _).mp h with hd | hd | hd <;> rw [hd] <;> exact ⟨rfl, rfl⟩

/-- Where the reframer does not wait, an iteration runs what one round of the scan finds, if anything, and moves past the
bytes of that round (R183). -/
theorem scan_of_not_waiting {s : State} (h : InvParts s) (hnw : ¬ Waiting s.cfg s.prof s.rb.pending) :
    ∃ is k u, 0 < k ∧ k ≤ s.rb.pending.length ∧ u.rb = s.rb ∧ runExec is s = .next u ∧
      iterate s = .next (advance k u) ∧
      scanStream s.cfg s.prof s.rb.pending =
        (is ++ (scanStream s.cfg s.prof (s.rb.pending.drop k)).1,
          (scanStream s.cfg s.prof (s.rb.pending.drop k)).2) := by
  have hrun : ∀ {i u}, exec i s = .next u → u.rb = s.rb ∧ runExec [i] s = .next u := fun hu => by
    obtain ⟨-, -, -, -, hrb, -⟩ := exec_fields hu
    exact ⟨hrb, by simp only [runExec, hu]⟩
  obtain ⟨t, hit⟩ := iterate_goes_on h
  rw [hit, scanStream_eq]
  rcases iterate_cases hit with
    ⟨i, len, hd, u, hu, rfl⟩ | ⟨k, hd, rfl⟩ | ⟨hd, rfl⟩ | ⟨i, e, hfinal, hie, hd, -, u, hu, rfl⟩ | ⟨hw, -⟩
  · obtain ⟨h8, hle, -⟩ := decode_ok_len hd
    obtain ⟨hrb, hi⟩ := hrun hu
    exact ⟨[i], len, u, by omega, hle, hrb, hi, rfl, by rw [hd]; rfl⟩
  · obtain ⟨-, -, hpos, hle⟩ := decode_noise hd
    exact ⟨[], k, s, hpos, hle, rfl, rfl, rfl, by rw [hd]; rfl⟩
  · have h4 := decode_final_len (e := .badSignature) trivial hd
    exact ⟨[], 1, s, by omega, by omega, rfl, rfl, rfl, by rw [hd]; rfl⟩
  · have h4 := decode_final_len hfinal hd
    obtain ⟨hrb, hi⟩ := hrun hu
    refine ⟨[i], 2, u, by omega, by omega, hrb, hi, rfl, ?_⟩
    rw [hd]
    rcases hie with ⟨rfl, rfl⟩ | ⟨rfl, rfl⟩ | ⟨rfl, rfl⟩ <;> rfl
  · exact absurd hw hnw

/-- With an iteration for each unconsumed byte and one more, CORE does what running the scanned instructions does, and
then compacts: the buffer keeps the bytes that wait (R181, R183). -/
theorem runCore_scan (n : Nat) {s : State} (h : InvParts s) (hrun : s.mode = .run) (hn : s.rb.pending.length < n) :
    ∃ t, runExec (scanStream s.cfg s.prof s.rb.pending).1 s = .next t ∧
      runCore n s = .next (withRb { buf := (scanStream s.cfg s.prof s.rb.pending).2, rp := 0 } t) := by
  induction n generalizing s with
  | zero => omega
  | succ n ih =>
    by_cases hw : Waiting s.cfg s.prof s.rb.pending
    · obtain ⟨hscan, hit⟩ := scan_of_waiting hw
      refine ⟨s, by rw [hscan]; rfl, ?_⟩
      rw [hscan, ← compact_eq_withRb]
      by_cases hrp : s.rb.rp = 0
      · have hcompact : compact s = s := by
          unfold compact RxBuffer.pending
          rw [hrp, List.drop_zero, ← hrp]
        rw [hcompact]
        exact runCore_of_not_enabled _ fun hen => hen.2 ⟨hrp, hw⟩
      · rw [runCore_succ n ⟨hrun, fun hrest => hrp hrest.1⟩ hit]
        exact runCore_of_not_enabled n fun hen => hen.2 ⟨rfl, hw⟩
    · obtain ⟨is, k, u, hpos, hk, hrb, his, hit, hscan⟩ := scan_of_not_waiting h hw
      obtain ⟨hcfg, hprof, hmode⟩ := iterate_fields hit
      have hpend : (advance k u).rb.pending = s.rb.pending.drop k := by
        simp [RxBuffer.pending, hrb, List.drop_drop]
      obtain ⟨t', ht', hcore⟩ := ih (h.iterate hit) (hmode.trans hrun) (by rw [hpend, List.length_drop]; omega)
      rw [hcfg, hprof, hpend] at ht' hcore
      rw [advance_eq_withRb, runExec_withRb] at ht'
      obtain ⟨t, ht, rfl⟩ := thenNext_eq_next ht'
      refine ⟨t, ?_, ?_⟩
      · rw [hscan, runExec_append, his]
        exact ht
      · rw [hscan, runCore_succ n ⟨hrun, fun hrest => hw hrest.2⟩ hit, hcore]
        rfl

/-- Settles O28, by induction on the iterations that the unconsumed bytes can take. -/
theorem coreRunsTheScan : Obligations.CoreRunsTheScan := by
  intro s hinv hrun
  exact runCore_scan _ (inv_iff.mp hinv) hrun (by rw [pending_length]; omega)

/-! ## A written block reads back -/

/-- The address word of a block's request (R71, R107). -/
theorem payloadWord_wordBytes (p : Prof) (v : Word) (rest : List Byte) :
    payloadWord p (wordBytes p.wordEndian v ++ rest) 0 = v := by
  have hfirst : payloadWord p (wordBytes p.wordEndian v ++ rest) 0 =
      unword p.wordEndian (wordBytes p.wordEndian v) := by
    unfold payloadWord
    cases p.wordEndian <;> rfl
  rw [hfirst, unword_wordBytes]

/-- A program over an erased page whose answer is OK does not go wrong (R68). -/
theorem not_programFails {pa : Word} {staged : List Byte} {s : State} {ds : List FlashDraw}
    (hw : Memory.wf s.flash = true) (hlen : staged.length = s.cfg.pageSize) (hpage : pageAt s pa = erasedPage s.cfg)
    (hd : s.env.draws = .ok :: ds) : ¬ ProgramFails pa staged s := by
  have hbytes : programmedBytes s.cfg (Memory.readBytes s.flash pa.toNat staged.length) staged .ok = staged := by
    rw [hlen, show Memory.readBytes s.flash pa.toNat s.cfg.pageSize = _ from hpage]
    exact and_erased _ _ hlen
  unfold ProgramFails pageAt
  rw [flashProgram_listed hd, hbytes]
  simp [drawStatus, readBytes_writeBytes_page hw hlen]

/-- An erase whose answer is OK leaves an erased page (R67). -/
theorem pageAt_flashErase {pa : Word} {s : State} {ds : List FlashDraw} (hw : Memory.wf s.flash = true)
    (hd : s.env.draws = .ok :: ds) : pageAt (flashErase pa s).2 pa = erasedPage s.cfg := by
  unfold pageAt
  rw [flashErase_listed hd]
  exact readBytes_writeBytes_page hw (erasedBytes_length _ _)

/-- With two answers OK no flush goes wrong: it takes one erase and one program at most (R230). -/
theorem not_flushFails {pa : Word} {staged : List Byte} {s : State} {ds : List FlashDraw}
    (hw : Memory.wf s.flash = true) (hlen : staged.length = s.cfg.pageSize) (hd : s.env.draws = .ok :: .ok :: ds) :
    ¬ FlushFails pa staged s := by
  unfold FlushFails
  split
  · exact not_programFails hw hlen ‹_› hd
  · rintro ⟨-, hfail | hfail⟩
    · rw [flashErase_listed hd] at hfail
      cases hfail
    · obtain ⟨hcfg, hdraws, hwf⟩ := flashErase_ok (pa := pa) hw hd
      refine not_programFails hwf (hlen.trans (congrArg Cfg.pageSize hcfg.symm)) ?_ hdraws hfail
      rw [pageAt_flashErase hw hd, hcfg]

/-- A flush with no flash fault leaves the staged page (R230 to R234). -/
theorem flush_leaves_page {pa : Word} {s t : State} {r : FlushResult} {ds : List FlashDraw} (hs : FlushSpec pa s r t)
    (hw : Memory.wf s.flash = true) (hlen : s.sp.buf.length = s.cfg.pageSize)
    (hd : s.env.draws = .ok :: .ok :: ds) :
    r ≠ .fail ∧ Memory.readBytes t.flash pa.toNat s.cfg.pageSize = s.sp.buf := by
  have hr : r ≠ .fail := fun hfail => not_flushFails hw hlen hd (hs.fails.mp hfail)
  exact ⟨hr, hs.data hr⟩

/-- With no flash fault an accepted WRITE_BLOCK leaves its page staged, or flushed where the block ends it
(R221 to R224). -/
theorem writeBlock_stages {s : State} {payload : List Byte} {addr : Word} {ds : List FlashDraw} (h : InvParts s)
    (haddr : payloadWord s.prof payload 0 = addr) (ha : AddrOk s.cfg addr)
    (hw : wordCount payload = 1 + s.cfg.blockWords) (hd : s.env.draws = .ok :: .ok :: ds) :
    let staged := overlay s.sp.buf (pageOff s.cfg addr) (blockData s.cfg payload)
    ∃ t, exec (.writeBlock payload) s = .next t ∧
      ((t.sp.pending = true ∧ t.sp.addr = pageBase s.cfg addr ∧ t.sp.buf = staged ∧ t.env = s.env) ∨
        (t.sp.pending = false ∧
          Memory.readBytes t.flash (pageBase s.cfg addr).toNat s.cfg.pageSize = staged)) := by
  subst haddr
  intro staged
  have hlen : staged.length = s.cfg.pageSize := (staged_length h.cfg h.staging hw ha).2
  rcases execWriteBlock_cases payload s with
    ⟨hn, -⟩ | ⟨-, hn, -⟩ | ⟨-, -, -, he⟩ | ⟨-, -, -, hn, -⟩ | ⟨-, -, -, -, r, u, hs, -, he⟩
  · exact absurd hw hn
  · exact absurd ha hn
  · exact ⟨_, he, .inl (by simp [staged])⟩
  · exact absurd (pageBase_flushable h.cfg ha) hn
  · obtain ⟨hr, hpage⟩ := flush_leaves_page hs (by simpa using h.flash) (by simpa using hlen) (by simpa using hd)
    rw [if_neg hr] at he
    refine ⟨_, he, .inr ⟨?_, ?_⟩⟩
    · rw [ackWriteBlock_sp, hs.same]
    · simpa using hpage

/-- With no flash fault END_OF_FILE leaves the pending page in flash (R240). -/
theorem endOfFile_flushes {s : State} {ds : List FlashDraw} (h : InvParts s) (hp : s.sp.pending = true)
    (hd : s.env.draws = .ok :: .ok :: ds) :
    ∃ t, exec (.endOfFile []) s = .next t ∧
      Memory.readBytes t.flash s.sp.addr.toNat s.cfg.pageSize = s.sp.buf := by
  rcases execEndOfFile_cases [] s with ⟨hn, -⟩ | ⟨-, hn, -⟩ | ⟨-, -, hn, -⟩ | ⟨-, -, -, r, u, hs, -, he⟩
  · exact absurd rfl hn
  · rw [hp] at hn; cases hn
  · exact absurd (h.pending hp).2 hn
  · obtain ⟨hr, hpage⟩ := flush_leaves_page hs h.flash h.staging hd
    rw [if_neg hr] at he
    exact ⟨_, he, by rwa [ackEof_flash]⟩

/-- END_OF_FILE with nothing pending leaves flash alone (R240). -/
theorem endOfFile_nothing_pending {s : State} (hp : s.sp.pending = false) :
    ∃ t, exec (.endOfFile []) s = .next t ∧ t.flash = s.flash := by
  rcases execEndOfFile_cases [] s with ⟨hn, -⟩ | ⟨-, -, he⟩ | ⟨-, hn, -⟩ | ⟨-, hn, -⟩
  · exact absurd rfl hn
  · exact ⟨_, he, ackEof_flash s⟩
  all_goals rw [hp] at hn; cases hn

/-- A block that lies in a page at its offset is found at its address (R62). -/
theorem readBytes_block {c : Cfg} {m : Memory} {addr : Word} {buf data : List Byte} (hdata : data.length = c.blockSize)
    (hin : pageOff c addr + data.length ≤ buf.length) (hlen : buf.length = c.pageSize)
    (hpage : Memory.readBytes m (pageBase c addr).toNat c.pageSize = overlay buf (pageOff c addr) data) :
    Memory.readBytes m addr.toNat c.blockSize = data := by
  rw [← pageBase_toNat_add c addr, ← Memory.readBytes_drop_take _ _ c.pageSize _ _ (by omega), hpage, ← hdata]
  exact overlay_drop_take hin

/-- READ_BLOCK of a good address answers with the bytes of flash (R285). -/
theorem readBlock_answered {s : State} {payload : List Byte} {addr : Word} (hc : s.cfg.Ok)
    (haddr : payloadWord s.prof payload 0 = addr) (ha : AddrOk s.cfg addr) (hw : wordCount payload = 1) :
    ∃ t, exec (.readBlock payload) s = .next t ∧
      Answered (ackFrame s.prof
        (readBlockAck s.prof addr (Memory.readBytes s.flash addr.toNat s.cfg.blockSize))) s t := by
  subst haddr
  rcases execReadBlock_cases payload s with ⟨hn, -⟩ | ⟨-, hn, -⟩ | ⟨-, -, hn, -⟩ | ⟨-, -, -, he⟩
  · exact absurd hw hn
  · exact absurd ha hn
  · exact absurd (addrOk_readable hc ha) hn
  · exact ⟨_, he, emit_answered _ _ s⟩

/-- A block written is in flash after END_OF_FILE, whether it ended its page or waited for it (R71, R240). -/
theorem runExec_write_block {s : State} {payload : List Byte} {addr : Word} {ds : List FlashDraw} (h : InvParts s)
    (haddr : payloadWord s.prof payload 0 = addr) (ha : AddrOk s.cfg addr)
    (hw : wordCount payload = 1 + s.cfg.blockWords) (hd : s.env.draws = .ok :: .ok :: ds) :
    ∃ t, runExec [.writeBlock payload, .endOfFile []] s = .next t ∧ t.cfg = s.cfg ∧ t.prof = s.prof ∧
      Memory.readBytes t.flash (pageBase s.cfg addr).toNat s.cfg.pageSize =
        overlay s.sp.buf (pageOff s.cfg addr) (blockData s.cfg payload) := by
  obtain ⟨u, hu, hcase⟩ := writeBlock_stages h haddr ha hw hd
  obtain ⟨hcfg, hprof, -⟩ := exec_fields hu
  have hdone : ∀ {t}, exec (.endOfFile []) u = .next t →
      runExec [.writeBlock payload, .endOfFile []] s = .next t ∧ t.cfg = s.cfg ∧ t.prof = s.prof := fun ht => by
    obtain ⟨hcfg', hprof', -⟩ := exec_fields ht
    exact ⟨by simp only [runExec, hu, ht], hcfg'.trans hcfg, hprof'.trans hprof⟩
  rcases hcase with ⟨hp, hpa, hbuf, henv⟩ | ⟨hp, hpage⟩
  · obtain ⟨t, ht, hpage⟩ := endOfFile_flushes (h.exec hu) hp (by rwa [henv])
    rw [hpa, hbuf, hcfg] at hpage
    obtain ⟨hrun, hc, hp⟩ := hdone ht
    exact ⟨t, hrun, hc, hp, hpage⟩
  · obtain ⟨t, ht, hflash⟩ := endOfFile_nothing_pending hp
    obtain ⟨hrun, hc, hp⟩ := hdone ht
    exact ⟨t, hrun, hc, hp, by rwa [hflash]⟩

/-- Settles O53: flash holds the staged page after the flush, and the block lies in it at its offset. -/
theorem writtenBlockReadsBack : Obligations.WrittenBlockReadsBack := by
  intro s addr data ds hinv ha hlen hd
  have h := inv_iff.mp hinv
  have hblock : blockData s.cfg (wordBytes s.prof.wordEndian addr ++ data) = data := by
    unfold blockData
    rw [← wordBytes_length s.prof.wordEndian addr, List.drop_left, ← hlen, List.take_length]
  have hw : wordCount (wordBytes s.prof.wordEndian addr ++ data) = 1 + s.cfg.blockWords := by
    unfold wordCount Cfg.blockWords
    rw [List.length_append, wordBytes_length, hlen]
    omega
  obtain ⟨t, hrun, hcfg, hprof, hpage⟩ := runExec_write_block h (payloadWord_wordBytes _ _ _) ha hw hd
  rw [hblock] at hpage
  obtain ⟨hin, -⟩ := staged_length h.cfg h.staging hw ha
  rw [hblock] at hin
  have hread := readBytes_block hlen hin h.staging hpage
  have haddr : payloadWord t.prof (wordBytes s.prof.wordEndian addr) 0 = addr := by
    simpa [hprof] using payloadWord_wordBytes s.prof addr []
  obtain ⟨u, hu, hans⟩ := readBlock_answered (by rw [hcfg]; exact h.cfg) haddr (by rwa [hcfg]) (by simp [wordCount])
  rw [hcfg, hprof, hread] at hans
  exact ⟨t, u, hrun, hu, hans⟩

end Sys2Proof.Proofs
end

section
/-! PROOFS. The statements of spec/30_encoding.md: the tail and the frame (R100, R104), the round trips of requests and
responses (R130, R261, R262), what the decoder accepts (R106, R107), and words of the spec (R109 to R125). -/

namespace Sys2Proof.Proofs

open Sys2Proof Sys2Proof.Machine
open Host (Outcome)

/-! ## The tail -/

/-- The four offsets of `TAIL_POS` differ (R9). -/
theorem tailPos_distinct {p : Prof} (h : p.Ok) :
    p.tailPos.crcLo ≠ p.tailPos.crcHi ∧
    (p.tailPos.trl0 ≠ p.tailPos.crcHi ∧ p.tailPos.trl0 ≠ p.tailPos.crcLo) ∧
    (p.tailPos.trl1 ≠ p.tailPos.crcHi ∧ p.tailPos.trl1 ≠ p.tailPos.crcLo ∧ p.tailPos.trl1 ≠ p.tailPos.trl0) := by
  obtain ⟨hnodup, -⟩ := h
  simp only [List.nodup_cons, List.mem_cons, List.not_mem_nil, or_false, not_or, ← ne_eq] at hnodup
  obtain ⟨⟨hhl, hh0, hh1⟩, ⟨hl0, hl1⟩, h01, -⟩ := hnodup
  exact ⟨hhl.symm, ⟨hh0.symm, hl0.symm⟩, hh1.symm, hl1.symm, h01.symm⟩

/-- They are the four places of the tail (R104). -/
theorem tailPos_cover {p : Prof} (h : p.Ok) (k : Fin 4) :
    k = p.tailPos.crcHi ∨ k = p.tailPos.crcLo ∨ k = p.tailPos.trl0 ∨ k = p.tailPos.trl1 := by
  obtain ⟨hlo, ⟨h0h, h0l⟩, h1h, h1l, h10⟩ := tailPos_distinct h
  omega

theorem tailByte_crcHi (p : Prof) (c : Half) : tailByte p c p.tailPos.crcHi = c.extractLsb' 8 8 := if_pos rfl

theorem tailByte_crcLo {p : Prof} (h : p.Ok) (c : Half) : tailByte p c p.tailPos.crcLo = c.extractLsb' 0 8 := by
  obtain ⟨hlo, -⟩ := tailPos_distinct h
  rw [tailByte, if_neg hlo, if_pos rfl]

theorem tailByte_trl0 {p : Prof} (h : p.Ok) (c : Half) : tailByte p c p.tailPos.trl0 = p.trl0 := by
  obtain ⟨-, ⟨h0h, h0l⟩, -⟩ := tailPos_distinct h
  rw [tailByte, if_neg h0h, if_neg h0l, if_pos rfl]

theorem tailByte_trl1 {p : Prof} (h : p.Ok) (c : Half) : tailByte p c p.tailPos.trl1 = p.trl1 := by
  obtain ⟨-, -, h1h, h1l, h10⟩ := tailPos_distinct h
  rw [tailByte, if_neg h1h, if_neg h1l, if_neg h10]

theorem mkTail_getElem? (p : Prof) (c : Half) (k : Fin 4) : (mkTail p c)[k.val]? = some (tailByte p c k) := by
  fin_cases k <;> rfl

theorem mkTail_getD (p : Prof) (c : Half) (k : Fin 4) : (mkTail p c).getD k.val 0#8 = tailByte p c k := by
  rw [List.getD_eq_getElem?_getD, mkTail_getElem?]
  rfl

/-- `TailCrc` reads back what `MkTail` stores (R104). -/
theorem tailCrc_mkTail {p : Prof} (h : p.Ok) (c : Half) : tailCrc p (mkTail p c) = c := by
  unfold tailCrc
  rw [mkTail_getD, mkTail_getD, tailByte_crcHi, tailByte_crcLo h]
  exact half_split c

theorem tailTrlOk_iff (p : Prof) (t : List Byte) :
    tailTrlOk p t = true ↔ t.getD p.tailPos.trl0.val 0#8 = p.trl0 ∧ t.getD p.tailPos.trl1.val 0#8 = p.trl1 := by
  simp [tailTrlOk]

theorem tailTrlOk_mkTail {p : Prof} (h : p.Ok) (c : Half) : tailTrlOk p (mkTail p c) = true := by
  rw [tailTrlOk_iff, mkTail_getD, mkTail_getD]
  exact ⟨tailByte_trl0 h c, tailByte_trl1 h c⟩

theorem tailCrc_toNat (p : Prof) (t : List Byte) :
    (tailCrc p t).toNat =
      (t.getD p.tailPos.crcHi.val 0#8).toNat * 256 + (t.getD p.tailPos.crcLo.val 0#8).toNat := by
  unfold tailCrc
  generalize t.getD p.tailPos.crcHi.val 0#8 = hi
  generalize t.getD p.tailPos.crcLo.val 0#8 = lo
  rw [BitVec.toNat_append, Nat.shiftLeft_eq, Nat.mul_comm, ← Nat.two_pow_add_eq_or_of_lt lo.isLt]

/-- The bytes of a half word put together from two. -/
theorem half_append (hi lo : Byte) : (hi ++ lo).extractLsb' 8 8 = hi ∧ (hi ++ lo).extractLsb' 0 8 = lo :=
  ⟨BitVec.extractLsb'_append_eq_left, BitVec.extractLsb'_append_eq_right⟩

/-- A tail with the trailer in its place is the one `MkTail` builds for its CRC (R104). -/
theorem mkTail_tailCrc {p : Prof} {t : List Byte} (h : p.Ok) (hlen : t.length = 4) (htrl : tailTrlOk p t = true) :
    mkTail p (tailCrc p t) = t := by
  obtain ⟨htrl0, htrl1⟩ := (tailTrlOk_iff p t).mp htrl
  obtain ⟨hhi, hlo⟩ := half_append (t.getD p.tailPos.crcHi.val 0#8) (t.getD p.tailPos.crcLo.val 0#8)
  have hbyte : ∀ k : Fin 4, tailByte p (tailCrc p t) k = t.getD k.val 0#8 := by
    intro k
    rcases tailPos_cover h k with rfl | rfl | rfl | rfl
    · exact (tailByte_crcHi p _).trans hhi
    · exact (tailByte_crcLo h _).trans hlo
    · exact (tailByte_trl0 h _).trans htrl0.symm
    · exact (tailByte_trl1 h _).trans htrl1.symm
  obtain ⟨a, b, c, d, rfl⟩ := List.length_eq_four.mp hlen
  simp only [mkTail, hbyte]
  rfl

/-- Settles O10, from the byte at each of the four offsets. -/
theorem tailLayout : Obligations.TailLayout := by
  refine ⟨fun p c h => ⟨mkTail_length p c, ?_, ?_, ?_, ?_, tailCrc_mkTail h c, tailTrlOk_mkTail h c⟩,
    fun p t => ⟨tailCrc_toNat p t, tailTrlOk_iff p t⟩, fun _ => rfl⟩
  · rw [mkTail_getElem?, tailByte_crcHi]
  · rw [mkTail_getElem?, tailByte_crcLo h]
  · rw [mkTail_getElem?, tailByte_trl0 h]
  · rw [mkTail_getElem?, tailByte_trl1 h]

/-! ## The frame -/

/-- The word-count byte of a payload counts its words (R100, R102). -/
theorem wordCountByte_toNat {payload : List Byte} (h : PayloadOk payload) :
    (BitVec.ofNat 8 (payload.length / 4)).toNat = payload.length / 4 := by
  obtain ⟨-, hle⟩ := h
  rw [BitVec.toNat_ofNat, Nat.mod_eq_of_lt (by omega)]

theorem payload_length {payload : List Byte} (h : PayloadOk payload) : 4 * (payload.length / 4) = payload.length := by
  obtain ⟨hmod, -⟩ := h
  omega

theorem buildFrame_take (p : Prof) (span : CrcFrom) (code : Byte) (payload : List Byte) :
    (buildFrame p span code payload).take (4 + payload.length) = frameBody p code payload :=
  List.take_left' (frameBody_length p code payload)

theorem buildFrame_drop (p : Prof) (span : CrcFrom) (code : Byte) (payload : List Byte) :
    (buildFrame p span code payload).drop (4 + payload.length) =
      mkTail p (crc16 p ((frameBody p code payload).drop (crcOffset span))) :=
  List.drop_left' (frameBody_length p code payload)

/-- Settles O9, from the two parts of a built frame. -/
theorem frameLayout : Obligations.FrameLayout := by
  intro p span code payload h s n
  have hn : 4 * n = payload.length := payload_length h
  have hbody : s.take (4 + 4 * n) = frameBody p code payload := by rw [hn]; exact buildFrame_take p span code payload
  refine ⟨?_, rfl, rfl, ⟨_, rfl, wordCountByte_toNat h⟩, ?_, ?_⟩
  · rw [frameLen, hn]
    exact buildFrame_length p span code payload
  · calc (s.drop 4).take (4 * n) = (s.take (4 + 4 * n)).drop 4 := by rw [List.drop_take, Nat.add_sub_cancel_left]
      _ = payload := by rw [hbody]; rfl
  · rw [hbody, hn]
    exact buildFrame_drop p span code payload

/-! ## Encoding and decoding -/

/-- A built frame passes every test of the reframer, and its fields are read back (R106, R107). -/
theorem checkFrame_buildFrame {p : Prof} {payload : List Byte} (h : p.Ok) (hp : PayloadOk payload) (span : CrcFrom)
    (code : Byte) {cap : Option Nat} (hcap : ∀ c, cap = some c → 8 + payload.length ≤ c) :
    checkFrame p span cap (buildFrame p span code payload) = .ok (code, payload, 8 + payload.length) := by
  have hdeclared : 8 + payload.length = frameLen (BitVec.ofNat 8 (payload.length / 4)).toNat := by
    rw [wordCountByte_toNat hp, frameLen, payload_length hp]
  have hbody : 8 + payload.length - 4 = 4 + payload.length := by omega
  have htail : ((buildFrame p span code payload).drop (8 + payload.length - 4)).take 4 =
      mkTail p (crc16 p ((frameBody p code payload).drop (crcOffset span))) := by
    rw [hbody, buildFrame_drop, ← mkTail_length p, List.take_length]
  rw [checkFrame_ok_iff]
  refine ⟨⟨rfl, ?_, rfl, hdeclared, hcap, ?_, ?_, ?_⟩, rfl, ?_⟩
  · rw [buildFrame_length]; omega
  · rw [buildFrame_length]
  · rw [htail]
    exact tailTrlOk_mkTail h _
  · rw [htail, tailCrc_mkTail h, hbody, buildFrame_take]
  · rw [hbody, buildFrame_take]
    rfl

/-- The command byte of a well-formed request selects that request (R125, R200). -/
theorem requestOf_codeByte {c : Cfg} {p : Prof} {i : Instr} (h : p.Ok) (hi : codeOk c p i = true)
    (hreq : i.isRequest = true) : requestOf c p (codeByte p i) i.payload = i := by
  obtain ⟨-, hcmd, -⟩ := h
  simp only [List.nodup_cons, List.mem_cons, List.not_mem_nil, or_false, not_or, ← ne_eq] at hcmd
  obtain ⟨⟨h12, h13, h14, h15, h16⟩, ⟨h23, h24, h25, h26⟩, ⟨h34, h35, h36⟩, ⟨h45, h46⟩, h56, -⟩ := hcmd
  unfold requestOf codeByte Instr.payload
  cases i with
  | connect payload => exact if_pos rfl
  | writeBlock payload => rw [if_neg h12.symm, if_pos rfl]
  | endOfFile payload => rw [if_neg h13.symm, if_neg h23.symm, if_pos rfl]
  | readBlock payload => rw [if_neg h14.symm, if_neg h24.symm, if_neg h34.symm, if_pos rfl]
  | complete payload => rw [if_neg h15.symm, if_neg h25.symm, if_neg h35.symm, if_neg h45.symm, if_pos rfl]
  | getTransportId payload =>
    rw [if_neg h16.symm, if_neg h26.symm, if_neg h36.symm, if_neg h46.symm, if_neg h56.symm, if_pos ⟨rfl, hi⟩]
  | unknown cmd payload =>
    have hnot : cmd ∉ commandBytes c p := by simpa [codeOk] using hi
    simp only [commandBytes, List.mem_append, List.mem_cons, List.not_mem_nil, or_false, not_or] at hnot
    obtain ⟨⟨n1, n2, n3, n4, n5⟩, n6⟩ := hnot
    rw [if_neg n1, if_neg n2, if_neg n3, if_neg n4, if_neg n5, if_neg fun hid => n6 ?_]
    obtain ⟨rfl, hhas⟩ := hid
    simp [hhas]
  | ack | nackLen | nackTrailer | nackCrc | nackCmd | commandError => cases hreq

/-- Settles O6: a built frame passes the tests, and its command byte selects the request. -/
theorem requestRoundTrip : Obligations.RequestRoundTrip := by
  rintro c p i rest hp ⟨hpayload, hcode⟩ hreq hfits
  rw [encode, buildFrame_length] at hfits
  apply decode_append_ok
  unfold decode encode
  rw [hreq, if_pos rfl, checkFrame_buildFrame hp hpayload _ _ (by rintro _ ⟨⟩; exact hfits)]
  simp only [requestOf_codeByte hp hcode hreq, buildFrame_length]

/-! ## Responses -/

/-- A response that a host reads has the type byte received, and the payload received where that byte is ACK's (R115,
R123, R124). -/
theorem responseOf_ok {p : Prof} {code : Byte} {payload : List Byte} {j : Instr}
    (h : responseOf p code payload = .ok j) :
    j.isRequest = false ∧ codeByte p j = code ∧ j.payload = if code = p.rspAck then payload else [] := by
  unfold responseOf at h
  split at h
  · cases h
    exact ⟨rfl, Eq.symm ‹_›, (if_pos ‹_›).symm⟩
  rename_i hack
  rw [if_neg hack]
  iterate 5
    split at h
    · cases h
      exact ⟨rfl, Eq.symm ‹_›, rfl⟩
  cases h

/-- A host reads some response for every type byte of Table E3 (R115). -/
theorem exists_responseOf {p : Prof} {i : Instr} (hi : i.isRequest = false) (payload : List Byte) :
    ∃ j, responseOf p (codeByte p i) payload = .ok j := by
  unfold responseOf
  iterate 6
    split
    · exact ⟨_, rfl⟩
  rename_i hack hlen htrailer hcrc hcmd herror
  cases i with
  | ack => exact absurd rfl hack
  | nackLen => exact absurd rfl hlen
  | nackTrailer => exact absurd rfl htrailer
  | nackCrc => exact absurd rfl hcrc
  | nackCmd => exact absurd rfl hcmd
  | commandError => exact absurd rfl herror
  | _ => cases hi

/-- Where the NACK codes differ, the type byte says which response it is (R115, R123). -/
theorem responseOf_codeByte {p : Prof} {i : Instr} (h : p.Ok) (hi : i.isRequest = false)
    (hnack : [p.rspNackLen, p.rspNackTrailer, p.rspNackCrc, p.rspNackCmd].Nodup) :
    responseOf p (codeByte p i) i.payload = .ok i := by
  obtain ⟨-, -, hae, hother⟩ := h
  simp only [List.forall_mem_cons, List.not_mem_nil, false_imp_iff, implies_true, and_true] at hother
  obtain ⟨⟨hla, hle⟩, ⟨hca, hce⟩, ⟨hta, hte⟩, hda, hde⟩ := hother
  simp only [List.nodup_cons, List.mem_cons, List.not_mem_nil, or_false, not_or, ← ne_eq] at hnack
  obtain ⟨⟨hlt, hlc, hld⟩, ⟨htc, htd⟩, hcd, -⟩ := hnack
  unfold responseOf codeByte
  cases i with
  | ack => exact if_pos rfl
  | nackLen => rw [if_neg hla, if_pos rfl]
  | nackTrailer => rw [if_neg hta, if_neg hlt.symm, if_pos rfl]
  | nackCrc => rw [if_neg hca, if_neg hlc.symm, if_neg htc.symm, if_pos rfl]
  | nackCmd => rw [if_neg hda, if_neg hld.symm, if_neg htd.symm, if_neg hcd.symm, if_pos rfl]
  | commandError =>
    rw [if_neg hae.symm, if_neg hle.symm, if_neg hte.symm, if_neg hce.symm, if_neg hde.symm, if_pos rfl]
  | _ => cases hi

/-- Only ACK carries a payload (R123, R124). -/
theorem response_payload {p : Prof} {i : Instr} (hi : i.isRequest = false) :
    i.payload = if codeByte p i = p.rspAck then i.payload else [] := by
  cases i with
  | ack => exact (if_pos rfl).symm
  | nackLen | nackTrailer | nackCrc | nackCmd | commandError => exact (ite_self _).symm
  | _ => cases hi

/-- A host that receives a response's frame reads the response that its type byte selects (R262). -/
theorem decodeResponse_encode {p : Prof} {i j : Instr} (h : p.Ok) (hp : PayloadOk i.payload) (hi : i.isRequest = false)
    (hj : responseOf p (codeByte p i) i.payload = .ok j) (rest : List Byte) :
    decodeResponse p (encode p i ++ rest) = .ok (j, (encode p i).length) := by
  have hframe := checkFrame_append_ok rest
    (checkFrame_buildFrame h hp p.crcFromTx (codeByte p i) (cap := none) (by rintro _ ⟨⟩))
  unfold decodeResponse encode
  simp only [hi, Bool.false_eq_true, if_false, hframe, hj, buildFrame_length]

/-- Settles O7: the response read has the type byte and the payload sent, which fix the bytes. -/
theorem responseRoundTrip : Obligations.ResponseRoundTrip := by
  intro p i rest h hp hi
  refine ⟨?_, fun hnack => decodeResponse_encode h hp hi (responseOf_codeByte h hi hnack) rest⟩
  obtain ⟨j, hj⟩ := exists_responseOf hi i.payload
  obtain ⟨hreq, hcode, hpayload⟩ := responseOf_ok hj
  rw [← response_payload hi] at hpayload
  refine ⟨j, decodeResponse_encode h hp hi hj rest, hreq, ?_⟩
  rw [encode, encode, hreq, hi, hcode, hpayload]

/-! ## What the decoder accepts -/

theorem getD_take {bs : List Byte} {k n : Nat} (h : k < n) : (bs.take n).getD k 0#8 = bs.getD k 0#8 := by
  rw [List.getD_eq_getElem?_getD, List.getElem?_take_of_lt h, ← List.getD_eq_getElem?_getD]

/-- `ValidFrame` of the first `len` bytes, on the bytes of the whole string (R106). -/
theorem validFrame_take_iff {p : Prof} {span : CrcFrom} {bs : List Byte} {len : Nat} (h8 : 8 ≤ len)
    (hle : len ≤ bs.length) :
    ValidFrame p span (bs.take len) ↔
      bs.getD 0 0#8 = p.sig0 ∧ bs.getD 1 0#8 = p.sig1 ∧ len = frameLen (bs.getD 3 0#8).toNat ∧
        tailTrlOk p ((bs.drop (len - 4)).take 4) = true ∧
        tailCrc p ((bs.drop (len - 4)).take 4) = crc16 p ((bs.take (len - 4)).drop (crcOffset span)) := by
  have hlen : (bs.take len).length = len := List.length_take_of_le hle
  have htail : (bs.take len).drop (len - 4) = (bs.drop (len - 4)).take 4 := by
    rw [List.drop_take, show len - (len - 4) = 4 by omega]
  have hbody : (bs.take len).take (len - 4) = bs.take (len - 4) := by
    rw [List.take_take, min_eq_left (Nat.sub_le _ _)]
  unfold ValidFrame
  rw [hlen, getD_take (by omega), getD_take (by omega), getD_take (by omega), htail, hbody]
  exact and_iff_right h8

/-- The decoder's tests are `ValidFrame` of the bytes they read, and that these are there and fit (R106, R180). -/
theorem frameAt_iff (p : Prof) (span : CrcFrom) (cap : Option Nat) (bs : List Byte) (len : Nat) :
    FrameAt p span cap bs len ↔
      len ≤ bs.length ∧ (∀ c, cap = some c → len ≤ c) ∧ ValidFrame p span (bs.take len) := by
  constructor
  · intro hf
    have h8 : 8 ≤ len := hf.declared ▸ frameLen_ge _
    exact ⟨hf.body, hf.fits, (validFrame_take_iff h8 hf.body).mpr ⟨hf.sig0, hf.sig1, hf.declared, hf.trailer, hf.crc⟩⟩
  · rintro ⟨hle, hfits, hvalid⟩
    have h8 : 8 ≤ len := hvalid.1.trans (List.length_take_le _ _)
    obtain ⟨hsig0, hsig1, hdeclared, htrailer, hcrc⟩ := (validFrame_take_iff h8 hle).mp hvalid
    exact ⟨hsig0, by omega, hsig1, hdeclared, hfits, hle, htrailer, hcrc⟩

/-- The payload of a frame, by its word count (R100, R107). -/
theorem frame_payload {p : Prof} {span : CrcFrom} {cap : Option Nat} {bs : List Byte} {len : Nat}
    (hf : FrameAt p span cap bs len) :
    (bs.take (len - 4)).drop 4 = (bs.drop 4).take (4 * (bs.getD 3 0#8).toNat) := by
  have hdeclared := hf.declared
  unfold frameLen at hdeclared
  rw [List.drop_take]
  congr 1
  omega

theorem requestOf_payload (c : Cfg) (p : Prof) (cmd : Byte) (payload : List Byte) :
    (requestOf c p cmd payload).payload = payload := by
  unfold requestOf
  split_ifs <;> rfl

theorem requestOf_isRequest (c : Cfg) (p : Prof) (cmd : Byte) (payload : List Byte) :
    (requestOf c p cmd payload).isRequest = true := by
  unfold requestOf
  split_ifs <;> rfl

/-- The handler selected has the command byte received (R200). -/
theorem codeByte_requestOf (c : Cfg) (p : Prof) (cmd : Byte) (payload : List Byte) :
    codeByte p (requestOf c p cmd payload) = cmd := by
  unfold requestOf
  iterate 5
    split
    · exact Eq.symm ‹_›
  split
  · rename_i hid
    exact hid.1.symm
  · rfl

/-- The handler selected is one of this build (R114, R125). -/
theorem codeOk_requestOf (c : Cfg) (p : Prof) (cmd : Byte) (payload : List Byte) :
    codeOk c p (requestOf c p cmd payload) = true := by
  unfold requestOf
  iterate 5
    split
    · rfl
  split
  · rename_i hid
    exact hid.2
  · rename_i n1 n2 n3 n4 n5 n6
    have hnot : cmd ∉ commandBytes c p := by
      unfold commandBytes
      cases hhas : c.hasTransportId with
      | false => simp [n1, n2, n3, n4, n5]
      | true =>
        have n6' : cmd ≠ p.cmdGetTransportId := fun he => n6 ⟨he, hhas⟩
        simp [n1, n2, n3, n4, n5, n6']
    simpa [codeOk] using hnot

/-- `unword` looks at the first four bytes (R12). -/
theorem unword_take (e : Endian) (b : List Byte) : unword e (b.take 4) = unword e b := by
  cases e <;> simp only [unword, getD_take, Nat.reduceLT]

/-- Settles O12, from the decoder's tests as `ValidFrame`. -/
theorem acceptsExactlyValidFrames : Obligations.AcceptsExactlyValidFrames := by
  refine ⟨fun c p bs i len => ?_, fun c p cmd payload =>
    ⟨requestOf_payload c p cmd payload, codeByte_requestOf c p cmd payload⟩, fun p payload k => ?_⟩
  · rw [decode_ok_iff]
    constructor
    · rintro ⟨hf, rfl⟩
      obtain ⟨hle, hfits, hvalid⟩ := (frameAt_iff _ _ _ _ _).mp hf
      exact ⟨hle, hfits _ rfl, hvalid, by rw [frame_payload hf]⟩
    · rintro ⟨hle, hfits, hvalid, rfl⟩
      have hf : FrameAt p p.crcFromRx (some c.rxCap) bs len :=
        (frameAt_iff _ _ _ _ _).mpr ⟨hle, by rintro _ ⟨⟩; exact hfits, hvalid⟩
      exact ⟨hf, by rw [frame_payload hf]⟩
  · exact (unword_take p.wordEndian _).symm

/-- The payload of a frame is a whole number of words that its word-count byte counts (R100, R102). -/
theorem frame_payload_length {p : Prof} {span : CrcFrom} {cap : Option Nat} {bs : List Byte} {len : Nat}
    (hf : FrameAt p span cap bs len) : ((bs.take (len - 4)).drop 4).length = 4 * (bs.getD 3 0#8).toNat := by
  have hdeclared := hf.declared
  have hbody := hf.body
  unfold frameLen at hdeclared
  rw [List.length_drop, List.length_take_of_le (by omega)]
  omega

/-- What stands before the tail of a frame is the body that `BuildFrame` completes (R100, R261). -/
theorem frame_body {p : Prof} {span : CrcFrom} {cap : Option Nat} {bs : List Byte} {len : Nat}
    (hf : FrameAt p span cap bs len) :
    bs.take (len - 4) = frameBody p (bs.getD 2 0#8) ((bs.take (len - 4)).drop 4) := by
  have hcount : (bs.getD 3 0#8) = BitVec.ofNat 8 (((bs.take (len - 4)).drop 4).length / 4) := by
    rw [frame_payload_length hf, Nat.mul_div_cancel_left _ (by omega), BitVec.ofNat_toNat, BitVec.setWidth_eq]
  have h4 : 4 ≤ len - 4 := by
    have := frameLen_ge (bs.getD 3 0#8).toNat
    rw [← hf.declared] at this
    omega
  unfold frameBody
  rw [← hcount, ← hf.sig0, ← hf.sig1]
  have hhead := hf.head
  obtain ⟨k, hk⟩ := Nat.exists_eq_add_of_le' h4
  rw [hk]
  match bs, hhead with
  | _ :: _ :: _ :: _ :: _, _ => rfl

/-- A frame that passes the tests is what `BuildFrame` makes of its fields (R106, R129, R261). -/
theorem take_eq_buildFrame {p : Prof} {span : CrcFrom} {cap : Option Nat} {bs : List Byte} {len : Nat} (h : p.Ok)
    (hf : FrameAt p span cap bs len) :
    bs.take len = buildFrame p span (bs.getD 2 0#8) ((bs.take (len - 4)).drop 4) := by
  have hbody := hf.body
  have h8 : 8 ≤ len := hf.declared ▸ frameLen_ge _
  have htail : (bs.drop (len - 4)).take 4 = mkTail p (crc16 p ((bs.take (len - 4)).drop (crcOffset span))) := by
    rw [← hf.crc]
    exact (mkTail_tailCrc h (by simp; omega) hf.trailer).symm
  calc bs.take len = bs.take (len - 4 + 4) := by rw [Nat.sub_add_cancel (by omega)]
    _ = bs.take (len - 4) ++ (bs.drop (len - 4)).take 4 := List.take_add
    _ = _ := by rw [htail, buildFrame, ← frame_body hf]

/-- Settles O8: the tests fix every byte of the frame. -/
theorem decodedFrameIsItsEncoding : Obligations.DecodedFrameIsItsEncoding := by
  intro c p bs i len h hd
  obtain ⟨hf, rfl⟩ := (decode_ok_iff c p bs i len).mp hd
  obtain ⟨-, hle, hfits⟩ := decode_ok_len hd
  have hlen := frame_payload_length hf
  have hcount := (bs.getD 3 0#8).isLt
  refine ⟨⟨?_, codeOk_requestOf _ _ _ _⟩, requestOf_isRequest _ _ _ _, ?_, ?_, hfits, hle⟩
  · rw [requestOf_payload]
    exact ⟨by omega, by omega⟩
  · rw [encode, requestOf_isRequest, if_pos rfl, codeByte_requestOf, requestOf_payload]
    exact take_eq_buildFrame h hf
  · rw [requestOf_payload, wordCount, hlen, Nat.mul_div_cancel_left _ (by omega)]
    exact hf.declared

/-! ## Words of the spec -/

/-- A request's bytes, written out, decode to the request. -/
theorem decode_of_encode_eq {c : Cfg} {p : Prof} {i : Instr} {bytes : List Byte} (h : p.Ok) (hi : WellFormed c p i)
    (hreq : i.isRequest = true) (he : encode p i = bytes) (hfits : bytes.length ≤ c.rxCap) :
    decode c p bytes = .ok (i, bytes.length) := by
  subst he
  simpa using requestRoundTrip c p i [] h hi hreq hfits

/-- Settles O11: the words are the encodings of their instructions, which decode back. -/
theorem specWordsDecode : Obligations.SpecWordsDecode := by
  have hp : Prof.default.Ok := by decide
  refine ⟨decode_of_encode_eq hp (by decide) rfl ?_ (by decide), decode_of_encode_eq hp (by decide) rfl ?_ (by decide),
    decode_of_encode_eq hp (by decide) rfl ?_ (by decide), decode_of_encode_eq hp (by decide) rfl ?_ (by decide)⟩
  all_goals decide +kernel

end Sys2Proof.Proofs
end

section
/-! PROOFS. The commands' accepted cases: CONNECT, READ_BLOCK, COMPLETE and GET_TRANSPORT_ID (R283 to R289), a block staged
(R222), END_OF_FILE (R240), and the response rows as operations (R260). -/

namespace Sys2Proof.Proofs

open Sys2Proof Sys2Proof.Machine
open Host (Outcome)

/-! ## Commands that answer and flush nothing -/

/-- Settles O36, from CONNECT's accepted case. -/
theorem connectStartsSession : Obligations.ConnectStartsSession := by
  intro s payload hw
  rcases execConnect_cases payload s with ⟨hn, -⟩ | ⟨-, he⟩
  · exact absurd hw hn
  · exact ⟨_, he, emit_answered _ _ _⟩

/-- Settles O38, from COMPLETE's accepted case. -/
theorem completeStartsGraceDelay : Obligations.CompleteStartsGraceDelay := by
  intro s payload hw
  rcases execComplete_cases payload s with ⟨hn, -⟩ | ⟨-, he⟩
  · exact absurd hw hn
  · exact ⟨_, he, emit_answered _ _ _⟩

/-- Settles O39, from GET_TRANSPORT_ID's accepted case. -/
theorem transportIdReported : Obligations.TransportIdReported := by
  intro s payload hw
  rcases execGetTransportId_cases payload s with ⟨hn, -⟩ | ⟨-, he⟩
  · exact absurd hw hn
  · exact ⟨_, he, emit_answered _ _ _⟩

/-- Settles O37: the data are the bytes that `Memory.readBytes` gives. -/
theorem readBlockReturnsFlash : Obligations.ReadBlockReturnsFlash := by
  intro s payload hc hw addr ha
  obtain ⟨t, he, hans⟩ := readBlock_answered hc rfl ha hw
  refine ⟨_, t, Memory.readBytes_length s.flash addr.toNat s.cfg.blockSize, fun k hk => ?_, he, hans⟩
  rw [Memory.readBytes_getElem?, if_pos hk]

/-- Settles O41: a response row is the offer of its frame. -/
theorem responsesAreSent : Obligations.ResponsesAreSent := fun i s hi =>
  ⟨_, exec_response i s hi, txSend_answered _ s⟩

/-! ## Blocks staged and pages flushed -/

/-- The data bytes of a block stand after its address word (R71, R110). -/
theorem blockData_getElem? {c : Cfg} {payload : List Byte} {k : Nat} (hk : k < c.blockSize) :
    (blockData c payload)[k]? = payload[4 + k]? := by
  rw [blockData, List.getElem?_take_of_lt hk, List.getElem?_drop]

/-- The staging page after the copy of a block, byte by byte (R222). -/
theorem staged_getElem? {c : Cfg} {buf payload : List Byte} {off : Nat}
    (hin : off + (blockData c payload).length ≤ buf.length) (hdata : (blockData c payload).length = c.blockSize)
    (k : Nat) :
    (overlay buf off (blockData c payload))[k]? =
      if off ≤ k ∧ k < off + c.blockSize then payload[4 + (k - off)]? else buf[k]? := by
  rw [overlay_getElem? hin, hdata]
  split
  · rename_i hk
    exact blockData_getElem? (by omega)
  · rfl

/-- Settles O44, from the accepted case that flushes nothing. -/
theorem blockStaged : Obligations.BlockStaged := by
  intro s payload hinv _ hw addr off ha hend
  have h := inv_iff.mp hinv
  obtain ⟨hin, hlen⟩ := staged_length (payload := payload) h.cfg h.staging hw ha
  have hdata := blockData_length h.cfg hw
  rcases execWriteBlock_cases payload s with
    ⟨hn, -⟩ | ⟨-, hn, -⟩ | ⟨-, -, -, he⟩ | ⟨-, -, hpage, -⟩ | ⟨-, -, hpage, -⟩
  · exact absurd hw hn
  · exact absurd ha hn
  · rw [ackWriteBlock_eq, stageBlock_eq] at he
    exact ⟨_, _, hlen, fun k _ => staged_getElem? hin hdata k, he, emit_answered _ _ _⟩
  all_goals exact absurd hpage hend

/-- The events and the count of a flush that does not go wrong are those of the page it finds (R230 to R232, R235). -/
theorem flushSpec_effect {pa : Word} {s t : State} {r : FlushResult} (hs : FlushSpec pa s r t) (hr : r ≠ .fail) :
    t.trace.flashLog = s.trace.flashLog ++ flushEvents s pa s.sp.buf ∧ t.wc = flushCount s pa s.sp.buf := by
  obtain ⟨es, hlog, -, horder, hes⟩ := hs.log
  have hskips := hs.skips
  rw [hlog, hs.count]
  unfold flushEvents flushCount
  unfold FlushOrder at horder
  rcases hes with ⟨rfl, rfl⟩ | ⟨hskip, ⟨hes, -⟩ | ⟨hfail, -⟩⟩
  · obtain ⟨hne, heq⟩ := hskips.mp rfl
    rw [if_neg hne, if_pos heq, if_neg hne, if_pos heq]
    exact ⟨rfl, rfl⟩
  · have hok : r = .ok := by
      cases r with
      | ok => rfl
      | skip => exact absurd rfl hskip
      | fail => exact absurd rfl hr
    have hdiffers : pageAt s pa ≠ erasedPage s.cfg → pageAt s pa ≠ s.sp.buf := fun hne heq =>
      hskip (hskips.mpr ⟨hne, heq⟩)
    rw [if_pos hok]
    rcases hes with rfl | rfl
    · have herased : pageAt s pa = erasedPage s.cfg := by
        by_contra hne
        rw [if_neg hne] at horder
        simp at horder
      simp [herased]
    · have hne : pageAt s pa ≠ erasedPage s.cfg := by
        intro herased
        rw [if_pos herased] at horder
        simp at horder
      simp [hne, hdiffers hne]
  · exact absurd hfail hr

/-- The state after a flush that does not go wrong, in terms of the state that the command found (R230 to R237). -/
theorem flushed_ok_eq {s v w : State} {pa : Word} {r : FlushResult} {buf : List Byte}
    (hv : v = { s with sp := { s.sp with buf := buf, pending := true, addr := pa }, fs := v.fs, xs := v.xs })
    (hs : FlushSpec pa v r w) (hr : r ≠ .fail) (fs : FlashState) (xs : TransferState) :
    { w with fs := fs, xs := xs } = { s with
      fs := fs
      xs := xs
      wc := flushCount s pa buf
      flash := w.flash
      env := w.env
      trace := { s.trace with flashLog := s.trace.flashLog ++ flushEvents s pa buf }
      sp := flushedStaging s pa } := by
  obtain ⟨hlog, hcount⟩ := flushSpec_effect hs hr
  have hevents : v.trace.flashLog ++ flushEvents v pa v.sp.buf = s.trace.flashLog ++ flushEvents s pa buf := by
    rw [hv]; rfl
  have hwc : flushCount v pa v.sp.buf = flushCount s pa buf := by rw [hv]; rfl
  rw [flushed_eq hv hs, hlog, hcount, hevents, hwc, if_neg hr, if_neg hr]
  rfl

/-- A state with a page pending, as `flushed_ok_eq` asks for the state that a flush began in. -/
theorem eq_with_pending {s : State} (hp : s.sp.pending = true) :
    s = { s with sp := { s.sp with buf := s.sp.buf, pending := true, addr := s.sp.addr }, fs := s.fs, xs := s.xs } := by
  rw [← hp]

/-- END_OF_FILE's acknowledgement carries the count of the state it is given (R119, R240). -/
theorem ackEof_answered (s : State) :
    Answered (ackFrame s.prof (eofAck s.prof s.wc)) { s with fs := .done, xs := xsAfter s .eofPending } (ackEof s) := by
  rw [ackEof_eq]
  exact emit_answered _ _ _

/-- Settles O46: nothing pending leaves only the acknowledgement; a pending page is flushed first, and with two answers
OK no flush goes wrong. -/
theorem endOfFileReportsCount : Obligations.EndOfFileReportsCount := by
  refine ⟨fun s payload hw hp => ?_, fun s payload ds hinv hw hp hd => ?_⟩
  · rcases execEndOfFile_cases payload s with ⟨hn, -⟩ | ⟨-, -, he⟩ | ⟨-, hn, -⟩ | ⟨-, hn, -⟩
    · exact absurd hw hn
    · exact ⟨_, he, ackEof_answered s⟩
    all_goals rw [hp] at hn; cases hn
  · have h := inv_iff.mp hinv
    rcases execEndOfFile_cases payload s with ⟨hn, -⟩ | ⟨-, hn, -⟩ | ⟨-, -, hn, -⟩ | ⟨-, -, -, r, w, hs, -, he⟩
    · exact absurd hw hn
    · rw [hp] at hn; cases hn
    · exact absurd (h.pending hp).2 hn
    obtain ⟨hr, hpage⟩ := flush_leaves_page hs h.flash h.staging hd
    have hans := ackEof_answered w
    obtain ⟨-, hcount⟩ := flushSpec_effect hs hr
    have hxs : xsAfter w .eofPending = xsAfter s .eofPending := by rw [hs.same]; rfl
    have hprof : w.prof = s.prof := by rw [hs.same]
    have hframe : ackFrame w.prof (eofAck w.prof w.wc) =
        ackFrame s.prof (eofAck s.prof (flushCount s s.sp.addr s.sp.buf)) := by rw [hprof, hcount]
    have hcfg : w.cfg = s.cfg := by rw [hs.same]
    rw [if_neg hr] at he
    rw [hframe] at hans
    refine ⟨_, _, he, hans, ?_, hs.events, ?_, hs.outside h.staging⟩
    · rw [flushed_ok_eq (eq_with_pending hp) hs hr, hxs]
    · rw [← hcfg] at hpage
      exact hpage

end Sys2Proof.Proofs
end

section
/-! PROOFS. The statements of spec/40_crc16.md on the CRC itself: the three forms (R150, R151), the check values (R152), and
that one changed byte changes the CRC (R154). -/

namespace Sys2Proof.Proofs

open Sys2Proof Sys2Proof.Machine

/-! ## The register loses nothing (R154) -/

/-- The bit that a round shifts out comes back as bit 0, since the polynomial ends in 1 (R150). -/
theorem crcRound_getLsbD_zero (c : Half) : (crcRound c).getLsbD 0 = c.getLsbD 15 := by
  unfold crcRound
  split <;> simp_all

theorem crcRound_injective : Function.Injective crcRound := by
  intro c d h
  have htop : c.getLsbD 15 = d.getLsbD 15 := by rw [← crcRound_getLsbD_zero, h, crcRound_getLsbD_zero]
  have hshift : c <<< 1 = d <<< 1 := by
    unfold crcRound at h
    rw [htop] at h
    split at h
    · exact (BitVec.xor_left_inj _).mp h
    · exact h
  refine BitVec.eq_of_getLsbD_eq fun k hk => ?_
  rcases Nat.lt_or_eq_of_le (Nat.le_of_lt_succ hk) with hk | rfl
  · have hbit := congrArg (BitVec.getLsbD · (k + 1)) hshift
    simpa [show k + 1 < 16 by omega, ← BitVec.getLsbD_eq_getElem] using hbit
  · exact htop

theorem crcRounds_injective : Function.Injective crcRounds := crcRound_injective.iterate 8

theorem crcByte_injective_register (refIn : Bool) (b : Byte) : Function.Injective (crcByte refIn · b) :=
  fun _ _ h => (BitVec.xor_left_inj _).mp (crcRounds_injective h)

theorem reverse_injective {w : Nat} : Function.Injective (BitVec.reverse (w := w)) :=
  Function.LeftInverse.injective fun _ => BitVec.reverse_reverse_eq

theorem crcByte_injective_byte (refIn : Bool) (c : Half) : Function.Injective (crcByte refIn c) := by
  intro x y h
  have hxy := (BitVec.append_left_inj _).mp ((BitVec.xor_right_inj (w := 16) c).mp (crcRounds_injective h))
  cases refIn with
  | false => exact hxy
  | true => exact reverse_injective hxy

theorem crcLoop_append (refIn : Bool) (c : Half) (s t : List Byte) :
    crcLoop refIn c (s ++ t) = crcLoop refIn (crcLoop refIn c s) t := by
  induction s generalizing c with
  | nil => rfl
  | cons b rest ih => exact ih (crcByte refIn c b)

theorem crcLoop_injective_register (refIn : Bool) (s : List Byte) : Function.Injective (crcLoop refIn · s) := by
  induction s with
  | nil => exact fun _ _ h => h
  | cons b rest ih => exact fun _ _ h => crcByte_injective_register refIn b (ih h)

/-- `CRC_REFOUT` and `CRC_XOROUT` keep different registers different (R150). -/
theorem crc16_eq_iff (p : Prof) (s t : List Byte) :
    crc16 p s = crc16 p t ↔ crcLoop p.crcRefIn p.crcInit s = crcLoop p.crcRefIn p.crcInit t := by
  unfold crc16
  dsimp only
  rw [BitVec.xor_left_inj]
  split
  · exact reverse_injective.eq_iff
  · rfl

/-- Settles O4: the changed byte gives another register, and the bytes after it keep the registers apart. -/
theorem crcDetectsOneByte : Obligations.CrcDetectsOneByte := by
  intro p before after x y hne h
  rw [crc16_eq_iff, crcLoop_append, crcLoop_append] at h
  exact hne (crcByte_injective_byte _ _ (crcLoop_injective_register _ after h))

/-! ## The three forms (R151) -/

theorem reverse_xor {w : Nat} (x y : BitVec w) : (x ^^^ y).reverse = x.reverse ^^^ y.reverse := by
  refine BitVec.eq_of_getLsbD_eq fun k _ => ?_
  simp only [BitVec.getLsbD_reverse, BitVec.getLsbD_xor, BitVec.getMsbD_xor]

theorem reverse_shiftLeft (c : Half) (n : Nat) : (c <<< n).reverse = c.reverse >>> n := by
  refine BitVec.eq_of_getLsbD_eq fun k _ => ?_
  simp [BitVec.getLsbD_reverse, BitVec.getMsbD_shiftLeft, Nat.add_comm]

/-- A round of the least-significant-bit-first form is a round of R150 read backwards. -/
theorem crcRoundLsb_reverse (c : Half) : crcRoundLsb c.reverse = (crcRound c).reverse := by
  have hbit : c.reverse.getLsbD 0 = c.getLsbD 15 := by
    rw [BitVec.getLsbD_reverse, BitVec.getMsbD]
    rfl
  have hpoly : (0x1021#16).reverse = 0x8408#16 := by decide
  unfold crcRoundLsb crcRound
  rw [hbit]
  split
  · rw [reverse_xor, reverse_shiftLeft, hpoly]
  · rw [reverse_shiftLeft]

theorem crcByteLsb_eq_iterate (c : Half) (b : Byte) : crcByteLsb c b = crcRoundLsb^[8] (c ^^^ (0#8 ++ b)) := rfl

theorem crcByteLsb_reverse (c : Half) (b : Byte) : crcByteLsb c.reverse b = (crcByte true c b).reverse := by
  have hrounds : Function.Semiconj BitVec.reverse crcRound crcRoundLsb := fun d => (crcRoundLsb_reverse d).symm
  have hbyte : (b.reverse ++ 0#8 : Half).reverse = 0#8 ++ b := by
    rw [BitVec.reverse_append, BitVec.reverse_reverse_eq]
    rfl
  calc crcByteLsb c.reverse b = crcRoundLsb^[8] (c ^^^ (b.reverse ++ 0#8)).reverse := by
        rw [crcByteLsb_eq_iterate, reverse_xor, hbyte]
    _ = (crcByte true c b).reverse := ((hrounds.iterate_right 8) _).symm

theorem crcLsb_reverse (c : Half) (s : List Byte) : crcLsb c.reverse s = (crcLoop true c s).reverse := by
  induction s generalizing c with
  | nil => rfl
  | cons b rest ih =>
    rw [crcLsb, crcByteLsb_reverse, ih]
    rfl

theorem crcRoundLsb_eq_xor (c : Half) :
    crcRoundLsb c = (c >>> 1) ^^^ (if c.getLsbD 0 then 0x8408#16 else 0#16) := by
  unfold crcRoundLsb
  split
  · rfl
  · exact BitVec.xor_zero.symm

/-- Rounds are linear: they send an XOR to the XOR of their results. -/
theorem crcRoundLsb_xor (x y : Half) : crcRoundLsb (x ^^^ y) = crcRoundLsb x ^^^ crcRoundLsb y := by
  have hpoly : ∀ a b : Bool, (if a ^^ b then 0x8408#16 else 0#16) =
      (if a then 0x8408#16 else 0#16) ^^^ (if b then 0x8408#16 else 0#16) := by decide
  simp only [crcRoundLsb_eq_xor]
  rw [BitVec.getLsbD_xor, BitVec.ushiftRight_xor_distrib, hpoly]
  ac_rfl

/-- While zeros are shifted out, a round is a shift. -/
theorem crcRoundLsb_iterate_of_low_zero (n : Nat) (x : Half) (h : ∀ k < n, x.getLsbD k = false) :
    crcRoundLsb^[n] x = x >>> n := by
  induction n generalizing x with
  | zero => exact (BitVec.ushiftRight_zero x).symm
  | succ n ih =>
    have hround : crcRoundLsb x = x >>> 1 := if_neg (by rw [h 0 (Nat.succ_pos n)]; exact Bool.false_ne_true)
    have hlow : ∀ k < n, (x >>> 1).getLsbD k = false := fun k hk => by
      rw [BitVec.getLsbD_ushiftRight]
      exact h (1 + k) (by omega)
    rw [Function.iterate_succ_apply, hround, ih _ hlow, ← BitVec.shiftRight_add, Nat.add_comm]

/-- The entry for `e` of the table that the shifts of R151's byte-at-a-time form compute. -/
def crcTable (e : Byte) : Half :=
  let d16 : Half := 0#8 ++ (e ^^^ (e <<< 4))
  (d16 <<< 8) ^^^ (d16 >>> 4) ^^^ (d16 <<< 3)

theorem crcTable_eq : ∀ e : Byte, crcRoundLsb^[8] (0#8 ++ e) = crcTable e := by
  decide +kernel

/-- Halves that share no bit are joined by XOR as by OR. -/
theorem or_eq_xor_of_halves (d c : Half) : (d <<< 8) ||| (c >>> 8) = (d <<< 8) ^^^ (c >>> 8) := by
  refine BitVec.eq_of_getLsbD_eq fun k _ => ?_
  rw [BitVec.getLsbD_or, BitVec.getLsbD_xor, BitVec.getLsbD_shiftLeft, BitVec.getLsbD_ushiftRight]
  by_cases hk : k < 8
  · simp [hk]
  · simp [BitVec.getLsbD_of_ge c (8 + k) (by omega)]

theorem crcByteFast_eq_crcTable (c : Half) (b : Byte) :
    crcByteFast c b = crcTable (b ^^^ c.extractLsb' 0 8) ^^^ (c >>> 8) := by
  unfold crcByteFast crcTable
  dsimp only
  rw [or_eq_xor_of_halves]
  ac_rfl

/-- The register with a byte XORed in, as its high half and the table's index. -/
theorem register_split (c : Half) (b : Byte) :
    c ^^^ (0#8 ++ b) = (0#8 ++ (b ^^^ c.extractLsb' 0 8)) ^^^ (c.extractLsb' 8 8 ++ 0#8) := by
  conv_lhs => rw [← half_split c]
  rw [BitVec.xor_append, BitVec.xor_append, BitVec.xor_zero, BitVec.zero_xor, BitVec.xor_zero, BitVec.xor_comm b]

theorem highHalf_getLsbD (hi : Byte) (k : Nat) :
    BitVec.getLsbD (w := 16) (hi ++ 0#8) k = if k < 8 then false else hi.getLsbD (k - 8) := by
  rw [BitVec.getLsbD_append, BitVec.getLsbD_zero]

theorem highHalf_ushiftRight (c : Half) : (c.extractLsb' 8 8 ++ 0#8 : Half) >>> 8 = c >>> 8 := by
  refine BitVec.eq_of_getLsbD_eq fun k _ => ?_
  rw [BitVec.getLsbD_ushiftRight, BitVec.getLsbD_ushiftRight, highHalf_getLsbD, if_neg (by omega),
    Nat.add_sub_cancel_left, BitVec.getLsbD_extractLsb']
  by_cases hk : k < 8
  · simp [hk]
  · simp [hk, BitVec.getLsbD_of_ge c (8 + k) (by omega)]

theorem crcByteFast_eq (c : Half) (b : Byte) : crcByteFast c b = crcByteLsb c b := by
  have hlinear : Function.Semiconj₂ crcRoundLsb (· ^^^ ·) (· ^^^ ·) := crcRoundLsb_xor
  have hhigh : crcRoundLsb^[8] (c.extractLsb' 8 8 ++ 0#8) = c >>> 8 := by
    rw [crcRoundLsb_iterate_of_low_zero 8 _ fun k hk => (highHalf_getLsbD _ k).trans (if_pos hk), highHalf_ushiftRight]
  symm
  calc crcByteLsb c b
      = crcRoundLsb^[8] ((0#8 ++ (b ^^^ c.extractLsb' 0 8)) ^^^ (c.extractLsb' 8 8 ++ 0#8)) := by
        rw [crcByteLsb_eq_iterate, register_split]
    _ = crcRoundLsb^[8] (0#8 ++ (b ^^^ c.extractLsb' 0 8)) ^^^ crcRoundLsb^[8] (c.extractLsb' 8 8 ++ 0#8) :=
        (hlinear.iterate 8) _ _
    _ = crcByteFast c b := by rw [crcTable_eq, hhigh, crcByteFast_eq_crcTable]

theorem crcFast_eq (c : Half) (s : List Byte) : crcFast c s = crcLsb c s := by
  induction s generalizing c with
  | nil => rfl
  | cons b rest ih => rw [crcFast, crcLsb, crcByteFast_eq, ih]

/-- Settles O3: the least-significant-bit-first form is R150 read backwards, and a byte of the third form is eight of its
rounds. -/
theorem crcFormsAgree : Obligations.CrcFormsAgree := by
  refine ⟨by decide, fun p s hinit hin hout hxor => ?_, by decide +kernel, by decide⟩
  have hlsb : crc16 p s = crcLsb 0xFFFF#16 s := by
    have hones : (0xFFFF#16).reverse = 0xFFFF#16 := by decide
    rw [crc16, hinit, hin, hout, hxor, if_pos rfl, ← crcLsb_reverse, hones]
    exact BitVec.xor_zero
  exact ⟨hlsb, hlsb.trans (crcFast_eq _ s).symm⟩

/-! ## The check values (R152) -/

/-- Settles O2, by evaluating `Crc16` on the string under each parameter set. -/
theorem crcCheckValues : Obligations.CrcCheckValues := by
  unfold Obligations.CrcCheckValues
  decide +kernel

end Sys2Proof.Proofs
end

section
/-! PROOFS. The headline of spec/40_crc16.md R154 with spec/41_reframer.md R173 to R179: a valid request frame with one byte
changed is rejected, for what that byte breaks. -/

namespace Sys2Proof.Proofs

open Sys2Proof Sys2Proof.Machine

/-! ## A frame as body and tail -/

/-- What the reframer reads of the bytes before a frame's tail: the signature, and a word count that agrees with their
number and fits the receive buffer (R175 to R177). -/
structure BodyAt (p : Prof) (cap : Option Nat) (body : List Byte) : Prop where
  sig0 : body.getD 0 0#8 = p.sig0
  sig1 : body.getD 1 0#8 = p.sig1
  declared : frameLen (body.getD 3 0#8).toNat = body.length + 4
  fits : ∀ c, cap = some c → body.length + 4 ≤ c

theorem BodyAt.head {p : Prof} {cap : Option Nat} {body : List Byte} (hb : BodyAt p cap body) : 4 ≤ body.length := by
  have h8 := frameLen_ge (body.getD 3 0#8).toNat
  rw [hb.declared] at h8
  omega

/-- The body that `BuildFrame` completes passes those tests (R261). -/
theorem bodyAt_frameBody (p : Prof) (code : Byte) {payload : List Byte} {cap : Option Nat} (hp : PayloadOk payload)
    (hcap : ∀ c, cap = some c → 8 + payload.length ≤ c) : BodyAt p cap (frameBody p code payload) where
  sig0 := rfl
  sig1 := rfl
  declared := by
    rw [frameBody_length, frameLen]
    change 8 + 4 * (BitVec.ofNat 8 (payload.length / 4)).toNat = _
    rw [wordCountByte_toNat hp, payload_length hp]
    omega
  fits c hc := by
    have := hcap c hc
    rw [frameBody_length]
    omega

theorem getD_set_ne {s : List Byte} {k j : Nat} (new : Byte) (h : k ≠ j) : (s.set k new).getD j 0#8 = s.getD j 0#8 := by
  rw [List.getD_eq_getElem?_getD, List.getElem?_set_ne h, ← List.getD_eq_getElem?_getD]

/-- Those tests look at three bytes and the length. -/
theorem BodyAt.set {p : Prof} {cap : Option Nat} {body : List Byte} (hb : BodyAt p cap body) {k : Nat} (new : Byte)
    (h0 : k ≠ 0) (h1 : k ≠ 1) (h3 : k ≠ 3) : BodyAt p cap (body.set k new) where
  sig0 := by rw [getD_set_ne new h0]; exact hb.sig0
  sig1 := by rw [getD_set_ne new h1]; exact hb.sig1
  declared := by rw [getD_set_ne new h3, List.length_set]; exact hb.declared
  fits := by rw [List.length_set]; exact hb.fits

section
variable {p : Prof} {cap : Option Nat} {body tail : List Byte} (hb : BodyAt p cap body) (ht : tail.length = 4)
include hb ht

/-- Behind such a body the trailer decides first (R178). -/
theorem checkFrame_badTrailer (span : CrcFrom) (htrl : tailTrlOk p tail = false) :
    checkFrame p span cap (body ++ tail) = .error .badTrailer := by
  have h4 := hb.head
  rw [checkFrame_error_iff]
  dsimp only
  rw [getD_append_left (by omega), getD_append_left (by omega), getD_append_left (by omega), hb.declared,
    Nat.add_sub_cancel, List.drop_left, List.take_of_length_le ht.le, List.length_append, ht]
  exact ⟨hb.sig0, by omega, hb.sig1, hb.fits, le_refl _, htrl⟩

/-- Then the CRC decides (R179). -/
theorem checkFrame_badCrc (span : CrcFrom) (htrl : tailTrlOk p tail = true)
    (hcrc : tailCrc p tail ≠ crc16 p (body.drop (crcOffset span))) :
    checkFrame p span cap (body ++ tail) = .error .badCrc := by
  have h4 := hb.head
  rw [checkFrame_error_iff]
  dsimp only
  rw [getD_append_left (by omega), getD_append_left (by omega), getD_append_left (by omega), hb.declared,
    Nat.add_sub_cancel, List.drop_left, List.take_left, List.take_of_length_le ht.le, List.length_append, ht]
  exact ⟨hb.sig0, by omega, hb.sig1, hb.fits, le_refl _, htrl, hcrc⟩

end

/-! ## One byte of a tail changed -/

theorem mkTail_set_getD (p : Prof) (c : Half) (j k : Fin 4) (new : Byte) :
    ((mkTail p c).set j.val new).getD k.val 0#8 = if j = k then new else tailByte p c k := by
  split
  · subst_vars
    rw [List.getD_eq_getElem?_getD, List.getElem?_set_self (by rw [mkTail_length]; exact k.isLt)]
    rfl
  · rename_i hjk
    rw [getD_set_ne new (fun h => hjk (Fin.ext h)), mkTail_getD]

/-- A changed CRC byte leaves the trailer (R104). -/
theorem tailTrlOk_set_crc {p : Prof} (h : p.Ok) (c : Half) {j : Fin 4} (new : Byte)
    (hj : j = p.tailPos.crcHi ∨ j = p.tailPos.crcLo) : tailTrlOk p ((mkTail p c).set j.val new) = true := by
  obtain ⟨-, ⟨h0h, h0l⟩, h1h, h1l, -⟩ := tailPos_distinct h
  have hj0 : j ≠ p.tailPos.trl0 := by
    rcases hj with rfl | rfl
    · exact h0h.symm
    · exact h0l.symm
  have hj1 : j ≠ p.tailPos.trl1 := by
    rcases hj with rfl | rfl
    · exact h1h.symm
    · exact h1l.symm
  rw [tailTrlOk_iff, mkTail_set_getD, mkTail_set_getD, if_neg hj0, if_neg hj1]
  exact ⟨tailByte_trl0 h c, tailByte_trl1 h c⟩

theorem tailTrlOk_set_trailer {p : Prof} (h : p.Ok) (c : Half) {j : Fin 4} {new : Byte}
    (hj : j = p.tailPos.trl0 ∨ j = p.tailPos.trl1) (hnew : new ≠ tailByte p c j) :
    tailTrlOk p ((mkTail p c).set j.val new) = false := by
  rw [← Bool.not_eq_true, tailTrlOk_iff]
  rintro ⟨htrl0, htrl1⟩
  rcases hj with rfl | rfl
  · rw [mkTail_set_getD, if_pos rfl] at htrl0
    exact hnew (htrl0.trans (tailByte_trl0 h c).symm)
  · rw [mkTail_set_getD, if_pos rfl] at htrl1
    exact hnew (htrl1.trans (tailByte_trl1 h c).symm)

/-- A tail with the right trailer that is not the one for `c` holds another CRC (R104). -/
theorem tailCrc_ne_of_ne_mkTail {p : Prof} {t : List Byte} {c : Half} (h : p.Ok) (hlen : t.length = 4)
    (htrl : tailTrlOk p t = true) (hne : t ≠ mkTail p c) : tailCrc p t ≠ c :=
  fun hc => hne ((mkTail_tailCrc h hlen htrl).symm.trans (congrArg (mkTail p) hc))

theorem mkTail_set_ne (p : Prof) (c : Half) {j : Fin 4} {new : Byte} (hnew : new ≠ tailByte p c j) :
    (mkTail p c).set j.val new ≠ mkTail p c := by
  intro he
  have hbyte : ((mkTail p c).set j.val new).getD j.val 0#8 = (mkTail p c).getD j.val 0#8 := by rw [he]
  rw [mkTail_set_getD, if_pos rfl, mkTail_getD] at hbyte
  exact hnew hbyte

/-! ## One byte of a CRC span changed -/

/-- R154 for a byte changed in place. -/
theorem crc16_set_ne (p : Prof) {s : List Byte} {k : Nat} {new : Byte} (hk : k < s.length) (hnew : some new ≠ s[k]?) :
    crc16 p (s.set k new) ≠ crc16 p s := by
  rw [List.getElem?_eq_getElem hk, ne_eq, Option.some.injEq] at hnew
  have hs : s = s.take k ++ s[k] :: s.drop (k + 1) := by
    rw [List.getElem_cons_drop, List.take_append_drop]
  rw [List.set_eq_take_cons_drop new hk]
  conv_rhs => rw [hs]
  exact crcDetectsOneByte p _ _ new s[k] hnew

/-- The CRC span reaches from the command byte at the latest to the end of the body (R105). -/
theorem crc16_span_set_ne (p : Prof) {body : List Byte} (span : CrcFrom) {k : Nat} {new : Byte} (h2 : 2 ≤ k)
    (hk : k < body.length) (hnew : some new ≠ body[k]?) :
    crc16 p ((body.set k new).drop (crcOffset span)) ≠ crc16 p (body.drop (crcOffset span)) := by
  have hspan : crcOffset span ≤ 2 := by cases span <;> decide
  rw [List.drop_set, if_neg (by omega)]
  refine crc16_set_ne p (by rw [List.length_drop]; omega) ?_
  rwa [List.getElem?_drop, Nat.add_sub_cancel' (by omega)]

/-! ## One byte of a built frame changed -/

section
variable {p : Prof} {cap : Option Nat} {payload : List Byte} {new : Byte} (span : CrcFrom) (code : Byte)

/-- The run of noise that the changed byte begins takes at least that byte (R173). -/
theorem checkFrame_set_sig0 (rest : List Byte) (hnew : new ≠ p.sig0) :
    ∃ n, 0 < n ∧ checkFrame p span cap ((buildFrame p span code payload).set 0 new ++ rest) = .error (.noise n) := by
  have hne : (buildFrame p span code payload).set 0 new ++ rest ≠ [] := List.cons_ne_nil _ _
  have hhead : ((buildFrame p span code payload).set 0 new ++ rest).getD 0 0#8 ≠ p.sig0 := hnew
  exact ⟨_, noiseRun_pos p _ hne hhead, (checkFrame_error_iff _ _ _ _ _).mpr ⟨hne, hhead, rfl⟩⟩

theorem checkFrame_set_sig1 (hnew : new ≠ p.sig1) :
    checkFrame p span cap ((buildFrame p span code payload).set 1 new) = .error .badSignature := by
  refine (checkFrame_error_iff _ _ _ _ _).mpr ⟨rfl, ?_, hnew⟩
  rw [List.length_set, buildFrame_length]
  omega

/-- Byte `j` of the tail, in the frame (R104). -/
theorem buildFrame_tail_getElem? (j : Fin 4) :
    (buildFrame p span code payload)[4 + payload.length + j.val]? =
      some (tailByte p (crc16 p ((frameBody p code payload).drop (crcOffset span))) j) := by
  rw [← List.getElem?_drop, buildFrame_drop, mkTail_getElem?]

theorem buildFrame_set_tail (j : Fin 4) :
    (buildFrame p span code payload).set (4 + payload.length + j.val) new =
      frameBody p code payload ++
        (mkTail p (crc16 p ((frameBody p code payload).drop (crcOffset span)))).set j.val new := by
  rw [buildFrame, List.set_append_right _ _ (by rw [frameBody_length]; omega), frameBody_length, Nat.add_sub_cancel_left]

variable (h : p.Ok) (hp : PayloadOk payload) (hcap : ∀ c, cap = some c → 8 + payload.length ≤ c)
include h hp hcap

/-- The command byte or a payload byte: the CRC sent is no longer that of the span (R154, R179). -/
theorem checkFrame_set_body {k : Nat} (h2 : 2 ≤ k) (h3 : k ≠ 3) (hk : k < 4 + payload.length)
    (hnew : some new ≠ (buildFrame p span code payload)[k]?) :
    checkFrame p span cap ((buildFrame p span code payload).set k new) = .error .badCrc := by
  have hlt : k < (frameBody p code payload).length := by rwa [frameBody_length]
  rw [buildFrame, List.getElem?_append_left hlt] at hnew
  rw [buildFrame, List.set_append_left _ _ hlt]
  refine checkFrame_badCrc ((bodyAt_frameBody p code hp hcap).set new (by omega) (by omega) h3) (mkTail_length _ _) span
    (tailTrlOk_mkTail h _) ?_
  rw [tailCrc_mkTail h]
  exact (crc16_span_set_ne p span h2 hlt hnew).symm

/-- A CRC byte: the trailer stands, and the CRC read is another (R179). -/
theorem checkFrame_set_crc {j : Fin 4} (hj : j = p.tailPos.crcHi ∨ j = p.tailPos.crcLo)
    (hnew : some new ≠ (buildFrame p span code payload)[4 + payload.length + j.val]?) :
    checkFrame p span cap ((buildFrame p span code payload).set (4 + payload.length + j.val) new) = .error .badCrc := by
  rw [buildFrame_tail_getElem?, ne_eq, Option.some.injEq] at hnew
  rw [buildFrame_set_tail]
  have htrl := tailTrlOk_set_crc h (crc16 p ((frameBody p code payload).drop (crcOffset span))) new hj
  have hlen : ((mkTail p (crc16 p ((frameBody p code payload).drop (crcOffset span)))).set j.val new).length = 4 := by
    rw [List.length_set, mkTail_length]
  exact checkFrame_badCrc (bodyAt_frameBody p code hp hcap) hlen span htrl
    (tailCrc_ne_of_ne_mkTail h hlen htrl (mkTail_set_ne p _ hnew))

/-- A trailer byte (R178). -/
theorem checkFrame_set_trailer {j : Fin 4} (hj : j = p.tailPos.trl0 ∨ j = p.tailPos.trl1)
    (hnew : some new ≠ (buildFrame p span code payload)[4 + payload.length + j.val]?) :
    checkFrame p span cap ((buildFrame p span code payload).set (4 + payload.length + j.val) new) =
      .error .badTrailer := by
  rw [buildFrame_tail_getElem?, ne_eq, Option.some.injEq] at hnew
  rw [buildFrame_set_tail]
  exact checkFrame_badTrailer (bodyAt_frameBody p code hp hcap) (by rw [List.length_set, mkTail_length]) span
    (tailTrlOk_set_trailer h _ hj hnew)

end

/-- A candidate that fails a test for good is rejected whatever follows (R185). -/
theorem decode_append_of_checkFrame {c : Cfg} {p : Prof} {bs : List Byte} {e : DecodeError} (rest : List Byte)
    (he : e.Final) (hc : checkFrame p p.crcFromRx (some c.rxCap) bs = .error e) : decode c p (bs ++ rest) = .error e :=
  decode_append_error rest he ((decode_error_iff c p bs e).mpr hc)

/-- Settles O5: the byte changed lies in one part of the frame, and each part has its test. -/
theorem corruptedByteRejected : Obligations.CorruptedByteRejected := by
  intro c p i k old new rest h hp hreq hfits hold hne
  have hencode : encode p i = buildFrame p p.crcFromRx (codeByte p i) i.payload := by rw [encode, if_pos hreq]
  have hnew : some new ≠ (buildFrame p p.crcFromRx (codeByte p i) i.payload)[k]? := by
    rw [← hencode, hold]
    exact fun he => hne (Option.some.inj he)
  rw [hencode, buildFrame_length] at hfits
  rw [hencode]
  have hcap : ∀ n, some c.rxCap = some n → 8 + i.payload.length ≤ n := by rintro _ ⟨⟩; exact hfits
  refine ⟨?_, ?_, ?_, ?_⟩
  · rintro rfl
    obtain ⟨n, hn, hread⟩ := checkFrame_set_sig0 p.crcFromRx (codeByte p i) rest fun he => hnew (congrArg some he)
    exact ⟨n, hn, (decode_error_iff c p _ _).mpr hread⟩
  · rintro rfl
    exact decode_append_of_checkFrame rest trivial
      (checkFrame_set_sig1 p.crcFromRx (codeByte p i) fun he => hnew (congrArg some he))
  · intro hk
    refine decode_append_of_checkFrame rest trivial ?_
    rcases hk with rfl | rfl
    · exact checkFrame_set_trailer p.crcFromRx (codeByte p i) h hp hcap (.inl rfl) hnew
    · exact checkFrame_set_trailer p.crcFromRx (codeByte p i) h hp hcap (.inr rfl) hnew
  · intro hk
    refine decode_append_of_checkFrame rest trivial ?_
    rcases hk with rfl | ⟨h4, hlt⟩ | rfl | rfl
    · exact checkFrame_set_body p.crcFromRx (codeByte p i) h hp hcap (le_refl 2) (by omega) (by omega) hnew
    · exact checkFrame_set_body p.crcFromRx (codeByte p i) h hp hcap (by omega) (by omega) hlt hnew
    · exact checkFrame_set_crc p.crcFromRx (codeByte p i) h hp hcap (.inl rfl) hnew
    · exact checkFrame_set_crc p.crcFromRx (codeByte p i) h hp hcap (.inr rfl) hnew

end Sys2Proof.Proofs
end

section
/-! PROOFS. The statements of spec/41_reframer.md: the scan of a stream in parts and between noise (R185, R186), the
progress of CORE (R184), what one iteration does at each outcome of the decoder (R173 to R182), what RX appends (R171), and
that the machine goes on (R317). -/

namespace Sys2Proof.Proofs

open Sys2Proof Sys2Proof.Machine
open Host (Outcome)

/-! ## One round of the scan -/

/-- Bytes that do not start with `SIG0` are a noise run (R173). -/
theorem decode_of_noise (c : Cfg) {p : Prof} {bs : List Byte} (hne : bs ≠ []) (h0 : bs.getD 0 0#8 ≠ p.sig0) :
    decode c p bs = .error (.noise (noiseRun p bs)) :=
  (decode_error_iff _ _ _ _).mpr ((checkFrame_error_iff _ _ _ _ _).mpr ⟨hne, h0, rfl⟩)

/-- `SIG0` with its head there and no `SIG1` after it is a false signature (R175). -/
theorem decode_of_badSignature (c : Cfg) {p : Prof} {bs : List Byte} (h0 : bs.getD 0 0#8 = p.sig0) (h4 : 4 ≤ bs.length)
    (h1 : bs.getD 1 0#8 ≠ p.sig1) : decode c p bs = .error .badSignature :=
  (decode_error_iff _ _ _ _).mpr ((checkFrame_error_iff _ _ _ _ _).mpr ⟨h0, h4, h1⟩)

/-- The response that answers a rejected candidate, if this outcome rejects one with an answer (R176, R178, R179);
`scanStream_of_nack` and `iterate_of_nack` tie it to the scan and to the reframer. -/
def nackOf (e : DecodeError) : Option Instr :=
  match e with
  | .empty => none
  | .noise _ => none
  | .shortHead => none
  | .badSignature => none
  | .tooLarge => some .nackLen
  | .shortBody => none
  | .badTrailer => some .nackTrailer
  | .badCrc => some .nackCrc

/-- Such an outcome does not change when more bytes arrive, and its answer is a response. -/
theorem nackOf_some {e : DecodeError} {i : Instr} (h : nackOf e = some i) : e.Final ∧ i.isRequest = false := by
  cases e with
  | tooLarge | badTrailer | badCrc => cases h; exact ⟨trivial, rfl⟩
  | empty | noise | shortHead | badSignature | shortBody => cases h

/-- The scan counts a rejected candidate as its NACK and leaves it by 2 bytes. -/
theorem scanStream_of_nack {c : Cfg} {p : Prof} {bs : List Byte} {e : DecodeError} {i : Instr}
    (hd : decode c p bs = .error e) (h : nackOf e = some i) :
    scanStream c p bs = (i :: (scanStream c p (bs.drop 2)).1, (scanStream c p (bs.drop 2)).2) := by
  rw [scanStream_eq, hd]
  cases e with
  | tooLarge | badTrailer | badCrc => cases h; rfl
  | empty | noise | shortHead | badSignature | shortBody => cases h

/-- The reframer runs that NACK and leaves the candidate by 2 bytes. -/
theorem iterate_of_nack {s : State} {e : DecodeError} {i : Instr} (hd : decode s.cfg s.prof s.rb.pending = .error e)
    (h : nackOf e = some i) : iterate s = thenNext (advance 2) (exec i s) := by
  unfold iterate
  rw [hd]
  cases e with
  | tooLarge | badTrailer | badCrc => cases h; rfl
  | empty | noise | shortHead | badSignature | shortBody => cases h

/-- The scan finds nothing where the reframer waits. -/
theorem scanStream_of_waiting {c : Cfg} {p : Prof} {bs : List Byte} (h : Waiting c p bs) :
    scanStream c p bs = ([], bs) := by
  rw [scanStream_eq]
  rcases (waiting_iff c p bs).mp h with hd | hd | hd <;> rw [hd]

/-- A leading noise run adds nothing to a scan, however long it is. -/
theorem scanStream_drop_noiseRun (c : Cfg) (p : Prof) (bs : List Byte) :
    scanStream c p (bs.drop (noiseRun p bs)) = scanStream c p bs := by
  cases bs with
  | nil => rfl
  | cons b rest =>
    by_cases hb : b = p.sig0
    · simp only [noiseRun, if_pos hb, List.drop_zero]
    · rw [scanStream_eq c p (b :: rest), decode_of_noise c (List.cons_ne_nil b rest) hb]

/-- A byte other than `SIG0` adds nothing to a scan: noise may be passed over byte by byte (R173). -/
theorem scanStream_cons_of_ne_sig0 (c : Cfg) {p : Prof} {b : Byte} (rest : List Byte) (hb : b ≠ p.sig0) :
    scanStream c p (b :: rest) = scanStream c p rest := by
  rw [← scanStream_drop_noiseRun c p (b :: rest), ← scanStream_drop_noiseRun c p rest]
  simp only [noiseRun, if_neg hb, List.drop_succ_cons]

/-- Where the reframer does not wait, a round of the scan finds the same and uses the same bytes whatever follows (R185). -/
theorem scanStream_round {c : Cfg} {p : Prof} {bs : List Byte} (hnw : ¬ Waiting c p bs) :
    ∃ is k, 0 < k ∧ k ≤ bs.length ∧ ∀ more, scanStream c p (bs ++ more) =
      (is ++ (scanStream c p (bs.drop k ++ more)).1, (scanStream c p (bs.drop k ++ more)).2) := by
  rw [waiting_iff] at hnw
  cases hd : decode c p bs with
  | ok r =>
    obtain ⟨i, len⟩ := r
    obtain ⟨h8, hle, -⟩ := decode_ok_len hd
    refine ⟨[i], len, by omega, hle, fun more => ?_⟩
    rw [scanStream_eq, decode_append_ok more hd, ← List.drop_append_of_le_length hle]
    rfl
  | error e =>
    cases hnack : nackOf e with
    | some i =>
      obtain ⟨hfinal, -⟩ := nackOf_some hnack
      have h4 := decode_final_len hfinal hd
      refine ⟨[i], 2, Nat.two_pos, by omega, fun more => ?_⟩
      rw [scanStream_of_nack (decode_append_error more hfinal hd) hnack, List.drop_append_of_le_length (by omega)]
      rfl
    | none =>
      cases e with
      | empty | shortHead | shortBody => simp [hd] at hnw
      | tooLarge | badTrailer | badCrc => cases hnack
      | noise n =>
        rw [decode_error_iff, checkFrame_error_iff] at hd
        obtain ⟨hne, h0, -⟩ := hd
        obtain ⟨b, rest, rfl⟩ := List.exists_cons_of_ne_nil hne
        exact ⟨[], 1, Nat.one_pos, by simp, fun more => scanStream_cons_of_ne_sig0 c (rest ++ more) h0⟩
      | badSignature =>
        have h4 := decode_final_len (e := .badSignature) trivial hd
        refine ⟨[], 1, Nat.one_pos, by omega, fun more => ?_⟩
        rw [scanStream_eq, decode_append_error (e := .badSignature) more trivial hd,
          ← List.drop_append_of_le_length (by omega)]
        rfl

/-! ## Two chunks (R185) -/

/-- Scanning a stream is scanning its first part, and then what that leaves with the second part behind it. -/
theorem scanStream_append (c : Cfg) (p : Prof) (first second : List Byte) :
    scanStream c p (first ++ second) =
      ((scanStream c p first).1 ++ (scanStream c p ((scanStream c p first).2 ++ second)).1,
        (scanStream c p ((scanStream c p first).2 ++ second)).2) := by
  induction hn : first.length using Nat.strong_induction_on generalizing first with
  | _ n ih =>
    by_cases hw : Waiting c p first
    · rw [scanStream_of_waiting hw]
      rfl
    · obtain ⟨is, k, hpos, hle, hround⟩ := scanStream_round hw
      have hfirst := hround []
      rw [List.append_nil, List.append_nil] at hfirst
      rw [hround second, ih _ (by rw [List.length_drop]; omega) (first.drop k) rfl, hfirst, List.append_assoc]

/-- What a scan leaves is the end of its stream. -/
theorem scanStream_rest_suffix (c : Cfg) (p : Prof) (bs : List Byte) : (scanStream c p bs).2 <:+ bs := by
  induction hn : bs.length using Nat.strong_induction_on generalizing bs with
  | _ n ih =>
    by_cases hw : Waiting c p bs
    · rw [scanStream_of_waiting hw]
    · obtain ⟨is, k, hpos, hle, hround⟩ := scanStream_round hw
      have hscan := hround []
      rw [List.append_nil, List.append_nil] at hscan
      rw [hscan]
      exact (ih _ (by rw [List.length_drop]; omega) (bs.drop k) rfl).trans (List.drop_suffix k bs)

/-- Settles O29, by induction over the rounds that the first chunk allows. -/
theorem scanIsChunkInvariant : Obligations.ScanIsChunkInvariant := scanStream_append

/-- A chunk that fits changes the receive buffer only (R171). -/
theorem rxAppend_of_fits {chunk : List Byte} {s : State} (h : s.rb.fill + chunk.length ≤ s.cfg.rxCap) :
    rxAppend chunk s = withRb { s.rb with buf := s.rb.buf ++ chunk } s := by
  have hfree : chunk.length ≤ s.cfg.rxCap - s.rb.fill := by omega
  simp only [rxAppend, List.take_of_length_le hfree, Nat.sub_eq_zero_of_le hfree]
  rfl

/-- A run of CORE keeps the invariant, the parameters and the mode. -/
theorem runCore_keeps {n : Nat} {s t : State} (h : InvParts s) (hcore : runCore n s = .next t) :
    InvParts t ∧ t.cfg = s.cfg ∧ t.prof = s.prof ∧ t.mode = s.mode := by
  induction n generalizing s with
  | zero => cases hcore; exact ⟨h, rfl, rfl, rfl⟩
  | succ n ih =>
    by_cases hen : IterateEnabled s
    · obtain ⟨u, hu⟩ := iterate_goes_on h
      rw [runCore_succ n hen hu] at hcore
      obtain ⟨hcfg, hprof, hmode⟩ := iterate_fields hu
      rw [← hcfg, ← hprof, ← hmode]
      exact ih (h.iterate hu) hcore
    · rw [runCore_of_not_enabled _ hen] at hcore
      cases hcore
      exact ⟨h, rfl, rfl, rfl⟩

/-- After a chunk that fits, CORE runs what the scan finds in the unconsumed bytes with the chunk behind them, and keeps
what the scan leaves. -/
theorem runCore_rxAppend {rb : RxBuffer} {s : State} {chunk : List Byte} (h : InvParts (withRb rb s))
    (hrun : s.mode = .run) (hfit : rb.fill + chunk.length ≤ s.cfg.rxCap) :
    ∃ t, runExec (scanStream s.cfg s.prof (rb.pending ++ chunk)).1 s = .next t ∧
      runCore (rb.pending.length + chunk.length + 1) (rxAppend chunk (withRb rb s)) =
        .next (withRb { buf := (scanStream s.cfg s.prof (rb.pending ++ chunk)).2, rp := 0 } t) := by
  have hrx : rxAppend chunk (withRb rb s) = withRb { rb with buf := rb.buf ++ chunk } s := rxAppend_of_fits hfit
  have hpend : (rxAppend chunk (withRb rb s)).rb.pending = rb.pending ++ chunk := by
    rw [hrx]
    exact List.drop_append_of_le_length h.scan
  obtain ⟨t', ht', hcore⟩ := runCore_scan (rb.pending.length + chunk.length + 1) (h.rxAppend chunk) hrun
    (by rw [hpend, List.length_append]; omega)
  rw [hpend, rxAppend_cfg, rxAppend_prof] at ht' hcore
  rw [hrx, runExec_withRb] at ht'
  obtain ⟨t, ht, rfl⟩ := thenNext_eq_next ht'
  exact ⟨t, ht, hcore⟩

/-- Settles O30: CORE runs the scan of its stream, the scan does not depend on the chunks, and no instruction looks at the
receive buffer that CORE leaves between them. -/
theorem chunkSizeInvariance : Obligations.ChunkSizeInvariance := by
  intro s first second hinv hrun hfit
  have h : InvParts (withRb s.rb s) := inv_iff.mp hinv
  have hpending := pending_length s
  obtain ⟨a, ha, hcore⟩ := runCore_rxAppend (chunk := first) h hrun (by omega)
  obtain ⟨hmid, hcfg, hprof, hmode⟩ := runCore_keeps (h.rxAppend first) hcore
  have hscan := scanStream_append s.cfg s.prof (s.rb.pending ++ first) second
  have hrest := (scanStream_rest_suffix s.cfg s.prof (s.rb.pending ++ first)).length_le
  rw [List.length_append] at hrest
  generalize scanStream s.cfg s.prof (s.rb.pending ++ first) = one at *
  obtain ⟨b, hb, hcore'⟩ := runCore_rxAppend (chunk := second) hmid (hmode.trans hrun)
    (by rw [show a.cfg = s.cfg from hcfg]; show one.2.length + _ ≤ _; omega)
  obtain ⟨v, hv, hboth⟩ := runCore_rxAppend (chunk := first ++ second) h hrun
    (by rw [List.length_append]; omega)
  rw [show a.cfg = s.cfg from hcfg, show a.prof = s.prof from hprof] at hb hcore'
  rw [← List.append_assoc, hscan] at hv hboth
  have hvb : runExec (one.1 ++ (scanStream s.cfg s.prof (one.2 ++ second)).1) s = .next b := by
    rw [runExec_append, ha]
    exact hb
  obtain rfl : b = v := Outcome.next.inj (hvb.symm.trans hv)
  rw [List.length_append, ← Nat.add_assoc] at hboth
  exact ⟨_, _, hcore, hcore', hboth⟩

/-! ## Progress (R184, R317) -/

/-- An iteration moves the scan position over unconsumed bytes, or the reframer waited and it compacts. -/
theorem iterate_rb {s t : State} (hit : iterate s = .next t) :
    (∃ k, 0 < k ∧ t.rb = { s.rb with rp := s.rb.rp + k }) ∨ (Waiting s.cfg s.prof s.rb.pending ∧ t = compact s) := by
  rcases iterate_cases hit with
    ⟨i, len, hd, u, hu, rfl⟩ | ⟨k, hd, rfl⟩ | ⟨-, rfl⟩ | ⟨i, e, -, -, -, -, u, hu, rfl⟩ | hw
  · obtain ⟨h8, -, -⟩ := decode_ok_len hd
    obtain ⟨-, -, -, -, hrb, -⟩ := exec_fields hu
    exact .inl ⟨len, by omega, by rw [advance_rb, hrb]⟩
  · obtain ⟨-, -, hpos, -⟩ := decode_noise hd
    exact .inl ⟨k, hpos, rfl⟩
  · exact .inl ⟨1, Nat.one_pos, rfl⟩
  · obtain ⟨-, -, -, -, hrb, -⟩ := exec_fields hu
    exact .inl ⟨2, Nat.two_pos, by rw [advance_rb, hrb]⟩
  · exact .inr hw

/-- Where the reframer waits, compaction leaves no iteration enabled (R172, R182). -/
theorem not_enabled_compact {s : State} (hw : Waiting s.cfg s.prof s.rb.pending) : ¬ IterateEnabled (compact s) :=
  fun hen => hen.2 ⟨rfl, hw⟩

/-- An iteration for each unconsumed byte and one more bring CORE to rest. -/
theorem runCore_rests (n : Nat) {s : State} (h : InvParts s) (hn : s.rb.pending.length < n) :
    ∃ t, runCore n s = .next t ∧ ¬ IterateEnabled t := by
  induction n generalizing s with
  | zero => omega
  | succ n ih =>
    by_cases hen : IterateEnabled s
    · obtain ⟨t, hit⟩ := iterate_goes_on h
      rw [runCore_succ n hen hit]
      rcases iterate_rb hit with ⟨k, hpos, hrb⟩ | ⟨hw, rfl⟩
      · have hscan := (h.iterate hit).scan
        refine ih (h.iterate hit) ?_
        rw [pending_length] at hn ⊢
        rw [hrb] at hscan ⊢
        simp only [RxBuffer.fill] at hn hscan ⊢
        omega
      · exact ⟨_, runCore_of_not_enabled n (not_enabled_compact hw), not_enabled_compact hw⟩
    · exact ⟨s, runCore_of_not_enabled _ hen, hen⟩

/-- Settles O27: an iteration that does not move the scan position found the reframer waiting behind consumed bytes. -/
theorem forwardProgress : Obligations.ForwardProgress := by
  refine ⟨fun s t _ hen hit => ?_, fun s hinv => runCore_rests _ (inv_iff.mp hinv) (by rw [pending_length]; omega)⟩
  rcases iterate_rb hit with ⟨k, hpos, hrb⟩ | ⟨hw, rfl⟩
  · left
    rw [hrb]
    exact ⟨Nat.lt_add_of_pos_right hpos, rfl⟩
  · have hconsumed : 0 < s.rb.rp := Nat.pos_of_ne_zero fun hrp => hen.2 ⟨hrp, hw⟩
    exact .inr ⟨hconsumed, rfl, not_enabled_compact hw⟩

/-- No agent's step stops where the invariant holds. -/
theorem agentStep_goes_on {s : State} (h : InvParts s) (e : Event) : ∃ t, agentStep e s = .next t := by
  cases e with
  | rx | tx | tick | jump | reset => exact ⟨_, rfl⟩
  | iterate =>
    by_cases hen : IterateEnabled s
    · obtain ⟨t, ht⟩ := iterate_goes_on h
      exact ⟨t, (if_pos hen).trans ht⟩
    · exact ⟨s, if_neg hen⟩
  | powerLoss answers issued enter =>
    obtain ⟨t, ht⟩ := cutIteration_goes_on h answers issued
    exact ⟨resetMachine enter t, congrArg (thenNext (resetMachine enter)) ht⟩

/-- Settles O58, by the agent that moves. -/
theorem machineNeverStops : Obligations.MachineNeverStops := by
  intro s hinv
  have h := inv_iff.mp hinv
  rw [step_of_ok h.cfg h.prof]
  refine agentStep_goes_on ?_ _
  rw [nextEvent_snd]
  exact h.withEnv _

/-! ## Noise around a frame (R186) -/

/-- A byte at which no signature starts adds nothing to a scan, where a head's worth of bytes is there (R173, R175). -/
theorem scanStream_cons_of_no_signature (c : Cfg) {p : Prof} {b : Byte} {rest : List Byte}
    (hsig : b = p.sig0 → rest[0]? ≠ some p.sig1) (hlen : b = p.sig0 → 3 ≤ rest.length) :
    scanStream c p (b :: rest) = scanStream c p rest := by
  by_cases hb : b = p.sig0
  · have h3 := hlen hb
    have h1 : (b :: rest).getD 1 0#8 ≠ p.sig1 := by
      intro he
      refine hsig hb ?_
      rw [List.getElem?_eq_getElem (by omega)]
      simpa [List.getElem?_eq_getElem (show 0 < rest.length by omega)] using he
    rw [scanStream_eq, decode_of_badSignature c (bs := b :: rest) hb (Nat.succ_le_succ h3) h1]
    rfl
  · exact scanStream_cons_of_ne_sig0 c rest hb

/-- No signature starts in `b :: noise` exactly where none starts at `b` and none in `noise`. -/
theorem noSignatureIn_cons {p : Prof} {b : Byte} {noise rest : List Byte} (h : NoSignatureIn p (b :: noise) rest) :
    (b = p.sig0 → (noise ++ rest)[0]? ≠ some p.sig1) ∧ NoSignatureIn p noise rest :=
  ⟨fun hb => h 0 (Nat.zero_lt_succ _) (congrArg some hb), fun k hk => h (k + 1) (Nat.succ_lt_succ hk)⟩

/-- What stands behind the byte after the noise does not matter. -/
theorem noSignatureIn_append {p : Prof} {noise rest : List Byte} (h : NoSignatureIn p noise rest) (hne : rest ≠ [])
    (more : List Byte) : NoSignatureIn p noise (rest ++ more) := by
  intro k hk
  have hpos := List.length_pos_iff.mpr hne
  have hleft : ∀ j ≤ k + 1, (noise ++ (rest ++ more))[j]? = (noise ++ rest)[j]? := fun j hj => by
    rw [← List.append_assoc, List.getElem?_append_left (by rw [List.length_append]; omega)]
  rw [hleft k (Nat.le_succ k), hleft (k + 1) (le_refl _)]
  exact h k hk

/-- Noise in which no signature starts adds nothing to the scan of what follows it. -/
theorem scanStream_noise (c : Cfg) {p : Prof} {noise rest : List Byte} (h : NoSignatureIn p noise rest)
    (hlen : 3 ≤ rest.length) : scanStream c p (noise ++ rest) = scanStream c p rest := by
  induction noise with
  | nil => rfl
  | cons b noise ih =>
    obtain ⟨hb, hnoise⟩ := noSignatureIn_cons h
    rw [← ih hnoise]
    exact scanStream_cons_of_no_signature c hb fun _ => hlen.trans (by simp)

/-- Of noise with nothing after it, only an incomplete head stays. -/
theorem scanStream_noise_end (c : Cfg) {p : Prof} {after : List Byte} (h : NoSignatureIn p after []) :
    ∃ rest, scanStream c p after = ([], rest) ∧ (rest = [] ∨ (rest.head? = some p.sig0 ∧ rest.length < 4)) := by
  induction after with
  | nil => exact ⟨[], rfl, .inl rfl⟩
  | cons b after ih =>
    obtain ⟨hb, hafter⟩ := noSignatureIn_cons h
    rw [List.append_nil] at hb
    by_cases hshort : b = p.sig0 ∧ (b :: after).length < 4
    · exact ⟨b :: after, scanStream_of_waiting (.inr (.inl hshort)), .inr ⟨congrArg some hshort.1, hshort.2⟩⟩
    · rw [scanStream_cons_of_no_signature c hb fun he => by
        have hlong : ¬ (b :: after).length < 4 := fun hlt => hshort ⟨he, hlt⟩
        rw [List.length_cons] at hlong
        omega]
      exact ih hafter

/-- Settles O31: the scan passes the noise, reads the frame by the round trip, and passes the noise after it. -/
theorem noiseRobustness : Obligations.NoiseRobustness := by
  intro c p i noise after hp hi hreq hfits hnoise hafter
  have hdecode := requestRoundTrip c p i after hp hi hreq hfits
  obtain ⟨h8, -, -⟩ := decode_ok_len hdecode
  have hne : encode p i ≠ [] := List.length_pos_iff.mp (by omega)
  have hframe : scanStream c p (noise ++ encode p i ++ after) =
      (i :: (scanStream c p after).1, (scanStream c p after).2) := by
    rw [List.append_assoc, scanStream_noise c (noSignatureIn_append hnoise hne after)
      (by rw [List.length_append]; omega), scanStream_eq, hdecode]
    simp only [List.drop_left]
  obtain ⟨rest, hscan, hrest⟩ := scanStream_noise_end c hafter
  have hsuffix := scanStream_rest_suffix c p after
  rw [hscan] at hframe hsuffix
  exact ⟨rest, hframe, hsuffix, hrest⟩

/-! ## What one iteration does -/

/-- Where the reframer does not wait, the iteration event runs an iteration (R170). -/
theorem agentStep_iterate {s : State} (hrun : s.mode = .run) (hnw : ¬ Waiting s.cfg s.prof s.rb.pending) :
    agentStep .iterate s = iterate s := if_pos ⟨hrun, fun hrest => hnw hrest.2⟩

/-- A rejected candidate is answered by its NACK and left by 2 bytes; nothing else changes. -/
theorem agentStep_iterate_of_nack {s : State} {e : DecodeError} {i : Instr} (hrun : s.mode = .run)
    (hd : decode s.cfg s.prof s.rb.pending = .error e) (hnack : nackOf e = some i) :
    ∃ t, Answered (encode s.prof i) s t ∧
      agentStep .iterate s = .next { t with rb := { s.rb with rp := s.rb.rp + 2 } } := by
  obtain ⟨-, hresponse⟩ := nackOf_some hnack
  refine ⟨txSend (encode s.prof i) s, txSend_answered _ s, ?_⟩
  have hnw : ¬ Waiting s.cfg s.prof s.rb.pending := by
    simp only [waiting_iff, hd, Except.error.injEq]
    rintro (rfl | rfl | rfl) <;> cases hnack
  rw [agentStep_iterate hrun hnw, iterate_of_nack hd hnack, exec_response i s hresponse]
  simp only [thenNext, advance, txSend_rb]

/-- Settles O15: the length test is the first that such a candidate fails. -/
theorem oversizeFrameAnswered : Obligations.OversizeFrameAnswered := by
  intro s hrun h0 h4 h1 hlarge
  have hd : decode s.cfg s.prof s.rb.pending = .error .tooLarge :=
    (decode_error_iff _ _ _ _).mpr ((checkFrame_error_iff _ _ _ _ _).mpr ⟨h0, h4, h1, _, rfl, hlarge⟩)
  exact agentStep_iterate_of_nack hrun hd rfl

/-- Settles O16: the trailer test comes before that of the CRC, and after all that the candidate passes. -/
theorem badTrailerAnswered : Obligations.BadTrailerAnswered := by
  intro s hrun b len h0 h1 hcap hlen htrailer
  have h8 : 8 ≤ len := frameLen_ge _
  have hd : decode s.cfg s.prof b = .error .badTrailer :=
    (decode_error_iff _ _ _ _).mpr ((checkFrame_error_iff _ _ _ _ _).mpr
      ⟨h0, by omega, h1, by rintro _ ⟨⟩; exact hcap, hlen, htrailer⟩)
  exact agentStep_iterate_of_nack hrun hd rfl

/-- Settles O17: the CRC test is the last. -/
theorem badCrcAnswered : Obligations.BadCrcAnswered := by
  intro s hrun b len h0 h1 hcap hlen htrailer hcrc
  have h8 : 8 ≤ len := frameLen_ge _
  have hd : decode s.cfg s.prof b = .error .badCrc :=
    (decode_error_iff _ _ _ _).mpr ((checkFrame_error_iff _ _ _ _ _).mpr
      ⟨h0, by omega, h1, by rintro _ ⟨⟩; exact hcap, hlen, htrailer, hcrc⟩)
  exact agentStep_iterate_of_nack hrun hd rfl

/-- Settles O18: the noise run ends at the next `SIG0` or with the bytes. -/
theorem noiseSkipped : Obligations.NoiseSkipped := by
  refine ⟨fun s hrun hne h0 => ?_, fun s hrun h0 h4 h1 => ?_⟩
  · have hd := decode_of_noise s.cfg hne h0
    have hle := noiseRun_le s.prof s.rb.pending
    refine ⟨noiseRun s.prof s.rb.pending, noiseRun_before _ _, hle, ?_, ?_⟩
    · exact hle.eq_or_lt.imp_right (noiseRun_at _ _)
    · rw [agentStep_iterate hrun (by simp [waiting_iff, hd]), iterate, hd]
      rfl
  · have hd := decode_of_badSignature s.cfg h0 h4 h1
    rw [agentStep_iterate hrun (by simp [waiting_iff, hd]), iterate, hd]
    rfl

/-- Settles O19, by whether consumed bytes make the iteration an enabled one. -/
theorem waitingCompacts : Obligations.WaitingCompacts := by
  intro s hrun hw
  obtain ⟨-, hit⟩ := scan_of_waiting hw
  refine ⟨fun hrp => ⟨compact s, ?_, rfl, rfl, pending_length s, rfl, rfl⟩, fun hrp => ?_⟩
  · exact (if_pos ⟨hrun, fun hrest => hrp.ne' hrest.1⟩).trans hit
  · exact if_neg fun hen => hen.2 ⟨hrp, hw⟩

/-- Settles O13: what the decoder accepts is well-formed, and choosing the step touches only the inputs to come. -/
theorem stepRunsDecodedInstruction : Obligations.StepRunsDecodedInstruction := by
  intro s u i len hcfg hprof hrun hnext hd
  obtain ⟨hwf, -⟩ := decodedFrameIsItsEncoding _ _ _ _ _ hprof hd
  have hu : u = { s with env := u.env } := by
    have hsnd := nextEvent_snd s
    rwa [hnext] at hsnd
  have hd' : decode u.cfg u.prof u.rb.pending = .ok (i, len) := by
    rw [hu]
    exact hd
  refine ⟨hwf, hu, ?_⟩
  rw [step_of_ok hcfg hprof, hnext,
    agentStep_iterate (by rw [hu]; exact hrun) (by simp [waiting_iff, hd']), iterate, hd']
  rfl

/-! ## What RX appends (R171) -/

/-- Appending two chunks one after the other is appending them at once: the room left by the first is what the second
finds, and what is lost adds up. -/
theorem rxAppend_rxAppend (first second : List Byte) (s : State) :
    rxAppend second (rxAppend first s) = rxAppend (first ++ second) s := by
  have hroom : s.cfg.rxCap - (rxAppend first s).rb.fill = s.cfg.rxCap - s.rb.fill - first.length := by
    simp only [rxAppend_rb, RxBuffer.fill, List.length_append, List.length_take]
    omega
  have hlost : first.length - (s.cfg.rxCap - s.rb.fill) +
      (second.length - (s.cfg.rxCap - s.rb.fill - first.length)) =
        (first ++ second).length - (s.cfg.rxCap - s.rb.fill) := by
    rw [List.length_append]
    omega
  calc rxAppend second (rxAppend first s)
      = { s with
          rb := { s.rb with
            buf := s.rb.buf ++ first.take (s.cfg.rxCap - s.rb.fill) ++
              second.take (s.cfg.rxCap - s.rb.fill - first.length) }
          trace := { s.trace with
            rxDrop := s.trace.rxDrop + (first.length - (s.cfg.rxCap - s.rb.fill)) +
              (second.length - (s.cfg.rxCap - s.rb.fill - first.length)) } } := by rw [← hroom]; rfl
    _ = rxAppend (first ++ second) s := by
      rw [Nat.add_assoc, hlost, List.append_assoc, ← List.take_append]
      rfl

/-- Settles O20, by the mode. -/
theorem receiveAppends : Obligations.ReceiveAppends := by
  have hon : ∀ {s : State} (chunk : List Byte), s.mode = .run → agentStep (.rx chunk) s = .next (rxAppend chunk s) :=
    fun chunk hrun => congrArg Outcome.next (if_pos hrun)
  have hoff : ∀ {s : State} (chunk : List Byte), s.mode ≠ .run → agentStep (.rx chunk) s = .next s :=
    fun chunk hjumped => congrArg Outcome.next (if_neg hjumped)
  refine ⟨?_, fun s chunk hjumped => hoff chunk (by simp [hjumped]), fun s => ?_,
    fun s t first second hfirst => ?_⟩
  · intro s chunk hrun free k
    have htake : chunk.take k = chunk.take free := by rw [List.take_eq_take_min (i := free), min_comm]
    have hlost : chunk.length - k = chunk.length - free := by omega
    rw [hon chunk hrun, htake, hlost]
    rfl
  · by_cases hrun : s.mode = .run
    · rw [hon [] hrun]
      simp [rxAppend]
    · exact hoff [] hrun
  · by_cases hrun : s.mode = .run
    · rw [hon first hrun] at hfirst
      cases hfirst
      rw [hon second ((rxAppend_mode first s).trans hrun), hon (first ++ second) hrun, rxAppend_rxAppend]
    · rw [hoff first hrun] at hfirst
      cases hfirst
      rw [hoff second hrun, hoff (first ++ second) hrun]

end Sys2Proof.Proofs
end

section
/-! PROOFS. The statements of spec/42_dispatcher.md: one response per instruction (R201), the word count (R202) and unknown
commands (R203). -/

namespace Sys2Proof.Proofs

open Sys2Proof Sys2Proof.Machine

/-! ## One response (R201) -/

/-- `tx.send` puts the whole frame at the end of the queue or of the drop log, and leaves the other (R265). -/
theorem txSend_queued_or_dropped (f : List Byte) (s : State) :
    ((txSend f s).txq = s.txq ++ f ∧ (txSend f s).trace.dropLog = s.trace.dropLog) ∨
      ((txSend f s).txq = s.txq ∧ (txSend f s).trace.dropLog = s.trace.dropLog ++ [f]) := by
  unfold txSend
  split
  · exact .inl ⟨rfl, rfl⟩
  · exact .inr ⟨rfl, rfl⟩

/-- Settles O50: up to its one response an instruction leaves the queue and the drop log as they were. -/
theorem oneResponsePerInstruction : Obligations.OneResponsePerInstruction := by
  intro i s t hexec
  obtain ⟨u, code, payload, hsh, rfl, hrequest⟩ := exec_shape hexec
  have hframe := execShape_frame hsh
  have htxq : u.txq = s.txq := by rw [hframe]
  have hdrop : u.trace.dropLog = s.trace.dropLog := by rw [hframe]
  refine ⟨code, payload, ?_, hrequest⟩
  rw [← htxq, ← hdrop]
  exact txSend_queued_or_dropped _ u

/-! ## Rejected commands (R202, R203) -/

/-- The word count that a command with a handler of its own asks for (R202). -/
def argWords (c : Cfg) (i : Instr) : Option Nat :=
  match i with
  | .connect _ => some 0
  | .writeBlock _ => some (1 + c.blockWords)
  | .endOfFile _ => some 0
  | .readBlock _ => some 1
  | .complete _ => some 0
  | .getTransportId _ => some 0
  | _ => none

/-- The word count is tested before anything else is done (R202). -/
theorem exec_of_wrong_count {i : Instr} {s : State} {n : Nat} (hn : argWords s.cfg i = some n)
    (hw : wordCount i.payload ≠ n) : exec i s = .next (raiseEvent .argCount s) := by
  cases i with
  | connect | writeBlock | endOfFile | readBlock | complete | getTransportId => cases hn; exact if_pos hw
  | unknown | ack | nackLen | nackTrailer | nackCrc | nackCmd | commandError => cases hn

/-- An event of a command is answered COMMAND_ERROR, with no other effect (R311). -/
theorem raiseEvent_command_answered {e : ErrorEvent} (s : State)
    (h : e = .unknownCmd ∨ e = .argCount ∨ e = .addr ∨ e = .flash) :
    Answered (errorFrame s.prof) s (raiseEvent e s) := by
  rw [raiseEvent_command e s h]
  exact emit_answered _ _ s

/-- Settles O42: each of the six commands fails its word count test first. -/
theorem argumentCountChecked : Obligations.ArgumentCountChecked := by
  intro s payload
  have hrejected : ∀ {i : Instr} {n : Nat}, argWords s.cfg i = some n → wordCount i.payload ≠ n →
      ∃ t, exec i s = .next t ∧ Answered (errorFrame s.prof) s t :=
    fun hn hw => ⟨_, exec_of_wrong_count hn hw, raiseEvent_command_answered s (.inr (.inl rfl))⟩
  exact ⟨fun hw => ⟨hrejected rfl hw, hrejected rfl hw, hrejected rfl hw, hrejected rfl hw⟩,
    fun hw => hrejected rfl hw, fun hw => hrejected rfl hw⟩

/-- Settles O40: UNKNOWN raises its event and does nothing else. -/
theorem unknownCommandRejected : Obligations.UnknownCommandRejected := fun s _ _ =>
  ⟨_, rfl, raiseEvent_command_answered s (.inl rfl)⟩

end Sys2Proof.Proofs
end

section
/-! PROOFS. The statements of spec/43_flash_fsm.md: one flush, whatever the answers of flash (R223, R224, R230 to R236,
R240), and the blocks of one page, sent once (R241) and sent again (R238). -/

namespace Sys2Proof.Proofs

open Sys2Proof Sys2Proof.Machine

/-! ## The state that a command flushes from -/

/-- `v` is `s` with the page at `pa` staged as `buf` and pending: where a command of `s` begins its flush. -/
structure StagedFrom (s : State) (pa : Word) (buf : List Byte) (v : State) : Prop where
  eq : v = { s with sp := { s.sp with buf := buf, pending := true, addr := pa }, fs := v.fs, xs := v.xs }
  complete : v.xs = .complete ↔ s.xs = .complete

theorem xsAfter_eq_complete_iff {s : State} {v : TransferState} (hv : v ≠ .complete) :
    xsAfter s v = .complete ↔ s.xs = .complete := by
  unfold xsAfter
  split <;> simp [*]

/-- A WRITE_BLOCK that ends its page flushes from its copy (R222, R223). -/
theorem stagedFrom_stageBlock (addr : Word) (data : List Byte) (s : State) :
    StagedFrom s (pageBase s.cfg addr) (overlay s.sp.buf (pageOff s.cfg addr) data) (stageBlock addr data s) := by
  rw [stageBlock_eq]
  exact ⟨rfl, xsAfter_eq_complete_iff (by simp)⟩

/-- END_OF_FILE flushes from the state it finds (R240). -/
theorem stagedFrom_pending {s : State} (hp : s.sp.pending = true) : StagedFrom s s.sp.addr s.sp.buf s :=
  ⟨eq_with_pending hp, Iff.rfl⟩

/-- Whether a flush goes wrong depends on flash, the answers and the build alone. -/
theorem flushFails_congr {pa : Word} {staged : List Byte} {s t : State} (hc : s.cfg = t.cfg) (hf : s.flash = t.flash)
    (he : s.env = t.env) : FlushFails pa staged s ↔ FlushFails pa staged t := by
  obtain ⟨hdraw, henv⟩ := nextDraw_congr he
  have hafter : ProgramFails pa staged (flashErase pa s).2 ↔ ProgramFails pa staged (flashErase pa t).2 := by
    rw [flashErase_eq, flashErase_eq]
    exact ProgramFails_congr hc (by simp only [hc, hf, hdraw]) henv
  have hstatus : (flashErase pa s).1 = (flashErase pa t).1 := by rw [flashErase_eq, flashErase_eq, hdraw]
  have hpage : pageAt s pa = pageAt t pa := by unfold pageAt; rw [hc, hf]
  unfold FlushFails
  rw [hpage, hc, hstatus, hafter, ProgramFails_congr hc hf he]

namespace StagedFrom

variable {s v w : State} {pa : Word} {buf : List Byte} {r : FlushResult}

theorem buf_eq (h : StagedFrom s pa buf v) : v.sp.buf = buf := by rw [h.eq]

theorem cfg_eq (h : StagedFrom s pa buf v) : v.cfg = s.cfg := by rw [h.eq]

theorem flash_eq (h : StagedFrom s pa buf v) : v.flash = s.flash := by rw [h.eq]

theorem env_eq (h : StagedFrom s pa buf v) : v.env = s.env := by rw [h.eq]

theorem wc_eq (h : StagedFrom s pa buf v) : v.wc = s.wc := by rw [h.eq]

/-- The flush fails exactly where the page staged from `s` goes wrong (R233, R234). -/
theorem fail_iff (h : StagedFrom s pa buf v) (hs : FlushSpec pa v r w) : r = .fail ↔ FlushFails pa buf s := by
  rw [hs.fails, h.buf_eq]
  exact flushFails_congr h.cfg_eq h.flash_eq h.env_eq

theorem outside (h : StagedFrom s pa buf v) (hs : FlushSpec pa v r w) (hlen : buf.length = s.cfg.pageSize) :
    ∀ a, OutsidePage s.cfg pa a → Memory.read w.flash a = Memory.read s.flash a := by
  have hout := hs.outside (by rw [h.buf_eq, h.cfg_eq, hlen])
  rwa [h.cfg_eq, h.flash_eq] at hout

/-- A flush that does not fail leaves the staged page (R234). -/
theorem page (h : StagedFrom s pa buf v) (hs : FlushSpec pa v r w) (hr : r ≠ .fail) :
    Memory.readBytes w.flash pa.toNat s.cfg.pageSize = buf := by
  have hdata := hs.data hr
  rwa [h.buf_eq, h.cfg_eq] at hdata

theorem same_build (h : StagedFrom s pa buf v) (hs : FlushSpec pa v r w) :
    w.cfg = s.cfg ∧ w.prof = s.prof := by
  rw [hs.same, h.eq]
  exact ⟨rfl, rfl⟩

/-- A failed flush is answered COMMAND_ERROR with both state machines idle (R236, R281). -/
theorem failed_answered (h : StagedFrom s pa buf v) (hs : FlushSpec pa v .fail w) :
    Answered (errorFrame s.prof) { w with fs := .idle, xs := xsAfter s .idle } (flushFailed w) := by
  have hxs : xsAfter w .idle = xsAfter s .idle := by
    have hw : w.xs = v.xs := by rw [hs.same]
    simp only [xsAfter, hw, h.complete]
  rw [flushFailed_eq, hxs, ← (h.same_build hs).2]
  exact emit_answered _ _ _

/-- A failed flush clears the staging page and leaves the count and the last page (R235 to R237). -/
theorem failed_leaves (h : StagedFrom s pa buf v) (hs : FlushSpec pa v .fail w) :
    w.sp = { s.sp with buf := erasedPage s.cfg, pending := false, addr := pa } ∧ w.wc = s.wc := by
  refine ⟨?_, hs.count.trans h.wc_eq⟩
  rw [hs.same, h.eq]
  rfl

end StagedFrom

/-! ## The two commands that flush -/

/-- A block at its page's end flushes that page and answers by the result (R223, R224). -/
theorem writeBlock_at_page_end {s : State} {payload : List Byte} (h : InvParts s)
    (hw : wordCount payload = 1 + s.cfg.blockWords) (ha : AddrOk s.cfg (payloadWord s.prof payload 0))
    (hend : AtPageEnd s.cfg (payloadWord s.prof payload 0)) :
    let addr := payloadWord s.prof payload 0
    let v := stageBlock addr (blockData s.cfg payload) s
    ∃ r w, FlushSpec (pageBase s.cfg addr) v r w ∧ flush (pageBase s.cfg addr) v = some (r, w) ∧
      exec (.writeBlock payload) s = .next (if r = .fail then flushFailed w else ackWriteBlock addr w) := by
  rcases execWriteBlock_cases payload s with
    ⟨hn, -⟩ | ⟨-, hn, -⟩ | ⟨-, -, hn, -⟩ | ⟨-, -, -, hn, -⟩ | ⟨-, -, -, -, hflush⟩
  · exact absurd hw hn
  · exact absurd ha hn
  · exact absurd hend hn
  · exact absurd (pageBase_flushable h.cfg ha) hn
  · exact hflush

/-- END_OF_FILE with a page pending flushes it and answers by the result (R240). -/
theorem endOfFile_of_pending {s : State} {payload : List Byte} (h : InvParts s) (hw : wordCount payload = 0)
    (hp : s.sp.pending = true) :
    ∃ r w, FlushSpec s.sp.addr s r w ∧ flush s.sp.addr s = some (r, w) ∧
      exec (.endOfFile payload) s = .next (if r = .fail then flushFailed w else ackEof w) := by
  rcases execEndOfFile_cases payload s with ⟨hn, -⟩ | ⟨-, hn, -⟩ | ⟨-, -, hn, -⟩ | ⟨-, -, -, hflush⟩
  · exact absurd hw hn
  · rw [hp] at hn; cases hn
  · exact absurd (h.pending hp).2 hn
  · exact hflush

namespace StagedFrom

variable {s v w : State} {pa : Word} {buf : List Byte} {r : FlushResult}

/-- WRITE_BLOCK's acknowledgement after its flush (R118, R224). -/
theorem writeBlock_answered (h : StagedFrom s pa buf v) (hs : FlushSpec pa v r w) (addr : Word) :
    Answered (ackFrame s.prof (writeBlockAck s.prof addr)) { w with fs := .accumulating } (ackWriteBlock addr w) := by
  rw [ackWriteBlock_eq, ← (h.same_build hs).2]
  exact emit_answered _ _ _

/-- END_OF_FILE's acknowledgement after its flush (R119, R240). -/
theorem endOfFile_answered (h : StagedFrom s pa buf v) (hs : FlushSpec pa v r w) :
    Answered (ackFrame s.prof (eofAck s.prof w.wc)) { w with fs := .done, xs := xsAfter w .eofPending } (ackEof w) := by
  rw [← (h.same_build hs).2]
  exact ackEof_answered w

end StagedFrom

/-- A command with a page to flush stages it, flushes it, and answers by the result (R223, R224, R236, R240). -/
theorem exec_of_flushTarget {i : Instr} {s : State} {pa : Word} (h : InvParts s) (ht : flushTarget i s = some pa) :
    ∃ v r w t, StagedFrom s pa (stagedPage i s) v ∧ FlushSpec pa v r w ∧ exec i s = .next t ∧
      (r = .fail → t = flushFailed w) ∧
      (r ≠ .fail → ∃ fs xs, Answered (ackFrame s.prof (flushAck i s w.wc)) { w with fs := fs, xs := xs } t) := by
  rcases flushTarget_some ht with ⟨payload, rfl⟩ | ⟨payload, rfl⟩
  · simp only [flushTarget] at ht
    split at ht
    · rename_i hcond
      obtain ⟨hw, ha, hend⟩ := hcond
      cases ht
      obtain ⟨r, w, hs, -, he⟩ := writeBlock_at_page_end h hw ha hend
      have hstaged := stagedFrom_stageBlock (payloadWord s.prof payload 0) (blockData s.cfg payload) s
      refine ⟨_, r, w, _, hstaged, hs, he, fun hr => if_pos hr, fun hr => ⟨.accumulating, w.xs, ?_⟩⟩
      rw [if_neg hr]
      exact hstaged.writeBlock_answered hs _
    · cases ht
  · simp only [flushTarget] at ht
    split at ht
    · rename_i hcond
      obtain ⟨hw, hp⟩ := hcond
      cases ht
      obtain ⟨r, w, hs, -, he⟩ := endOfFile_of_pending h hw hp
      have hstaged := stagedFrom_pending hp
      refine ⟨_, r, w, _, hstaged, hs, he, fun hr => if_pos hr, fun hr => ⟨.done, xsAfter w .eofPending, ?_⟩⟩
      rw [if_neg hr]
      exact hstaged.endOfFile_answered hs
    · cases ht

/-- Settles O47: what a failed flush leaves and how it is answered is the same for both commands; which of the two happens
is `FlushSpec`'s. -/
theorem flushFailureReported : Obligations.FlushFailureReported := by
  refine ⟨?_, fun s u payload hinv hw hp hfl => ?_, fun i s pa hinv ht => ?_⟩
  · intro s u payload hinv _ hw addr ha hend hfl
    have h := inv_iff.mp hinv
    obtain ⟨r, w, hs, hflush, he⟩ := writeBlock_at_page_end h hw ha hend
    obtain ⟨rfl, rfl⟩ : r = .fail ∧ w = u := by simpa using hflush.symm.trans hfl
    have hstaged := stagedFrom_stageBlock addr (blockData s.cfg payload) s
    obtain ⟨hsp, hwc⟩ := hstaged.failed_leaves hs
    exact ⟨⟨_, he, hstaged.failed_answered hs⟩, hsp, hwc,
      hstaged.outside hs (staged_length h.cfg h.staging hw ha).2⟩
  · have h := inv_iff.mp hinv
    obtain ⟨r, w, hs, hflush, he⟩ := endOfFile_of_pending h hw hp
    obtain ⟨rfl, rfl⟩ : r = .fail ∧ w = u := by simpa using hflush.symm.trans hfl
    have hstaged := stagedFrom_pending hp
    obtain ⟨hsp, hwc⟩ := hstaged.failed_leaves hs
    exact ⟨⟨_, he, hstaged.failed_answered hs⟩, hsp, hwc, hstaged.outside hs h.staging⟩
  · obtain ⟨v, r, w, t, hstaged, hs, he, hfail, hdone⟩ := exec_of_flushTarget (inv_iff.mp hinv) ht
    have hiff := hstaged.fail_iff hs
    by_cases hr : r = .fail
    · subst hr
      cases hfail rfl
      obtain ⟨hsp, hwc⟩ := hstaged.failed_leaves hs
      exact ⟨_, _, he, fun _ => ⟨hstaged.failed_answered hs, rfl, rfl, hwc, hsp⟩, fun hn => absurd (hiff.mp rfl) hn⟩
    · obtain ⟨fs, xs, hans⟩ := hdone hr
      have hu := flushed_ok_eq hstaged.eq hs hr fs xs
      have hpage : pageAt t pa = stagedPage i s := by
        unfold pageAt
        rw [hans.eq, txSend_cfg, txSend_flash]
        simp only [(hstaged.same_build hs).1]
        exact hstaged.page hs hr
      exact ⟨_, t, he, fun hf => absurd (hiff.mpr hf) hr,
        fun _ => ⟨hans, hpage, congrArg State.wc hu, congrArg State.sp hu⟩⟩

/-- With two answers OK a block at its page's end does not fail (R67, R68, R230). -/
theorem writeBlock_flushes {s : State} {payload : List Byte} {ds : List FlashDraw} (h : InvParts s)
    (hw : wordCount payload = 1 + s.cfg.blockWords) (ha : AddrOk s.cfg (payloadWord s.prof payload 0))
    (hend : AtPageEnd s.cfg (payloadWord s.prof payload 0)) (hd : s.env.draws = .ok :: .ok :: ds) :
    let addr := payloadWord s.prof payload 0
    ∃ r w, FlushSpec (pageBase s.cfg addr) (stageBlock addr (blockData s.cfg payload) s) r w ∧ r ≠ .fail ∧
      exec (.writeBlock payload) s = .next (ackWriteBlock addr w) := by
  intro addr
  obtain ⟨r, w, hs, -, he⟩ := writeBlock_at_page_end h hw ha hend
  have hr : r ≠ .fail := fun hfail =>
    not_flushFails h.flash (staged_length h.cfg h.staging hw ha).2 hd
      (((stagedFrom_stageBlock addr _ s).fail_iff hs).mp hfail)
  rw [if_neg hr] at he
  exact ⟨r, w, hs, hr, he⟩

/-- Settles O45: with two answers OK the flush does not fail, and its effect is that of `flushed_ok_eq`. -/
theorem lastBlockWritesPage : Obligations.LastBlockWritesPage := by
  intro s payload ds hinv _ hw hd i addr pa ha hend
  have h := inv_iff.mp hinv
  obtain ⟨r, w, hs, hr, he⟩ := writeBlock_flushes h hw ha hend hd
  have hstaged := stagedFrom_stageBlock addr (blockData s.cfg payload) s
  have hxs : w.xs = xsAfter s .receiving := by rw [hs.same, stageBlock_eq]
  have hout := hstaged.outside hs (staged_length h.cfg h.staging hw ha).2
  refine ⟨_, _, he, hstaged.writeBlock_answered hs addr, ?_, hs.events.trans (congrArg Env.events hstaged.env_eq), ?_,
    hout⟩
  · rw [← hxs]
    exact flushed_ok_eq hstaged.eq hs hr .accumulating w.xs
  · unfold pageAt
    simp only [(hstaged.same_build hs).1]
    exact hstaged.page hs hr

/-! ## The count (R235) -/

/-- A flush ends with OK exactly where its log ends with a program and a read that finds the staged page. -/
theorem flush_ok_iff {pa : Word} {s t : State} {r : FlushResult} (hs : FlushSpec pa s r t) :
    r = .ok ↔ ∃ es, t.trace.flashLog = s.trace.flashLog ++ es ++ [.program pa s.sp.buf, .read pa] ∧
      Memory.readBytes t.flash pa.toNat s.cfg.pageSize = s.sp.buf := by
  obtain ⟨es, hlog, -, -, hes⟩ := hs.log
  constructor
  · rintro rfl
    have hdata := hs.data (by simp)
    rcases hes with ⟨hskip, -⟩ | ⟨-, ⟨rfl | rfl, -⟩ | ⟨hfail, -⟩⟩
    · cases hskip
    · exact ⟨[.isErased pa], by simpa using hlog, hdata⟩
    · exact ⟨[.isErased pa, .read pa, .erase pa], by simpa using hlog, hdata⟩
    · cases hfail
  · rintro ⟨es', hlog', hdata⟩
    have hends : es = es' ++ [.program pa s.sp.buf, .read pa] := by
      rw [hlog, List.append_assoc] at hlog'
      exact List.append_cancel_left hlog'
    have hlast : [.program pa s.sp.buf, .read pa] <:+ es := ⟨es', hends.symm⟩
    rcases hes with ⟨-, rfl⟩ | ⟨hskip, ⟨-, hdiffers⟩ | ⟨-, hes⟩⟩
    · simp [List.suffix_cons_iff] at hlast
    · cases r with
      | ok => rfl
      | skip => exact absurd rfl hskip
      | fail => exact absurd hdata (hdiffers rfl)
    · rcases hes with rfl | rfl | rfl <;> simp [List.suffix_cons_iff] at hlast

theorem word_ne_add_one (v : Word) : v ≠ v + 1#32 := by bv_omega

/-- An instruction with a page to flush is, up to its response, at the end of that flush. -/
theorem execShape_flushed {i : Instr} {s u : State} {pa : Word} (h : ExecShape i s u) (ht : flushTarget i s = some pa) :
    ∃ v w r fs xs, FlushSpec pa v r w ∧ u = { w with fs := fs, xs := xs } ∧
      v = { s with sp := { s.sp with buf := stagedPage i s, pending := true, addr := pa }, fs := v.fs, xs := v.xs } := by
  cases h with
  | flushed pa' v w r fs xs ht' hf hv hx hs =>
    cases ht.symm.trans ht'
    exact ⟨v, w, r, fs, xs, hs, rfl, hv⟩
  | same hn | staged _ _ _ _ hn | eof _ _ _ hn => rw [hn] at ht; cases ht
  | connect _ hi | complete _ hi => subst hi; cases ht

/-- Settles O51: no flush leaves the count, and a flush counts where it ends with OK. -/
theorem writeCounterCountsPrograms : Obligations.WriteCounterCountsPrograms := by
  intro i s t hinv hc hexec
  obtain ⟨u, code, payload, hsh, rfl, -⟩ := exec_shape hexec
  rw [txSend_wc, txSend_trace]
  unfold pageAt
  rw [txSend_flash, txSend_cfg]
  cases ht : flushTarget i s with
  | none =>
    rw [(execShape_no_flush hsh ht).1 hc]
    exact ⟨.inl rfl, iff_of_false (word_ne_add_one _) (by simp)⟩
  | some pa =>
    obtain ⟨v, w, r, fs, xs, hs, rfl, hv⟩ := execShape_flushed hsh ht
    have hcfg : w.cfg = s.cfg := by rw [hs.same, hv]
    have hok := flush_ok_iff hs
    have hcount := hs.count
    rw [hv] at hok hcount
    simp only at hok hcount ⊢
    rw [hcount, hcfg]
    refine ⟨by split <;> simp, ?_⟩
    have hcounts : (if r = .ok then s.wc + 1#32 else s.wc) = s.wc + 1#32 ↔ r = .ok := by
      split
      · exact iff_of_true rfl ‹_›
      · exact iff_of_false (word_ne_add_one _) ‹_›
    rw [hcounts, hok]
    constructor
    · rintro ⟨es, hes, hpage⟩
      exact ⟨pa, es, rfl, hes, hpage⟩
    · rintro ⟨pa', es, hpa, hes, hpage⟩
      cases hpa
      exact ⟨es, hes, hpage⟩

end Sys2Proof.Proofs
end

section
/-! PROOFS. The headlines of spec/43_flash_fsm.md: the blocks of one page in ascending order (R241), and a page's blocks sent
again (R238). -/

namespace Sys2Proof.Proofs

open Sys2Proof Sys2Proof.Machine

/-! ## The blocks of a page -/

/-- The bytes of block `k` of a page. -/
def blockBytes (c : Cfg) (data : List Byte) (k : Nat) : List Byte := (data.drop (k * c.blockSize)).take c.blockSize

/-- The address of block `k` of the page at `pa`. -/
def blockAddr (c : Cfg) (pa : Word) (k : Nat) : Word := natWord (pa.toNat + k * c.blockSize)

/-- The payload of block `k`'s request (R110). -/
def blockPayload (c : Cfg) (p : Prof) (pa : Word) (data : List Byte) (k : Nat) : List Byte :=
  wordBytes p.wordEndian (blockAddr c pa k) ++ blockBytes c data k

theorem pageBlock_eq (c : Cfg) (p : Prof) (pa : Word) (data : List Byte) (k : Nat) :
    pageBlock c p pa data k = .writeBlock (blockPayload c p pa data k) := rfl

theorem pageBlocks_succ (c : Cfg) (p : Prof) (pa : Word) (data : List Byte) (n : Nat) :
    pageBlocks c p pa data (n + 1) = pageBlocks c p pa data n ++ [pageBlock c p pa data n] := by
  simp [pageBlocks, List.range_succ]

/-- The blocks fill the page (R10). -/
theorem blocks_mul_blockSize {c : Cfg} (h : c.Ok) : c.pageSize / c.blockSize * c.blockSize = c.pageSize :=
  Nat.div_mul_cancel (Nat.dvd_of_mod_eq_zero h.2.1.2)

theorem blocks_pos {c : Cfg} (h : c.Ok) : 0 < c.pageSize / c.blockSize := by
  have hfill := blocks_mul_blockSize h
  have hpage := h.2.1.1
  by_contra hn
  rw [Nat.eq_zero_of_not_pos hn] at hfill
  omega

/-- Block `k` of a page ends within the page. -/
theorem block_end_le {c : Cfg} (h : c.Ok) {k : Nat} (hk : k < c.pageSize / c.blockSize) :
    k * c.blockSize + c.blockSize ≤ c.pageSize := by
  rw [← Nat.add_one_mul]
  exact (Nat.mul_le_mul_right _ hk).trans_eq (blocks_mul_blockSize h)

section Block

variable {c : Cfg} {p : Prof} {pa : Word} {data : List Byte} {k : Nat}

theorem blockBytes_length (h : c.Ok) (hdata : data.length = c.pageSize) (hk : k < c.pageSize / c.blockSize) :
    (blockBytes c data k).length = c.blockSize := by
  have hend := block_end_le h hk
  simp only [blockBytes, List.length_take, List.length_drop]
  omega

theorem blockAddr_toNat (h : c.Ok) (hpa : Flushable c pa) (hk : k < c.pageSize / c.blockSize) :
    (blockAddr c pa k).toNat = pa.toNat + k * c.blockSize := by
  have hend := block_end_le h hk
  have hblock := Cfg_Ok_blockSize_pos h
  obtain ⟨-, -, hlast⟩ := hpa
  obtain ⟨-, -, -, -, ⟨hflash, -⟩, -⟩ := h
  unfold blockAddr natWord
  rw [BitVec.toNat_ofNat]
  exact Nat.mod_eq_of_lt (by omega)

theorem blockAddr_ok (h : c.Ok) (hpa : Flushable c pa) (hk : k < c.pageSize / c.blockSize) :
    AddrOk c (blockAddr c pa k) := by
  have hend := block_end_le h hk
  unfold AddrOk
  rw [blockAddr_toNat h hpa hk]
  obtain ⟨haligned, hstart, hlast⟩ := hpa
  have hmod : pa.toNat % c.blockSize = 0 := Nat.mod_eq_zero_of_dvd
    ((Nat.dvd_of_mod_eq_zero h.2.1.2).trans (Nat.dvd_of_mod_eq_zero haligned))
  refine ⟨by omega, ?_, by omega⟩
  rw [Nat.add_mul_mod_self_right, hmod]

theorem pageOff_blockAddr (h : c.Ok) (hpa : Flushable c pa) (hk : k < c.pageSize / c.blockSize) :
    pageOff c (blockAddr c pa k) = k * c.blockSize := by
  have hend := block_end_le h hk
  have hblock := Cfg_Ok_blockSize_pos h
  unfold pageOff
  rw [blockAddr_toNat h hpa hk, Nat.add_mod, hpa.1, Nat.zero_add, Nat.mod_mod]
  exact Nat.mod_eq_of_lt (by omega)

theorem pageBase_blockAddr (h : c.Ok) (hpa : Flushable c pa) (hk : k < c.pageSize / c.blockSize) :
    pageBase c (blockAddr c pa k) = pa := by
  have hsum := pageBase_toNat_add c (blockAddr c pa k)
  rw [pageOff_blockAddr h hpa hk, blockAddr_toNat h hpa hk] at hsum
  exact BitVec.eq_of_toNat_eq (by omega)

/-- Only the last block ends its page (R223). -/
theorem atPageEnd_blockAddr_iff (h : c.Ok) (hpa : Flushable c pa) (hk : k < c.pageSize / c.blockSize) :
    AtPageEnd c (blockAddr c pa k) ↔ k + 1 = c.pageSize / c.blockSize := by
  have hfill := blocks_mul_blockSize h
  unfold AtPageEnd
  rw [pageOff_blockAddr h hpa hk, ← Nat.add_one_mul]
  constructor
  · intro hend
    exact Nat.eq_of_mul_eq_mul_right (Cfg_Ok_blockSize_pos h) (hend.trans hfill.symm)
  · intro hlast
    rw [hlast, hfill]

theorem payloadWord_blockPayload : payloadWord p (blockPayload c p pa data k) 0 = blockAddr c pa k :=
  payloadWord_wordBytes p _ _

theorem wordCount_blockPayload (hlen : (blockBytes c data k).length = c.blockSize) :
    wordCount (blockPayload c p pa data k) = 1 + c.blockWords := by
  unfold wordCount blockPayload Cfg.blockWords
  rw [List.length_append, wordBytes_length, hlen]
  omega

theorem blockData_blockPayload (hlen : (blockBytes c data k).length = c.blockSize) :
    blockData c (blockPayload c p pa data k) = blockBytes c data k := by
  unfold blockData blockPayload
  rw [← wordBytes_length p.wordEndian (blockAddr c pa k), List.drop_left, ← hlen, List.take_length]

end Block

/-! ## The staging page as it fills -/

/-- The staging page after the first `n` blocks: their bytes, then erased bytes (R222, R241). -/
def filledStaging (c : Cfg) (data : List Byte) (n : Nat) : List Byte :=
  data.take (n * c.blockSize) ++ List.replicate (c.pageSize - n * c.blockSize) erasedByte

theorem filledStaging_zero (c : Cfg) (data : List Byte) : filledStaging c data 0 = erasedPage c := by
  simp [filledStaging, erasedPage]

theorem filledStaging_all {c : Cfg} {data : List Byte} (h : c.Ok) (hdata : data.length = c.pageSize) :
    filledStaging c data (c.pageSize / c.blockSize) = data := by
  rw [filledStaging, blocks_mul_blockSize h, ← hdata]
  simp

/-- Block `n` goes right behind the blocks before it. -/
theorem overlay_filledStaging {c : Cfg} {data : List Byte} {n : Nat} (h : c.Ok) (hdata : data.length = c.pageSize)
    (hn : n < c.pageSize / c.blockSize) :
    overlay (filledStaging c data n) (n * c.blockSize) (blockBytes c data n) = filledStaging c data (n + 1) := by
  have hend := block_end_le h hn
  have htaken : (data.take (n * c.blockSize)).length = n * c.blockSize := by simp; omega
  unfold overlay filledStaging
  rw [blockBytes_length h hdata hn, List.take_left' htaken, Nat.add_one_mul, List.take_add, ← List.drop_drop,
    List.drop_left' htaken, List.drop_replicate, Nat.sub_sub]
  rfl

/-- A last block alone leaves the rest of an erased page erased. -/
theorem overlay_erasedPage {c : Cfg} {off : Nat} {block : List Byte} (h : off + block.length = c.pageSize) :
    overlay (erasedPage c) off block = List.replicate off erasedByte ++ block := by
  unfold overlay erasedPage
  rw [List.take_replicate, List.drop_replicate, h, Nat.sub_self, Nat.min_eq_left (by omega)]
  simp

/-! ## One block of a page -/

/-- What a flush of `staged` to `pa` with no flash fault leaves, from `s` to `t` (R230 to R237). -/
structure PageFlushed (s : State) (pa : Word) (staged : List Byte) (t : State) : Prop where
  page : pageAt t pa = staged
  log : t.trace.flashLog = s.trace.flashLog ++ flushEvents s pa staged
  count : t.wc = flushCount s pa staged
  pending : t.sp.pending = false
  outside : ∀ a, OutsidePage s.cfg pa a → Memory.read t.flash a = Memory.read s.flash a

/-- A flush of what the page holds leaves flash and the count (R232). -/
theorem PageFlushed.unchanged {s t : State} {pa : Word} {staged : List Byte} (h : PageFlushed s pa staged t)
    (hs : InvParts s) (ht : InvParts t) (hcfg : t.cfg = s.cfg) (hpage : pageAt s pa = staged)
    (hne : staged ≠ erasedPage s.cfg) : t.flash = s.flash ∧ t.wc = s.wc := by
  refine ⟨Memory.ext_of_read ht.flash hs.flash fun a => ?_, ?_⟩
  · by_cases ha : OutsidePage s.cfg pa a
    · exact h.outside a ha
    · have hsame := h.page.trans hpage.symm
      unfold pageAt at hsame
      rw [hcfg] at hsame
      have hbyte := congrArg (·[a - pa.toNat]?) hsame
      simp only [Memory.readBytes_getElem?] at hbyte
      have hin : a - pa.toNat < s.cfg.pageSize := by omega
      rw [if_pos hin, if_pos hin, Nat.add_sub_cancel' (by omega)] at hbyte
      exact Option.some.inj hbyte
  · rw [h.count, flushCount, hpage, if_neg hne, if_pos rfl]

/-- With two answers OK a WRITE_BLOCK at its page's end flushes its staged page there (R223, R230). -/
theorem writeBlock_pageFlushed {s : State} {payload : List Byte} {ds : List FlashDraw} (h : InvParts s)
    (hw : wordCount payload = 1 + s.cfg.blockWords) (ha : AddrOk s.cfg (payloadWord s.prof payload 0))
    (hend : AtPageEnd s.cfg (payloadWord s.prof payload 0)) (hd : s.env.draws = .ok :: .ok :: ds) :
    ∃ t, exec (.writeBlock payload) s = .next t ∧
      PageFlushed s (pageBase s.cfg (payloadWord s.prof payload 0))
        (overlay s.sp.buf (pageOff s.cfg (payloadWord s.prof payload 0)) (blockData s.cfg payload)) t := by
  obtain ⟨r, w, hs, hr, he⟩ := writeBlock_flushes h hw ha hend hd
  have hstaged := stagedFrom_stageBlock (payloadWord s.prof payload 0) (blockData s.cfg payload) s
  have hafter := flushed_ok_eq hstaged.eq hs hr w.fs w.xs
  refine ⟨_, he, ?_, ?_, ?_, ?_, ?_⟩
  · unfold pageAt
    rw [ackWriteBlock_cfg, ackWriteBlock_flash, (hstaged.same_build hs).1]
    exact hstaged.page hs hr
  · rw [ackWriteBlock_eq, emit_trace_flashLog]
    exact congrArg (·.trace.flashLog) hafter
  · rw [ackWriteBlock_wc]
    exact congrArg State.wc hafter
  · rw [ackWriteBlock_sp]
    exact congrArg (·.sp.pending) hafter
  · rw [ackWriteBlock_flash]
    exact hstaged.outside hs (staged_length h.cfg h.staging hw ha).2

section OneBlock

variable {s : State} {pa : Word} {data : List Byte} {k : Nat}

/-- A block before the last is staged and acknowledged (R221, R222). -/
theorem exec_pageBlock_staged (h : InvParts s) (hpa : Flushable s.cfg pa) (hdata : data.length = s.cfg.pageSize)
    (hk : k + 1 < s.cfg.pageSize / s.cfg.blockSize) :
    exec (pageBlock s.cfg s.prof pa data k) s =
      .next (ackWriteBlock (blockAddr s.cfg pa k) (stageBlock (blockAddr s.cfg pa k) (blockBytes s.cfg data k) s)) := by
  have hk' : k < s.cfg.pageSize / s.cfg.blockSize := by omega
  have hlen := blockBytes_length h.cfg hdata hk'
  have hcases := execWriteBlock_cases (blockPayload s.cfg s.prof pa data k) s
  rw [payloadWord_blockPayload, blockData_blockPayload hlen] at hcases
  rcases hcases with ⟨hn, -⟩ | ⟨-, hn, -⟩ | ⟨-, -, -, he⟩ | ⟨-, -, hend, -⟩ | ⟨-, -, hend, -⟩
  · exact absurd (wordCount_blockPayload hlen) hn
  · exact absurd (blockAddr_ok h.cfg hpa hk') hn
  · exact he
  all_goals exact absurd ((atPageEnd_blockAddr_iff h.cfg hpa hk').mp hend) (by omega)

/-- The last block is staged and its page flushed (R223). -/
theorem exec_pageBlock_last {ds : List FlashDraw} (h : InvParts s) (hpa : Flushable s.cfg pa)
    (hdata : data.length = s.cfg.pageSize) (hk : k + 1 = s.cfg.pageSize / s.cfg.blockSize)
    (hd : s.env.draws = .ok :: .ok :: ds) :
    ∃ t, exec (pageBlock s.cfg s.prof pa data k) s = .next t ∧
      PageFlushed s pa (overlay s.sp.buf (k * s.cfg.blockSize) (blockBytes s.cfg data k)) t := by
  have hk' : k < s.cfg.pageSize / s.cfg.blockSize := by omega
  have hlen := blockBytes_length h.cfg hdata hk'
  have hflushed := writeBlock_pageFlushed (payload := blockPayload s.cfg s.prof pa data k) (ds := ds) h
    (wordCount_blockPayload hlen)
  rw [payloadWord_blockPayload, pageBase_blockAddr h.cfg hpa hk', pageOff_blockAddr h.cfg hpa hk',
    blockData_blockPayload hlen] at hflushed
  exact hflushed (blockAddr_ok h.cfg hpa hk') ((atPageEnd_blockAddr_iff h.cfg hpa hk').mpr hk) hd

end OneBlock

/-! ## The blocks in ascending order (R241) -/

/-- `t` is `s` after the first `n` blocks of a page: they are staged, and flash, its log, its answers and the count are as
they were. -/
structure BlocksStaged (s : State) (data : List Byte) (n : Nat) (t : State) : Prop where
  inv : InvParts t
  cfg : t.cfg = s.cfg
  prof : t.prof = s.prof
  env : t.env = s.env
  flash : t.flash = s.flash
  log : t.trace.flashLog = s.trace.flashLog
  count : t.wc = s.wc
  staging : t.sp.buf = filledStaging s.cfg data n

section Ascending

variable {s : State} {pa : Word} {data : List Byte}

/-- The next block but the last keeps `BlocksStaged`. -/
theorem BlocksStaged.next {t : State} {n : Nat} (h : BlocksStaged s data n t) (hpa : Flushable s.cfg pa)
    (hdata : data.length = s.cfg.pageSize) (hn : n + 1 < s.cfg.pageSize / s.cfg.blockSize) :
    ∃ u, exec (pageBlock s.cfg s.prof pa data n) t = .next u ∧ BlocksStaged s data (n + 1) u := by
  have hn' : n < s.cfg.pageSize / s.cfg.blockSize := by omega
  have he := exec_pageBlock_staged (s := t) (pa := pa) (data := data) (k := n) h.inv
    (by rwa [h.cfg]) (by rwa [h.cfg]) (by rwa [h.cfg])
  have hinv := h.inv.exec he
  have hc : s.cfg.Ok := h.cfg ▸ h.inv.cfg
  rw [h.cfg, h.prof] at he
  rw [h.cfg] at hinv
  refine ⟨_, he, hinv, ?_, ?_, ?_, ?_, ?_, ?_, ?_⟩
  · simp [h.cfg]
  · simp [h.prof]
  · simp [h.env]
  · simp [h.flash]
  · rw [ackWriteBlock_eq, emit_trace_flashLog, stageBlock_eq]
    exact h.log
  · simp [h.count]
  · simp only [ackWriteBlock_sp, stageBlock_sp, h.cfg, h.staging, pageOff_blockAddr hc hpa hn']
    exact overlay_filledStaging hc hdata hn'

/-- Blocks before the last are staged, one after the other. -/
theorem runExec_pageBlocks_staged (h : InvParts s) (hp : s.sp.pending = false) (hpa : Flushable s.cfg pa)
    (hdata : data.length = s.cfg.pageSize) {n : Nat} (hn : n < s.cfg.pageSize / s.cfg.blockSize) :
    ∃ t, runExec (pageBlocks s.cfg s.prof pa data n) s = .next t ∧ BlocksStaged s data n t := by
  induction n with
  | zero =>
    refine ⟨s, rfl, h, rfl, rfl, rfl, rfl, rfl, rfl, ?_⟩
    rw [filledStaging_zero]
    exact h.clean hp
  | succ n ih =>
    obtain ⟨t, hrun, ht⟩ := ih (by omega)
    obtain ⟨u, hu, hnext⟩ := ht.next hpa hdata hn
    refine ⟨u, ?_, hnext⟩
    rw [pageBlocks_succ, runExec_append, hrun]
    simp only [runExec, hu]

/-- All blocks of a page, in order, flush that page once, with the last of them. -/
theorem runExec_pageBlocks_all {ds : List FlashDraw} (h : InvParts s) (hp : s.sp.pending = false)
    (hpa : Flushable s.cfg pa) (hdata : data.length = s.cfg.pageSize) (hd : s.env.draws = .ok :: .ok :: ds) :
    ∃ t, runExec (pageBlocks s.cfg s.prof pa data (s.cfg.pageSize / s.cfg.blockSize)) s = .next t ∧
      InvParts t ∧ t.cfg = s.cfg ∧ PageFlushed s pa data t := by
  obtain ⟨n, hn⟩ := Nat.exists_eq_add_one.mpr (blocks_pos h.cfg)
  obtain ⟨t, hrun, ht⟩ := runExec_pageBlocks_staged h hp hpa hdata (n := n) (by omega)
  obtain ⟨u, hu, hflushed⟩ := exec_pageBlock_last (s := t) (pa := pa) (data := data) (k := n) ht.inv
    (by rwa [ht.cfg]) (by rwa [ht.cfg]) (by rw [ht.cfg, hn]) (by rwa [ht.env])
  have hinv := ht.inv.exec hu
  obtain ⟨hcfg, -⟩ := exec_fields hu
  rw [ht.cfg, ht.prof] at hu
  rw [ht.cfg, ht.staging, overlay_filledStaging h.cfg hdata (by omega), ← hn,
    filledStaging_all h.cfg hdata] at hflushed
  have hpage : pageAt t pa = pageAt s pa := by unfold pageAt; rw [ht.cfg, ht.flash]
  refine ⟨u, ?_, hinv, hcfg.trans ht.cfg, hflushed.page, ?_, ?_, hflushed.pending, ?_⟩
  · rw [hn, pageBlocks_succ, runExec_append, hrun]
    simp only [runExec, hu]
  · rw [hflushed.log, ht.log]
    simp only [flushEvents, hpage, ht.cfg]
  · rw [hflushed.count]
    simp only [flushCount, hpage, ht.cfg, ht.count]
  · rw [← ht.cfg, ← ht.flash]
    exact hflushed.outside

end Ascending

/-- Settles O48: the blocks before the last are only staged (by induction on their number), and the last one flushes. -/
theorem ascendingBlocksWriteOnePage : Obligations.AscendingBlocksWriteOnePage := by
  intro s pa data ds hinv hp hpa hdata hd
  have h := inv_iff.mp hinv
  refine ⟨fun n hn => ?_, ?_⟩
  · obtain ⟨t, hrun, ht⟩ := runExec_pageBlocks_staged h hp hpa hdata hn
    exact ⟨t, hrun, ht.flash, ht.log, ht.count⟩
  · obtain ⟨t, hrun, -, -, ht⟩ := runExec_pageBlocks_all h hp hpa hdata hd
    exact ⟨t, hrun, ht.page, ht.log, ht.count, ht.pending, ht.outside⟩

/-! ## Blocks sent again (R238) -/

/-- The last block sent to a fresh staging page flushes a page that is erased up to that block. -/
theorem exec_last_pageBlock_fresh {s : State} {pa : Word} {data : List Byte} {ds : List FlashDraw} (h : InvParts s)
    (hp : s.sp.pending = false) (hpa : Flushable s.cfg pa) (hdata : data.length = s.cfg.pageSize)
    (hd : s.env.draws = .ok :: .ok :: ds) :
    let kept := s.cfg.pageSize - s.cfg.blockSize
    ∃ t, exec (pageBlock s.cfg s.prof pa data (s.cfg.pageSize / s.cfg.blockSize - 1)) s = .next t ∧
      PageFlushed s pa (List.replicate kept erasedByte ++ data.drop kept) t := by
  intro kept
  have hblocks := blocks_pos h.cfg
  obtain ⟨t, he, ht⟩ := exec_pageBlock_last (k := s.cfg.pageSize / s.cfg.blockSize - 1) h hpa hdata (by omega) hd
  have hoff : (s.cfg.pageSize / s.cfg.blockSize - 1) * s.cfg.blockSize = kept := by
    rw [Nat.sub_mul, blocks_mul_blockSize h.cfg, Nat.one_mul]
  have hkept : kept + s.cfg.blockSize = s.cfg.pageSize := by
    rw [← hoff, ← Nat.add_one_mul, Nat.sub_add_cancel hblocks]
    exact blocks_mul_blockSize h.cfg
  have hbytes : blockBytes s.cfg data (s.cfg.pageSize / s.cfg.blockSize - 1) = data.drop kept := by
    unfold blockBytes
    rw [hoff]
    exact List.take_of_length_le (by simp; omega)
  have hclean : s.sp.buf = erasedPage s.cfg := h.clean hp
  rw [hoff, hbytes, hclean, overlay_erasedPage (by simp; omega)] at ht
  exact ⟨t, he, ht⟩

/-- Settles O54: the last block alone stages an erased page with that block at its end, all blocks stage the data; flash
stays where that is what the page holds. -/
theorem resentPageBlock : Obligations.ResentPageBlock := by
  intro s pa data ds hinv hp hpa hdata hpage hne hd blocks last kept
  have h := inv_iff.mp hinv
  obtain ⟨t, he, ht⟩ := exec_last_pageBlock_fresh h hp hpa hdata hd
  refine ⟨fun hone => ?_, fun hlost => ?_, ?_⟩
  · have hdrop : List.replicate (s.cfg.pageSize - s.cfg.blockSize) erasedByte ++
        data.drop (s.cfg.pageSize - s.cfg.blockSize) = data := by simp [hone]
    rw [hdrop] at ht
    exact ⟨t, he, ht.unchanged h (h.exec he) (exec_fields he).1 hpage hne⟩
  · have hdiffers : data ≠ List.replicate kept erasedByte ++ data.drop kept := fun heq =>
      hlost (by rw [heq]; exact List.take_left' List.length_replicate)
    refine ⟨t, he, ht.page, ?_⟩
    rw [ht.count, flushCount, hpage, if_neg hne, if_neg hdiffers]
  · obtain ⟨u, hrun, hinv', hcfg, hu⟩ := runExec_pageBlocks_all h hp hpa hdata hd
    exact ⟨u, hrun, hu.unchanged h hinv' hcfg hpage hne⟩

end Sys2Proof.Proofs
end

section
/-! PROOFS. The statement of spec/44_response_encoder.md: a response is queued whole or dropped whole (R265). -/

namespace Sys2Proof.Proofs

open Sys2Proof Sys2Proof.Machine

/-- A frame that fits in the queue is queued whole. -/
theorem eq_queued_of_answered {f : List Byte} {s t : State} (h : Answered f s t)
    (hfits : s.txq.length + f.length ≤ s.cfg.txCap) : t = { s with txq := s.txq ++ f } := by
  rwa [Answered, if_pos hfits] at h

/-- A frame that does not fit is dropped whole, and recorded. -/
theorem eq_dropped_of_answered {f : List Byte} {s t : State} (h : Answered f s t)
    (hfull : s.cfg.txCap < s.txq.length + f.length) :
    t = { s with trace := { s.trace with dropLog := s.trace.dropLog ++ [f] } } := by
  rwa [Answered, if_neg (Nat.not_le.mpr hfull)] at h

/-- Settles O32: `Emit` offers its frame, and the room in the queue decides which way it goes. -/
theorem responseQueuedWholeOrDropped : Obligations.ResponseQueuedWholeOrDropped := by
  intro s code payload f
  have hoffered : Answered f s (emit code payload s) := emit_answered code payload s
  exact ⟨eq_queued_of_answered hoffered, eq_dropped_of_answered hoffered⟩

end Sys2Proof.Proofs
end

section
/-! PROOFS. The statements of spec/45_transfer_controller.md that speak of the session's end: COMPLETE is left by reset only
(R281), and the tick of the grace timer (R292). -/

namespace Sys2Proof.Proofs

open Sys2Proof Sys2Proof.Machine

/-! ## COMPLETE is sticky (R281) -/

/-- Before its response an instruction writes `XS` by `SetXS` only, or sets it to COMPLETE (R281, R287). -/
theorem execShape_xs_complete {i : Instr} {s u : State} (h : ExecShape i s u) (hx : s.xs = .complete) :
    u.xs = .complete := by
  cases h with
  | same => exact hx
  | connect => exact xsAfter_complete hx
  | complete => rfl
  | staged => rw [stageBlock_xs, if_pos hx]
  | eof => exact xsAfter_complete hx
  | flushed pa v w r fs xs ht hf hv hvx hs hfs hxs hwx =>
    have hflush : w.xs = v.xs := by rw [hs.same]
    exact hwx (hflush.trans (hvx hx))

/-- No instruction leaves COMPLETE: its response does not touch `XS`. -/
theorem exec_xs_complete {i : Instr} {s t : State} (h : exec i s = .next t) (hx : s.xs = .complete) :
    t.xs = .complete := by
  obtain ⟨u, code, payload, hsh, rfl, -⟩ := exec_shape h
  rw [txSend_xs]
  exact execShape_xs_complete hsh hx

/-- No reframer iteration leaves COMPLETE: only the instruction that it runs writes `XS`. -/
theorem iterate_xs_complete {s t : State} (h : iterate s = .next t) (hx : s.xs = .complete) : t.xs = .complete := by
  rcases iterate_cases h with
    ⟨_, _, -, u, hu, rfl⟩ | ⟨_, -, rfl⟩ | ⟨-, rfl⟩ | ⟨_, _, -, -, -, -, u, hu, rfl⟩ | ⟨-, rfl⟩
  · exact (advance_xs _ u).trans (exec_xs_complete hu hx)
  · exact hx
  · exact hx
  · exact (advance_xs _ u).trans (exec_xs_complete hu hx)
  · exact hx

/-- No agent's step but reset and power loss leaves COMPLETE. -/
theorem agentStep_xs_complete {e : Event} {s t : State} (h : agentStep e s = .next t)
    (hreset : ∀ enter, e ≠ .reset enter) (hpower : ∀ answers issued enter, e ≠ .powerLoss answers issued enter)
    (hx : s.xs = .complete) : t.xs = .complete := by
  cases e with
  | rx chunk => cases h; split <;> simpa using hx
  | tx k => cases h; split <;> simpa using hx
  | tick => cases h; split <;> simpa using hx
  | iterate =>
    simp only [agentStep] at h
    split at h
    · exact iterate_xs_complete h hx
    · cases h; exact hx
  | jump => cases h; split <;> simpa using hx
  | reset enter => exact absurd rfl (hreset enter)
  | powerLoss answers issued enter => exact absurd rfl (hpower answers issued enter)

/-- Settles O52: for commands by what they do before their response, for steps by the agent that moves. -/
theorem completeIsSticky : Obligations.CompleteIsSticky := by
  refine ⟨fun i s t hx h => exec_xs_complete h hx, fun s t hx hr h => ?_⟩
  obtain ⟨-, hstep⟩ := step_cases h
  obtain ⟨hreset, hpower⟩ := (resetsNext_eq_false_iff s).mp hr
  exact agentStep_xs_complete hstep hreset hpower ((nextEvent_xs s).trans hx)

/-! ## The grace timer (R292) -/

/-- Settles O22, by whether the tick is enabled. -/
theorem graceTimerTicks : Obligations.GraceTimerTicks := by
  intro s
  constructor
  · intro hrun hxs hgt
    simp only [agentStep, if_pos (show TickEnabled s from ⟨hrun, hxs, hgt⟩), timerTick]
  · intro hoff
    simp only [agentStep, if_neg (show ¬ TickEnabled s from hoff)]

end Sys2Proof.Proofs
end

section
/-! PROOFS. The statement of spec/70_reset_and_hazards.md: what reset leaves in each element of Table S1 (R350, R351). -/

namespace Sys2Proof.Proofs

open Sys2Proof Sys2Proof.Machine

/-- The agent that resets never faults and is never refused. -/
theorem agentStep_reset (enter : Bool) (s : State) : agentStep (.reset enter) s = .next (resetMachine enter s) := rfl

/-- The staging page that reset leaves, but for its two addresses, which have no reset value (Table S1). -/
theorem resetStaging_values (c : Cfg) : (resetStaging c).buf = List.replicate c.pageSize 0xFF#8 ∧
    (resetStaging c).pending = false ∧ (resetStaging c).lastValid = false := ⟨rfl, rfl, rfl⟩

/-- Settles O25: the step always leads to `resetMachine`'s state, whose elements have a rule each; the receive buffer and
the staging page are taken apart. -/
theorem resetValues : Obligations.ResetValues := by
  intro s enter
  have hrb := resetMachine_rb enter s
  have hfill : (resetMachine enter s).rb.fill = 0 := congrArg RxBuffer.fill hrb
  have hrp : (resetMachine enter s).rb.rp = 0 := congrArg RxBuffer.rp hrb
  obtain ⟨hbuf, hpending, hlastValid⟩ := resetStaging_values s.cfg
  rw [← resetMachine_sp enter s] at hbuf hpending hlastValid
  exact ⟨resetMachine enter s, agentStep_reset enter s, resetMachine_mode enter s, resetMachine_jumpApp enter s, hfill, hrp,
    hbuf, hpending, hlastValid, resetMachine_xs enter s, resetMachine_fs enter s, resetMachine_wc enter s,
    resetMachine_gt enter s, resetMachine_txq enter s, resetMachine_flash enter s, resetMachine_cfg enter s,
    resetMachine_prof enter s⟩

end Sys2Proof.Proofs
end
